-- ==== Sys2Proof/Word.lean ====
section
/-! DEFINITION. The word types of the hardware (00_scope.md R9, R11): 32-bit registers and addresses, bytes of the data
memory, bits of the bitstream. A bit is a `Bool`, `true` standing for 1. -/

namespace Sys2Proof

/-- A byte of data memory or of a buffer (R11). -/
abbrev Byte := BitVec 8

/-- REG_W = ADDR_W = COUNT_W = 32 (R9): a CSR, an address as a CSR holds it, a count. -/
abbrev Word := BitVec 32

/-- `Bytes` of R11: a finite list of bytes. -/
abbrev Bytes := List Byte

/-- `Bits` of R11: a finite list of bits, first bit of the stream first. -/
abbrev Bits := List Bool

/-- The code table of R39: an ordered list of (byte, code) entries. -/
abbrev CodeTable := List (Byte × Bits)

end Sys2Proof
end

