-- ==== Sys2Proof/Machine/Bits.lean ====
section
/-! DEFINITION. Bit and byte packing (00_scope.md R13, R14; 20_memory.md R48, R49): most significant bit first inside a byte,
most significant byte first in the table length. -/

namespace Sys2Proof.Machine

/-- The eight bits of a byte, bit 7 first (R13). -/
def byteBits (v : Byte) : Bits :=
  [v.getLsbD 7, v.getLsbD 6, v.getLsbD 5, v.getLsbD 4, v.getLsbD 3, v.getLsbD 2, v.getLsbD 1, v.getLsbD 0]

/-- `bytesToBits` of R13. -/
def bytesToBits (s : Bytes) : Bits := s.flatMap byteBits

/-- The byte of eight bits, the first of them bit 7 (R13). -/
def byteOfBits (b7 b6 b5 b4 b3 b2 b1 b0 : Bool) : Byte :=
  BitVec.ofNat 8 (b7.toNat * 128 + b6.toNat * 64 + b5.toNat * 32 + b4.toNat * 16 + b3.toNat * 8 + b2.toNat * 4 +
    b1.toNat * 2 + b0.toNat)

/-- `bitsToBytes` of R13, for a bit count that is a multiple of 8. -/
def bitsToBytes : Bits → Bytes
  | b7 :: b6 :: b5 :: b4 :: b3 :: b2 :: b1 :: b0 :: rest => byteOfBits b7 b6 b5 b4 b3 b2 b1 b0 :: bitsToBytes rest
  | _ => []

/-- `be32` of R13: the four bytes of a number below 2^32, most significant first. -/
def be32 (n : Nat) : Bytes :=
  [BitVec.ofNat 8 (n / 2 ^ 24), BitVec.ofNat 8 (n / 2 ^ 16), BitVec.ofNat 8 (n / 2 ^ 8), BitVec.ofNat 8 n]

/-- The number four big-endian bytes stand for (R94). -/
def be32Value (b3 b2 b1 b0 : Byte) : Nat := b3.toNat * 2 ^ 24 + b2.toNat * 2 ^ 16 + b1.toNat * 2 ^ 8 + b0.toNat

/-- `chr` of R14: the ASCII character of a bit. -/
def chr (bit : Bool) : Byte := if bit then 0x31 else 0x30

/-- A byte is one of the two code characters (R92). -/
def isCodeChar (b : Byte) : Bool := b == 0x30 || b == 0x31

/-- The bit a code character stands for (R94). -/
def bitOfChr (b : Byte) : Bool := b == 0x31

/-- The padding count for `n` code bits (R98, R99). -/
def padCount (n : Nat) : Nat := (8 - n % 8) % 8

end Sys2Proof.Machine
end

