-- ==== Sys2Proof/Config.lean ====
section
/-! DEFINITION. What an instance of the hardware fixes (00_scope.md R10, 20_memory.md R53 and R55) and the free values the
spec leaves open (70_reset_and_hazards.md R129). The instance parameters are carried by the state and no step changes them,
so a statement about every state is a statement about every instance. -/

namespace Sys2Proof

/-- A range `[base, base + size)` of data-memory addresses. -/
structure Region where
  base : Nat
  size : Nat
deriving DecidableEq, Repr

/-- The parameters of R10, with the platform's list of data-memory ranges that are not ordinary memory (R53, R55). -/
structure Params where
  /-- MAX_LEN, as CSR 0x28 reads it. -/
  maxLen  : Word
  /-- MEM_LAST = MEM_SIZE - 1, as CSR 0x2C reads it. -/
  memLast : Word
  /-- CSR_BASE, an address of the host's bus. -/
  csrBase : Nat
  /-- Data-memory ranges that hold a device or other memory with side effects. -/
  devices : List Region
deriving DecidableEq, Repr

/-- The free value of R129: what the n-th byte left unspecified by a reset taken while BUSY holds. It has no body on
purpose: nothing can be proved about its values (assumption log 6). -/
opaque Config.freeByte : Nat → Byte

end Sys2Proof
end

