-- ==== Sys2Proof/Syntax.lean ====
section
/-! DEFINITION. The twelve commands of 30_encoding.md R66, one constructor per row of the opcode table, and the three raw
fields of the one command format `C` (R62). Operands other than DECODE's R bit are CSRs and unit tables, not fields of the
word (R64). -/

namespace Sys2Proof

/-- The commands (R66). -/
inductive Instr where
  /-- ENCODE, R110. -/
  | encode
  /-- DECODE with its R bit, R65 and R111. -/
  | decode (r : Bool)
  /-- RLE_ENC, R81. -/
  | rleEnc
  /-- RLE_DEC, R82. -/
  | rleDec
  /-- FREQ, R89. -/
  | freq
  /-- BUILD_TREE, R90. -/
  | buildTree
  /-- GEN_CODES, R91. -/
  | genCodes
  /-- SERIALIZE, R96. -/
  | serialize
  /-- DESERIALIZE, R97. -/
  | deserialize
  /-- PACK, R102. -/
  | pack
  /-- BUILD_TRIE, R103. -/
  | buildTrie
  /-- UNPACK, R104. -/
  | unpack
deriving DecidableEq, Repr

/-- The raw fields of a command word (R62): OPCODE = bits 7:0, R = bit 8, reserved = bits 31:9. -/
structure CommandFields where
  opcode   : Byte
  r        : Bool
  reserved : BitVec 23
deriving DecidableEq, Repr

end Sys2Proof
end

