-- ==== Sys2Proof/WellFormed.lean ====
section
/-! DEFINITION. What makes the raw fields of a command word a legal command (30_encoding.md R67, its clauses (a), (b) and
(c)), and what makes an instance's parameters legal (00_scope.md R10). -/

namespace Sys2Proof

/-- The twelve assigned opcodes (R66). -/
def assignedOpcodes : List Byte :=
  [0x01, 0x02, 0x10, 0x11, 0x20, 0x21, 0x22, 0x30, 0x31, 0x40, 0x41, 0x42]

/-- R67 (a): the opcode is one of the twelve. -/
def CommandFields.opcodeAssigned (f : CommandFields) : Bool := assignedOpcodes.contains f.opcode

/-- R67 (b): the reserved bits are zero. -/
def CommandFields.reservedClear (f : CommandFields) : Bool := f.reserved == 0

/-- R67 (c): R = 1 only on DECODE. -/
def CommandFields.flagAllowed (f : CommandFields) : Bool := !f.r || f.opcode == 0x02

/-- A legal command word's fields (R67). -/
def CommandFields.wf (f : CommandFields) : Bool :=
  f.opcodeAssigned && f.reservedClear && f.flagAllowed

/-- R10: 1 ≤ MAX_LEN ≤ 2^28. -/
def Params.maxLenLegal (p : Params) : Bool := decide (1 ≤ p.maxLen.toNat) && decide (p.maxLen.toNat ≤ 2 ^ 28)

/-- R10: CSR_BASE is 256-byte aligned. -/
def Params.csrBaseAligned (p : Params) : Bool := p.csrBase % 256 == 0

/-- A legal instance (R10). MEM_SIZE = MEM_LAST + 1 is in 1 to 2^32 for every 32-bit MEM_LAST. -/
def Params.wf (p : Params) : Bool := p.maxLenLegal && p.csrBaseAligned

end Sys2Proof
end

