-- ==== Sys2Proof/Decode.lean ====
section
/-! DEFINITION. The decoder of command words (30_encoding.md R62 to R68), total on every 32-bit word and rejecting by name,
and the encoder written from the same table (R66). There is one word per command (R63), so no length is decided. -/

namespace Sys2Proof

/-- Why a word is illegal (R67). The three clauses all end in ILLEGAL_COMMAND; the names only say which clause. -/
inductive DecodeReject where
  /-- R67 (a). -/
  | unassignedOpcode
  /-- R67 (b). -/
  | reservedBitSet
  /-- R67 (c). -/
  | flagOnOtherOpcode
deriving DecidableEq, Repr

/-- The fields of a command word (R62). -/
def fieldsOf (w : Word) : CommandFields where
  opcode   := w.extractLsb' 0 8
  r        := w.getLsbD 8
  reserved := w.extractLsb' 9 23

/-- The opcode map of R66: the command an opcode selects, given the R bit. -/
def commandOf (opcode : Byte) (r : Bool) : Option Instr :=
  if opcode = 0x01 then some .encode
  else if opcode = 0x02 then some (.decode r)
  else if opcode = 0x10 then some .rleEnc
  else if opcode = 0x11 then some .rleDec
  else if opcode = 0x20 then some .freq
  else if opcode = 0x21 then some .buildTree
  else if opcode = 0x22 then some .genCodes
  else if opcode = 0x30 then some .serialize
  else if opcode = 0x31 then some .deserialize
  else if opcode = 0x40 then some .pack
  else if opcode = 0x41 then some .buildTrie
  else if opcode = 0x42 then some .unpack
  else none

/-- The legality checks of R67 over the raw fields. -/
def decodeFields (f : CommandFields) : Except DecodeReject Instr :=
  match commandOf f.opcode f.r with
  | none => .error .unassignedOpcode
  | some i =>
    if f.reserved ≠ 0 then .error .reservedBitSet
    else if f.r = true ∧ f.opcode ≠ 0x02 then .error .flagOnOtherOpcode
    else .ok i

/-- Decode a command word (R62, R66, R67). -/
def decode (w : Word) : Except DecodeReject Instr := decodeFields (fieldsOf w)

/-- The word's instruction, forgetting why an illegal word is illegal. -/
def decode? (w : Word) : Option Instr := (decode w).toOption

/-- OPCODE of each command (R66). -/
def Instr.opcode : Instr → Byte
  | .encode      => 0x01
  | .decode _    => 0x02
  | .rleEnc      => 0x10
  | .rleDec      => 0x11
  | .freq        => 0x20
  | .buildTree   => 0x21
  | .genCodes    => 0x22
  | .serialize   => 0x30
  | .deserialize => 0x31
  | .pack        => 0x40
  | .buildTrie   => 0x41
  | .unpack      => 0x42

/-- The R bit of each command: DECODE's flag, and 0 for every other opcode (R62, R65). -/
def Instr.flag : Instr → Bool
  | .decode r => r
  | .encode | .rleEnc | .rleDec | .freq | .buildTree | .genCodes
  | .serialize | .deserialize | .pack | .buildTrie | .unpack => false

/-- The raw fields of a command's word (R62). -/
def Instr.fields (i : Instr) : CommandFields := ⟨i.opcode, i.flag, 0⟩

/-- Every term of `Instr` is a legal command: its fields pass R67. -/
def Instr.wf (i : Instr) : Bool := i.fields.wf

/-- Put three fields into a word: the pattern string of R62, bit 31 on the left. -/
def wordOf (f : CommandFields) : Word := f.reserved ++ BitVec.ofBool f.r ++ f.opcode

/-- The command word of a command. -/
def encode (i : Instr) : Word := wordOf i.fields

/-- The decoder's answer on a word of the opcode table, `nbits` bits of it given (every table row has 32). A word that does
not fit in `nbits` bits, or is longer than the one command word (R63), is none. -/
def decodeTableWord (nbits w : Nat) : Option Instr :=
  if nbits ≤ 32 ∧ w < 2 ^ nbits then decode? (BitVec.ofNat 32 w) else none

end Sys2Proof
end

