-- ==== Sys2Proof/Machine/Memory.lean ====
section
/-! DEFINITION. The data memory (20_memory.md R43 to R48) as a list of (address, byte) pairs in one canonical form:
addresses strictly rising, no entry equal to what an unlisted address reads as. Every access is one byte (R48); wider
transfers are byte lists in address order (R44, R45). -/

namespace Sys2Proof.Machine

/-- The data memory's listed bytes. -/
abbrev Memory := List Host.Cell

/-- What an address that nothing has written reads as. The spec leaves the power-on content open (R46); zero is the start
memory of the programs of 95_test_vectors.md section 3. DESIGN CHOICE, unsafe (assumption log 3). -/
def Memory.blank : Byte := 0

/-- The byte at an address. -/
def Memory.read : Memory → Nat → Byte
  | [], _ => Memory.blank
  | (k, v) :: m, a => if k = a then v else Memory.read m a

/-- Remove an address from the list, so that it reads as blank. -/
def Memory.erase : Memory → Nat → Memory
  | [], _ => []
  | (k, v) :: m, a => if k = a then m else if a < k then (k, v) :: m else (k, v) :: Memory.erase m a

/-- List a byte at an address, keeping the addresses rising. -/
def Memory.insert : Memory → Nat → Byte → Memory
  | [], a, b => [(a, b)]
  | (k, v) :: m, a, b =>
    if k = a then (a, b) :: m else if a < k then (a, b) :: (k, v) :: m else (k, v) :: Memory.insert m a b

/-- Write one byte. -/
def Memory.write (m : Memory) (a : Nat) (b : Byte) : Memory :=
  if b = Memory.blank then Memory.erase m a else Memory.insert m a b

/-- `MemRead(addr, n)` of R44: the n bytes from an address, in address order. -/
def Memory.readBytes (m : Memory) (a n : Nat) : Bytes := (List.range n).map fun k => m.read (a + k)

/-- `MemWrite(addr, n, v)` of R45: write a byte list from an address, in address order. -/
def Memory.writeBytes : Memory → Nat → Bytes → Memory
  | m, _, [] => m
  | m, a, b :: bs => Memory.writeBytes (m.write a b) (a + 1) bs

/-- The canonical form: addresses strictly rising, no blank entry. -/
def Memory.wf (m : Memory) : Bool :=
  decide (m.Pairwise fun c d => c.1 < d.1) && m.all fun c => c.2 != Memory.blank

/-- Every listed address exists (R43). -/
def Memory.within (m : Memory) (size : Nat) : Bool := m.all fun c => decide (c.1 < size)

end Sys2Proof.Machine

namespace Sys2Proof

/-- MEM_SIZE = MEM_LAST + 1 (R10, R29). -/
def Params.memSize (p : Params) : Nat := p.memLast.toNat + 1

/-- Two ranges `[a, a + n)` and `[base, base + size)` share an address. -/
def Region.meets (r : Region) (a n : Nat) : Bool :=
  decide (0 < n) && decide (0 < r.size) && decide (r.base < a + n) && decide (a < r.base + r.size)

/-- The instance `State.reset` stands for: MEM_SIZE = 0x10000 and MAX_LEN = 0x1000 are those of 95_test_vectors.md
section 3, the window stands just above the data memory, and all of the data memory is ordinary. DESIGN CHOICE
(assumption log 1, 2 and 8): the spec leaves the parameters open (R10). -/
def Params.resetInstance : Params where
  maxLen  := 0x1000
  memLast := 0xFFFF
  csrBase := 0x10000
  devices := []

end Sys2Proof
end

