-- ==== Sys2Proof/Machine/State.lean ====
section
/-! DEFINITION. The machine's state as plain data (10_state.md): the phase, the CSRs that store something, the three unit
tables, the data memory, the instance's parameters, and what the model adds to hold the host's side (the bus events still
to come, the value the host last read, the free-byte counter). Reset values: R42. -/

namespace Sys2Proof.Machine

/-- The engine phase of R19. -/
inductive Phase where
  /-- No command in flight. -/
  | idle
  /-- The command word being executed. -/
  | busy (w : Word)
deriving DecidableEq, Repr

/-- A node of tbl.TREE (R38). Children are creation indexes. -/
inductive TreeNode where
  | leaf (byte : Byte) (freq : Word)
  | internal (left right : Nat) (freq : Word)
deriving DecidableEq, Repr

/-- The size of a host access to the CSR window (R31). -/
inductive AccessSize where
  | byte
  | half
  | word
deriving DecidableEq, Repr

/-- What happens next on the engine's pins, one event a step: the host's accesses (R31 to R35, R43), the platform's reset
(R128), or the engine's turn, at which a command in flight takes its completion step (R131). -/
inductive BusEvent where
  /-- The host writes the CSR window's bus at an address. -/
  | csrWrite (addr : Nat) (size : AccessSize) (v : Word)
  /-- The host reads the CSR window's bus at an address. -/
  | csrRead (addr : Nat) (size : AccessSize)
  /-- A byte of data memory is written by the host (or another agent, R125). -/
  | memWrite (addr : Nat) (b : Byte)
  /-- A byte of data memory is read by the host. -/
  | memRead (addr : Nat)
  /-- Reset is asserted. -/
  | reset
  /-- The engine moves. -/
  | engineTurn
deriving DecidableEq, Repr

/-- Why the machine stops. All are broken host-program or platform rules, never a failing command (a failing command is a
next state, R115). All are safe: the model stops where the spec defines no later state. -/
inductive Fault where
  /-- Raised by a memory write of the host into the source range of a command in flight (R133; 93 item 1.3). Safe. -/
  | hostWroteSourceWhileBusy
  /-- Raised by a memory read or write of the host in the destination range of a command in flight (R133; 93 item 1.3).
  Safe. -/
  | hostTouchedDestinationWhileBusy
  /-- Raised by a memory access of the host at an address at or beyond MEM_SIZE, which does not exist (R43). Safe. -/
  | noSuchAddress
  /-- Raised when a command uses, or the host accesses, a data-memory range that is not ordinary memory (R53; 93 item 1.4).
  Safe. -/
  | notOrdinaryMemory
  /-- Raised by GEN_CODES over a node store that R38 rules out, in states no run from reset reaches (assumption log 12).
  Safe. -/
  | malformedTree
deriving DecidableEq, Repr

/-- Why the model has no meaning for an instruction. -/
inductive Refusal where
  /-- Raised by `exec` for an instruction that is not modelled. No arm raises it in this model. Safe. -/
  | notModelled (mnemonic : String)
deriving DecidableEq, Repr

/-- The machine's state. -/
structure State where
  /-- The instance: MAX_LEN, MEM_LAST, CSR_BASE, the ranges that are not ordinary memory (R10, R29, R53). -/
  params    : Params
  /-- The phase (R19). -/
  phase     : Phase
  /-- CMD (R23). -/
  cmd       : Word
  /-- STATUS (R24). -/
  status    : Word
  /-- SRC_ADDR (R25). -/
  srcAddr   : Word
  /-- SRC_LEN (R25). -/
  srcLen    : Word
  /-- DST_ADDR (R26). -/
  dstAddr   : Word
  /-- DST_CAP (R26). -/
  dstCap    : Word
  /-- OUT_LEN (R27). -/
  outLen    : Word
  /-- AUX (R28). -/
  aux       : Word
  /-- tbl.FREQ (R37). -/
  freq      : Vector Word 256
  /-- tbl.TREE (R38): the node store in creation order; K is its length and the root its last node. -/
  tree      : List TreeNode
  /-- tbl.CODE_TABLE (R39). -/
  codeTable : CodeTable
  /-- The data memory (R43). -/
  mem       : Memory
  /-- The model's own: the events still to come, oldest first (assumption log 4). -/
  inbox     : List BusEvent
  /-- The model's own: what the host's last read returned (R32, assumption log 11). -/
  readData  : Word
  /-- The model's own: how many free bytes have been used (R129, assumption log 6). -/
  freeNext  : Nat
deriving DecidableEq, Repr

/-- The machine right after reset (R42, R128), of the instance `Params.resetInstance`. -/
def State.reset : State where
  params    := Params.resetInstance
  phase     := .idle
  cmd       := 0
  status    := 0
  srcAddr   := 0
  srcLen    := 0
  dstAddr   := 0
  dstCap    := 0
  outLen    := 0
  aux       := 0
  freq      := Vector.replicate 256 0
  tree      := []
  codeTable := []
  mem       := []
  inbox     := []
  readData  := 0
  freeNext  := 0

end Sys2Proof.Machine
end

