-- ==== Sys2Proof/Machine/Flags.lean ====
section
/-! DEFINITION. The STATUS register's fields and the values the engine writes to it (10_state.md R24, R34, R41;
30_encoding.md R69), and the error kinds with their codes (60_exceptions.md R112). The hardware has no other flags (R41). -/

namespace Sys2Proof.Machine

/-- The error kinds of R112. -/
inductive ErrKind where
  | corruptTable
  | corruptPayload
  | unrepresentableCode
  | corruptRle
  | illegalCommand
  | badRange
  | dstOverflow
  | symbolNotInTable
deriving DecidableEq, Repr

/-- `code(kind)` of R112. NONE is code 0; codes 9 to 15 are never written. -/
def ErrKind.code : ErrKind → BitVec 4
  | .corruptTable        => 1
  | .corruptPayload      => 2
  | .unrepresentableCode => 3
  | .corruptRle          => 4
  | .illegalCommand      => 5
  | .badRange            => 6
  | .dstOverflow         => 7
  | .symbolNotInTable    => 8

/-- STATUS on acceptance of a word with OPCODE `op` (R34): BUSY, everything else clear, LAST_OP. -/
def statusBusy (op : Byte) : Word := (op.setWidth 32 <<< 16) ||| 1

/-- STATUS after a success (R69): DONE, RLE_USED, LAST_OP. -/
def statusDone (op : Byte) (used : Bool) : Word :=
  (op.setWidth 32 <<< 16) ||| ((BitVec.ofBool used).setWidth 32 <<< 3) ||| 0x2

/-- STATUS after a failure (R69, R115): DONE, ERR, ERR_CODE, LAST_OP. -/
def statusFail (op : Byte) (k : ErrKind) : Word :=
  (op.setWidth 32 <<< 16) ||| (k.code.setWidth 32 <<< 8) ||| 0x6

/-- LAST_OP of a command word: its bits 7:0, legal or not (R24). -/
def lastOpOf (w : Word) : Byte := w.extractLsb' 0 8

/-- STATUS.BUSY, bit 0 (R24). -/
def State.busyBit (s : State) : Bool := s.status.getLsbD 0

/-- STATUS.DONE, bit 1. -/
def State.doneBit (s : State) : Bool := s.status.getLsbD 1

/-- STATUS.ERR, bit 2. -/
def State.errBit (s : State) : Bool := s.status.getLsbD 2

/-- STATUS.RLE_USED, bit 3. -/
def State.rleUsed (s : State) : Bool := s.status.getLsbD 3

/-- STATUS.ERR_CODE, bits 11:8. -/
def State.errCode (s : State) : BitVec 4 := s.status.extractLsb' 8 4

/-- STATUS.LAST_OP, bits 23:16. -/
def State.lastOp (s : State) : Byte := s.status.extractLsb' 16 8

end Sys2Proof.Machine
end

