-- ==== Sys2Proof/Machine/Operands.lean ====
section
/-! DEFINITION. The operands of a command: its source and destination ranges (30_encoding.md R64, R66), the range check
(R70), the source bytes (R69 step 3), and which addresses a command in flight holds (70_reset_and_hazards.md R133). Sums are
taken on mathematical integers (20_memory.md R47). -/

namespace Sys2Proof.Machine

/-- The "src" column of R66. -/
def readsSource : Instr → Bool
  | .encode | .decode _ | .rleEnc | .rleDec | .freq | .deserialize | .pack | .unpack => true
  | .buildTree | .genCodes | .serialize | .buildTrie => false

/-- The "dst" column of R66. -/
def writesDest : Instr → Bool
  | .encode | .decode _ | .rleEnc | .rleDec | .serialize | .pack | .unpack => true
  | .freq | .buildTree | .genCodes | .deserialize | .buildTrie => false

/-- R70 (a) and (b) for one range: the length passes MAX_LEN or the range leaves the data memory. -/
def outOfRange (p : Params) (addr len : Word) : Bool :=
  decide (p.maxLen.toNat < len.toNat) || decide (p.memSize < addr.toNat + len.toNat)

/-- `RangeCheck` of R70: only the ranges the command uses are checked. -/
def badRange (i : Instr) (s : State) : Bool :=
  (readsSource i && outOfRange s.params s.srcAddr s.srcLen) ||
  (writesDest i && outOfRange s.params s.dstAddr s.dstCap)

/-- A range meets memory that is not ordinary (R53). -/
def meetsDevice (p : Params) (addr len : Nat) : Bool := p.devices.any fun r => r.meets addr len

/-- A range the command uses holds memory that is not ordinary (R53, R133's ranges). -/
def usesDevice (i : Instr) (s : State) : Bool :=
  (readsSource i && meetsDevice s.params s.srcAddr.toNat s.srcLen.toNat) ||
  (writesDest i && meetsDevice s.params s.dstAddr.toNat s.dstCap.toNat)

/-- R69 step 3: the source bytes, or the empty list for a command that reads no source. -/
def sourceBytes (i : Instr) (s : State) : Bytes :=
  if readsSource i then s.mem.readBytes s.srcAddr.toNat s.srcLen.toNat else []

/-- An address lies in `[base, base + len)`, without wrap (R47). -/
def inRange (base len : Word) (a : Nat) : Bool :=
  decide (base.toNat ≤ a) && decide (a < base.toNat + len.toNat)

/-- The address is in the source range of the command in flight (R133). An illegal word reads no source. -/
def holdsAsSource (s : State) (a : Nat) : Bool :=
  match s.phase with
  | .idle => false
  | .busy w =>
    match decode? w with
    | none => false
    | some i => readsSource i && inRange s.srcAddr s.srcLen a

/-- The address is in the destination range of the command in flight (R133). An illegal word writes no destination. -/
def holdsAsDest (s : State) (a : Nat) : Bool :=
  match s.phase with
  | .idle => false
  | .busy w =>
    match decode? w with
    | none => false
    | some i => writesDest i && inRange s.dstAddr s.dstCap a

end Sys2Proof.Machine
end

