-- ==== Sys2Proof/Machine/Ops.lean ====
section
/-! DEFINITION. The named operations over the state that the meanings share: accepting a command (10_state.md R34), failing
it (the trap-entry analogue, 60_exceptions.md R115), committing it (30_encoding.md R69, R72), the framework that runs a
command's body (R69 to R72), and reset (70_reset_and_hazards.md R128, R129). An error stays until the next acceptance or
reset: there is no return operation (R117). -/

namespace Sys2Proof.Machine

/-- A host write of `w` to CMD in phase IDLE, one indivisible step (R34). -/
def acceptCommand (w : Word) (s : State) : State :=
  { s with
    cmd    := w
    status := statusBusy (lastOpOf w)
    outLen := 0
    aux    := 0
    phase  := .busy w }

/-- Taking an error: the Fail branch of R69, written out in R115. Nothing else changes. -/
def failCommand (op : Byte) (k : ErrKind) (s : State) : State :=
  { s with
    outLen := 0
    aux    := 0
    status := statusFail op k
    phase  := .idle }

/-- What a command's body returns (R69 step 4): output, AUX, the `used` flag, and the three tables. -/
structure Result where
  out       : Bytes
  aux       : Nat
  used      : Bool
  freq      : Vector Word 256
  tree      : List TreeNode
  codeTable : CodeTable
deriving DecidableEq, Repr

/-- A result that leaves the three tables as they are. -/
def resultOf (s : State) (out : Bytes) (aux : Nat) (used : Bool) : Result :=
  { out := out, aux := aux, used := used, freq := s.freq, tree := s.tree, codeTable := s.codeTable }

/-- The commit: the Ok branch of R69, all at once (R72). -/
def commitCommand (op : Byte) (r : Result) (s : State) : State :=
  { s with
    mem       := s.mem.writeBytes s.dstAddr.toNat r.out
    freq      := r.freq
    tree      := r.tree
    codeTable := r.codeTable
    outLen    := BitVec.ofNat 32 r.out.length
    aux       := BitVec.ofNat 32 r.aux
    status    := statusDone op r.used
    phase     := .idle }

/-- The completion step of a legal command `i` (R69): range check (R70), the source bytes, the body, the overflow check on
the final output (R71), then commit or fail. A used range that is not ordinary memory stops the machine (R53). -/
def completeCommand (i : Instr) (body : Bytes → Except ErrKind Result) (s : State) :
    Host.Outcome State Fault Refusal :=
  if badRange i s then .next (failCommand i.opcode .badRange s)
  else if usesDevice i s then .fault .notOrdinaryMemory
  else
    match body (sourceBytes i s) with
    | .error k => .next (failCommand i.opcode k s)
    | .ok r =>
      if writesDest i && decide (s.dstCap.toNat < r.out.length) then .next (failCommand i.opcode .dstOverflow s)
      else .next (commitCommand i.opcode r s)

/-- How many destination bytes a reset leaves unspecified (R129): `min(DST_CAP, MEM_SIZE - DST_ADDR)` for a command in
flight that writes a destination, else none. -/
def abandonedLength (s : State) : Nat :=
  match s.phase with
  | .idle => 0
  | .busy w =>
    match decode? w with
    | none => 0
    | some i => if writesDest i then min s.dstCap.toNat (s.params.memSize - s.dstAddr.toNat) else 0

/-- The free bytes a reset while BUSY leaves in the destination range (R129). -/
def abandonedBytes (s : State) : Bytes :=
  (List.range (abandonedLength s)).map fun k => Config.freeByte (s.freeNext + k)

/-- Reset of the engine as one step (R128, R129): IDLE, every CSR and table at its reset value (R42), data memory unchanged
but for the destination range of an abandoned command. The instance and the rest of the world are not the engine's. -/
def resetEngine (s : State) : State :=
  { s with
    phase     := .idle
    cmd       := 0
    status    := 0
    srcAddr   := 0
    srcLen    := 0
    dstAddr   := 0
    dstCap    := 0
    outLen    := 0
    aux       := 0
    freq      := Vector.replicate 256 0
    tree      := []
    codeTable := []
    mem       := s.mem.writeBytes s.dstAddr.toNat (abandonedBytes s)
    freeNext  := s.freeNext + abandonedLength s }

/-- The command in flight, if legal and with its ranges in bounds (R70), uses memory that is not ordinary (R53). -/
def inFlightUsesDevice (s : State) : Bool :=
  match s.phase with
  | .idle => false
  | .busy w =>
    match decode? w with
    | none => false
    | some i => !badRange i s && usesDevice i s

end Sys2Proof.Machine
end

