-- ==== Sys2Proof/Machine/TableBlob.lean ====
section
/-! DEFINITION. The code table: its lookup and invariant (10_state.md R39), the table blob (42_code_table.md R92), its
serializer and deserializer (R93, R94), and the commands SERIALIZE (R96) and DESERIALIZE (R97). -/

namespace Sys2Proof.Machine

/-- `lookup(ct, b)` of R39. -/
def lookup : CodeTable → Byte → Option Bits
  | [], _ => none
  | (k, c) :: ct, b => if k = b then some c else lookup ct b

/-- R39: no two entries have the same byte (so there are at most 256), and every code has 1 to 255 bits. -/
def codeTableWf (ct : CodeTable) : Bool :=
  decide (ct.map Prod.fst).Nodup && ct.all fun e => decide (1 ≤ e.2.length) && decide (e.2.length ≤ 255)

/-- The entries section of R92 and R93, in table order. -/
def entriesSection : CodeTable → Except ErrKind Bytes
  | [] => .ok []
  | (b, c) :: ct =>
    if 255 < c.length then .error .unrepresentableCode
    else
      match entriesSection ct with
      | .error k => .error k
      | .ok rest => .ok (b :: BitVec.ofNat 8 c.length :: c.map chr ++ rest)

/-- `SerializeFn` of R93. -/
def serialize (ct : CodeTable) : Except ErrKind Bytes :=
  match entriesSection ct with
  | .error k => .error k
  | .ok e => .ok (be32 e.length ++ e)

/-- The entry loop of R94 over the bytes of the section not yet read, with the table read so far. Each entry takes at least
three bytes, so the section's length is fuel enough and the second branch is never met. -/
def parseEntries : Nat → Bytes → CodeTable → Except ErrKind CodeTable
  | _, [], ct => .ok ct
  | 0, _ :: _, _ => .error .corruptTable
  | _ + 1, [_], _ => .error .corruptTable
  | fuel + 1, b :: n :: rest, ct =>
    if n = 0 then .error .corruptTable
    else if rest.length < n.toNat then .error .corruptTable
    else if !(rest.take n.toNat).all isCodeChar then .error .corruptTable
    else if (lookup ct b).isSome then .error .corruptTable
    else parseEntries fuel (rest.drop n.toNat) (ct ++ [(b, (rest.take n.toNat).map bitOfChr)])

/-- `DeserializeFn` of R94: the table and the offset of the first byte after the blob. No byte past the declared section,
and none past the end of the list, is looked at. -/
def deserialize : Bytes → Except ErrKind (CodeTable × Nat)
  | [] => .ok ([], 0)
  | b3 :: b2 :: b1 :: b0 :: rest =>
    let len := be32Value b3 b2 b1 b0
    if rest.length < len then .error .corruptTable
    else
      match parseEntries len (rest.take len) [] with
      | .error k => .error k
      | .ok ct => .ok (ct, 4 + len)
  | _ => .error .corruptTable

/-- The body of SERIALIZE (R96). -/
def serializeBody (s : State) : Except ErrKind Result :=
  match serialize s.codeTable with
  | .error k => .error k
  | .ok out => .ok (resultOf s out s.codeTable.length false)

/-- The body of DESERIALIZE (R97). -/
def deserializeBody (s : State) (src : Bytes) : Except ErrKind Result :=
  match deserialize src with
  | .error k => .error k
  | .ok (ct, off) => .ok { resultOf s [] off false with codeTable := ct }

/-- SERIALIZE (R96). -/
def execSerialize (s : State) : Host.Outcome State Fault Refusal :=
  completeCommand .serialize (fun _ => serializeBody s) s

/-- DESERIALIZE (R97). -/
def execDeserialize (s : State) : Host.Outcome State Fault Refusal :=
  completeCommand .deserialize (deserializeBody s) s

end Sys2Proof.Machine
end

