-- ==== Sys2Proof/Machine/Bitstream.lean ====
section
/-! DEFINITION. The bitstream packer, the trie rebuilder and the unpacker (43_bitstream.md R98 to R101), and the commands PACK
(R102), BUILD_TRIE (R103) and UNPACK (R104). The trie is held as a tree of nodes and not as an indexed store: its
organisation is not architectural and only its node count is observed (10_state.md R40, assumption log 18). -/

namespace Sys2Proof.Machine

/-- The concatenated codes of the input bytes, in order; the first byte without a code raises (R99, D23). -/
def codeBits (ct : CodeTable) : Bytes → Except ErrKind Bits
  | [] => .ok []
  | b :: bs =>
    match lookup ct b with
    | none => .error .symbolNotInTable
    | some c =>
      match codeBits ct bs with
      | .error k => .error k
      | .ok rest => .ok (c ++ rest)

/-- The payload of a bit sequence (R98): the padding count, then the bits and the padding, packed. -/
def payloadOf (bits : Bits) : Bytes :=
  BitVec.ofNat 8 (padCount bits.length) :: bitsToBytes (bits ++ List.replicate (padCount bits.length) false)

/-- `PackFn` of R99. -/
def pack (d : Bytes) (ct : CodeTable) : Except ErrKind (Bytes × Nat) :=
  match codeBits ct d with
  | .error k => .error k
  | .ok bits => .ok (payloadOf bits, bits.length)

/-- A trie position: no node, or a node with its mark and its two edges (R100). -/
inductive Trie where
  | absent
  | node (mark : Option Byte) (zero one : Trie)
deriving DecidableEq, Repr

/-- A node without children and without a mark. -/
def Trie.fresh : Trie := .node none .absent .absent

/-- The child along a bit: 0 is the left edge, 1 the right edge (R101). -/
def Trie.child : Trie → Bool → Trie
  | .absent, _ => .absent
  | .node _ z _, false => z
  | .node _ _ o, true => o

/-- The mark of a node. -/
def Trie.mark : Trie → Option Byte
  | .absent => none
  | .node m _ _ => m

/-- The number of nodes, the root included (N of R100). -/
def Trie.size : Trie → Nat
  | .absent => 0
  | .node _ z o => 1 + z.size + o.size

/-- Insert the rest of a code's path below a node, creating nodes on demand (R100). A mark on the way means an earlier code
is a proper prefix of this one; a mark or a child at the end means this one equals, or is a proper prefix of, an earlier
one (D20). -/
def Trie.insert : Trie → Bits → Byte → Except ErrKind Trie
  | .absent, [], b => .ok (.node (some b) .absent .absent)
  | .absent, false :: cs, b =>
    match Trie.insert .absent cs b with
    | .error k => .error k
    | .ok t => .ok (.node none t .absent)
  | .absent, true :: cs, b =>
    match Trie.insert .absent cs b with
    | .error k => .error k
    | .ok t => .ok (.node none .absent t)
  | .node m z o, [], b =>
    if m = none ∧ z = .absent ∧ o = .absent then .ok (.node (some b) .absent .absent) else .error .corruptTable
  | .node m z o, false :: cs, b =>
    if m ≠ none then .error .corruptTable
    else
      match Trie.insert z cs b with
      | .error k => .error k
      | .ok t => .ok (.node m t o)
  | .node m z o, true :: cs, b =>
    if m ≠ none then .error .corruptTable
    else
      match Trie.insert o cs b with
      | .error k => .error k
      | .ok t => .ok (.node m z t)

/-- Insert the entries of a table in order; an empty code is corrupt (R100, D20). -/
def insertAll : Trie → CodeTable → Except ErrKind Trie
  | t, [] => .ok t
  | t, (b, c) :: ct =>
    if c = [] then .error .corruptTable
    else
      match t.insert c b with
      | .error k => .error k
      | .ok t' => insertAll t' ct

/-- `BuildTrieFn` of R100. -/
def buildTrie (ct : CodeTable) : Except ErrKind Trie := insertAll Trie.fresh ct

/-- The walk of R101 over the data bits from a node; `away` says that the node is not the root (`n ≠ 0`). A bit without an
edge, and a walk that ends away from the root, are corrupt (C1, D21). -/
def walkBits (root : Trie) : Trie → Bool → Bits → Except ErrKind Bytes
  | _, away, [] => if away then .error .corruptPayload else .ok []
  | t, _, bit :: bits =>
    match t.child bit with
    | .absent => .error .corruptPayload
    | .node none z o => walkBits root (.node none z o) true bits
    | .node (some b) _ _ =>
      match walkBits root root false bits with
      | .error k => .error k
      | .ok out => .ok (b :: out)

/-- The payload checks of R101 after the trie is built: the padding range, the dropped bits, the walk (D22). -/
def unpackBits (t : Trie) (padByte : Byte) (bits : Bits) : Except ErrKind (Bytes × Nat) :=
  if 7 < padByte.toNat then .error .corruptPayload
  else if bits.length < padByte.toNat then .error .corruptPayload
  else
    match walkBits t t false (bits.take (bits.length - padByte.toNat)) with
    | .error k => .error k
    | .ok out => .ok (out, bits.length - padByte.toNat)

/-- `UnpackFn` of R101. An empty payload or an empty table gives empty output (C7). -/
def unpack (p : Bytes) (ct : CodeTable) : Except ErrKind (Bytes × Nat) :=
  match p with
  | [] => .ok ([], 0)
  | padByte :: packed =>
    if ct = [] then .ok ([], 0)
    else
      match buildTrie ct with
      | .error k => .error k
      | .ok t => unpackBits t padByte (bytesToBits packed)

/-- The body of PACK (R102). -/
def packBody (s : State) (src : Bytes) : Except ErrKind Result :=
  match pack src s.codeTable with
  | .error k => .error k
  | .ok (out, nb) => .ok (resultOf s out nb false)

/-- The body of BUILD_TRIE (R103). -/
def buildTrieBody (s : State) : Except ErrKind Result :=
  match buildTrie s.codeTable with
  | .error k => .error k
  | .ok t => .ok (resultOf s [] t.size false)

/-- The body of UNPACK (R104). -/
def unpackBody (s : State) (src : Bytes) : Except ErrKind Result :=
  match unpack src s.codeTable with
  | .error k => .error k
  | .ok (out, nbits) => .ok (resultOf s out nbits false)

/-- PACK (R102). -/
def execPack (s : State) : Host.Outcome State Fault Refusal := completeCommand .pack (packBody s) s

/-- BUILD_TRIE (R103). -/
def execBuildTrie (s : State) : Host.Outcome State Fault Refusal :=
  completeCommand .buildTrie (fun _ => buildTrieBody s) s

/-- UNPACK (R104). -/
def execUnpack (s : State) : Host.Outcome State Fault Refusal := completeCommand .unpack (unpackBody s) s

end Sys2Proof.Machine
end

