-- ==== Sys2Proof/Machine/Huffman.lean ====
section
/-! DEFINITION. The frequency analyzer, the tree builder and the code generator (41_huffman_encoder.md R83 to R88), the
invariant of the node store (10_state.md R38), and the commands FREQ (R89), BUILD_TREE (R90) and GEN_CODES (R91). -/

namespace Sys2Proof.Machine

/-! ### Frequency analyzer (R83) -/

/-- Count one more occurrence of a byte. -/
def bumpCount (f : Vector Word 256) (b : Byte) : Vector Word 256 := f.set b.toNat (f[b.toNat] + 1)

/-- `AnalyzeFn` of R83. -/
def analyze (d : Bytes) : Vector Word 256 := d.foldl bumpCount (Vector.replicate 256 0)

/-- The count of a byte value in a frequency table (R37). -/
def countOf (f : Vector Word 256) (b : Byte) : Word := f[b.toNat]

/-- `#{b : F[b] > 0}` of R89. -/
def distinctCount (f : Vector Word 256) : Nat := f.toList.countP fun c => c != 0

/-! ### Tree builder (R84) -/

/-- The key of a node: its frequency and its creation index. -/
structure NodeKey where
  freq  : Word
  index : Nat
deriving DecidableEq, Repr

/-- The lexicographic order of keys (R84). -/
def NodeKey.less (x y : NodeKey) : Bool :=
  decide (x.freq.toNat < y.freq.toNat) || (decide (x.freq = y.freq) && decide (x.index < y.index))

/-- The smallest key among `k` and a list of keys. -/
def smallestKey (k : NodeKey) : List NodeKey → NodeKey
  | [] => k
  | x :: xs => smallestKey (if x.less k then x else k) xs

/-- The leaves of R84, in ascending byte value: one for each byte that occurs (C6, D14). -/
def leavesOf (f : Vector Word 256) : List TreeNode :=
  f.toList.zipIdx.filterMap fun (c, b) => if c = 0 then none else some (.leaf (BitVec.ofNat 8 b) c)

/-- A node's frequency (R38). -/
def TreeNode.freq : TreeNode → Word
  | .leaf _ f => f
  | .internal _ _ f => f

/-- The keys of the nodes of a store, in creation order. -/
def keysOf (nodes : List TreeNode) : List NodeKey := nodes.zipIdx.map fun (n, i) => ⟨n.freq, i⟩

/-- The merge loop of R84: while two keys are live, take the smallest `a`, then the smallest `c`, and create their parent,
with `a` on the left, at the end of the store. Each round leaves one key fewer, so the number of live keys is fuel enough. -/
def mergeLoop : Nat → List TreeNode → List NodeKey → List TreeNode
  | fuel + 1, nodes, x :: y :: rest =>
    let a := smallestKey x (y :: rest)
    match (x :: y :: rest).erase a with
    | [] => nodes
    | z :: zs =>
      let c := smallestKey z zs
      mergeLoop fuel (nodes ++ [.internal a.index c.index (a.freq + c.freq)])
        ((z :: zs).erase c ++ [⟨a.freq + c.freq, nodes.length⟩])
  | _, nodes, _ => nodes

/-- `BuildTreeFn` of R84: the node store; K is its length, and the root its last node. -/
def buildTree (f : Vector Word 256) : List TreeNode :=
  mergeLoop (leavesOf f).length (leavesOf f) (keysOf (leavesOf f))

/-! ### The node store's invariant (R38) -/

/-- The children of the internal nodes, in creation order. -/
def childrenOf : List TreeNode → List Nat
  | [] => []
  | .leaf _ _ :: ns => childrenOf ns
  | .internal l r _ :: ns => l :: r :: childrenOf ns

/-- The byte values of the leaves, in creation order. -/
def leafBytes : List TreeNode → List Byte
  | [] => []
  | .leaf b _ :: ns => b :: leafBytes ns
  | .internal _ _ _ :: ns => leafBytes ns

/-- A node fits its place in the store: an internal node's children come before it and its frequency is their sum. -/
def nodeFits (nodes : List TreeNode) (i : Nat) : TreeNode → Bool
  | .leaf _ _ => true
  | .internal l r f =>
    match nodes[l]?, nodes[r]? with
    | some x, some y => decide (l < i) && decide (r < i) && decide (f = x.freq + y.freq)
    | _, _ => false

/-- R38: K is 0 or odd and at most 511; every node fits; every node but the root is the child of exactly one internal node;
no two leaves hold the same byte (R84's one leaf per entry). -/
def treeWf (nodes : List TreeNode) : Bool :=
  (nodes.isEmpty || (decide (nodes.length % 2 = 1) && decide (nodes.length ≤ 511))) &&
  (nodes.zipIdx.all fun (n, i) => nodeFits nodes i n) &&
  decide (childrenOf nodes).Nodup &&
  ((List.range (nodes.length - 1)).all fun j => (childrenOf nodes).contains j) &&
  decide (leafBytes nodes).Nodup

/-! ### Code generator (R86) -/

/-- `Walk(i, p)` of R86, the left subtree before the right. A child's index is below its parent's (R38), so `i + 1` is fuel
enough; the other two branches are met in no store that `treeWf` accepts. -/
def walk (nodes : List TreeNode) : Nat → Nat → Bits → CodeTable
  | 0, _, _ => []
  | fuel + 1, i, p =>
    match nodes[i]? with
    | none => []
    | some (.leaf b _) => [(b, p)]
    | some (.internal l r _) => walk nodes fuel l (p ++ [false]) ++ walk nodes fuel r (p ++ [true])

/-- `GenCodesFn` of R86. The length check is the document's and cannot fire (R87, C4). -/
def genCodes (nodes : List TreeNode) : Except ErrKind CodeTable :=
  match nodes.getLast? with
  | none => .ok []
  | some (.leaf b _) => .ok [(b, [false])]
  | some (.internal _ _ _) =>
    let ct := walk nodes nodes.length (nodes.length - 1) []
    if ct.any fun e => decide (255 < e.2.length) then .error .unrepresentableCode else .ok ct

/-! ### Commands -/

/-- The body of FREQ (R89). -/
def freqBody (s : State) (src : Bytes) : Except ErrKind Result :=
  .ok { resultOf s [] (distinctCount (analyze src)) false with freq := analyze src }

/-- The body of BUILD_TREE (R90). -/
def buildTreeBody (s : State) : Except ErrKind Result :=
  .ok { resultOf s [] (buildTree s.freq).length false with tree := buildTree s.freq }

/-- The body of GEN_CODES (R91). -/
def genCodesBody (s : State) : Except ErrKind Result :=
  match genCodes s.tree with
  | .error k => .error k
  | .ok ct => .ok { resultOf s [] ct.length false with codeTable := ct }

/-- FREQ (R89). -/
def execFreq (s : State) : Host.Outcome State Fault Refusal := completeCommand .freq (freqBody s) s

/-- BUILD_TREE (R90). -/
def execBuildTree (s : State) : Host.Outcome State Fault Refusal :=
  completeCommand .buildTree (fun _ => buildTreeBody s) s

/-- GEN_CODES (R91). A store that R38 rules out has no codes in the spec and stops the machine (assumption log 12). -/
def execGenCodes (s : State) : Host.Outcome State Fault Refusal :=
  if treeWf s.tree then completeCommand .genCodes (fun _ => genCodesBody s) s else .fault .malformedTree

end Sys2Proof.Machine
end

