-- ==== Sys2Proof/Machine/Rle.lean ====
section
/-! DEFINITION. The run-length codec: its functions (40_rle.md R78 to R80) and the commands RLE_ENC (R81) and RLE_DEC
(R82). -/

namespace Sys2Proof.Machine

/-- The run encoding of a run of byte `b`, `n` bytes long so far, followed by the rest of the input: the run grows while the
next byte equals `b` and `n` is below 255 (R78, R79). -/
def runsFrom (b : Byte) (n : Nat) : Bytes → Bytes
  | [] => [b, BitVec.ofNat 8 n]
  | c :: cs => if c = b ∧ n < 255 then runsFrom b (n + 1) cs else b :: BitVec.ofNat 8 n :: runsFrom c 1 cs

/-- The run encoding of a buffer, `e` of R79. -/
def runEncoding : Bytes → Bytes
  | [] => []
  | b :: bs => runsFrom b 1 bs

/-- What `RleEncodeFn` returns (R79). -/
structure RleResult where
  out   : Bytes
  used  : Bool
  naive : Nat
deriving DecidableEq, Repr

/-- `RleEncodeFn` of R79; empty input gives `used = 0` (C3, D16). -/
def rleEncode (d : Bytes) : RleResult :=
  if d = [] then ⟨[], false, 0⟩
  else if d.length < (runEncoding d).length then ⟨d, false, (runEncoding d).length⟩
  else ⟨runEncoding d, true, (runEncoding d).length⟩

/-- The pairs of an even-length buffer, expanded in order; a run length of 0 is corrupt (R80). -/
def expandPairs : Bytes → Except ErrKind Bytes
  | b :: n :: rest =>
    if n = 0 then .error .corruptRle
    else
      match expandPairs rest with
      | .error k => .error k
      | .ok out => .ok (List.replicate n.toNat b ++ out)
  | _ => .ok []

/-- `RleDecodeFn` of R80: the odd-length check is made on the whole buffer first. -/
def rleDecode (e : Bytes) : Except ErrKind Bytes :=
  if e.length % 2 = 1 then .error .corruptRle else expandPairs e

/-- The body of RLE_ENC (R81). -/
def rleEncBody (s : State) (src : Bytes) : Except ErrKind Result :=
  .ok (resultOf s (rleEncode src).out (rleEncode src).naive (rleEncode src).used)

/-- The body of RLE_DEC (R82). -/
def rleDecBody (s : State) (src : Bytes) : Except ErrKind Result :=
  match rleDecode src with
  | .error k => .error k
  | .ok out => .ok (resultOf s out (src.length / 2) false)

/-- RLE_ENC (R81). -/
def execRleEnc (s : State) : Host.Outcome State Fault Refusal := completeCommand .rleEnc (rleEncBody s) s

/-- RLE_DEC (R82). -/
def execRleDec (s : State) : Host.Outcome State Fault Refusal := completeCommand .rleDec (rleDecBody s) s

end Sys2Proof.Machine
end

