-- ==== Sys2Proof/Machine/Pipeline.lean ====
section
/-! DEFINITION. The sequencing of the units (44_pipeline.md R105 to R109) and the commands ENCODE (R110) and DECODE (R111).
Both work on private storage: no unit table is read or written (R109). -/

namespace Sys2Proof.Machine

/-- What `EncodeFn` returns (R106). -/
structure EncodeResult where
  blob : Bytes
  used : Bool
  tlen : Nat
deriving DecidableEq, Repr

/-- The Huffman half of `EncodeFn` over the bytes the RLE stage left: the table blob and the payload (R106). -/
def huffmanBlob (p : Bytes) : Except ErrKind (Bytes × Bytes) :=
  match genCodes (buildTree (analyze p)) with
  | .error k => .error k
  | .ok ct =>
    match pack p ct with
    | .error k => .error k
    | .ok (payload, _) =>
      match serialize ct with
      | .error k => .error k
      | .ok tb => .ok (tb, payload)

/-- `EncodeFn` of R106. The Huffman stages see the output of the RLE stage (C2). -/
def encodeFn (d : Bytes) : Except ErrKind EncodeResult :=
  if d = [] then .ok ⟨[], false, 0⟩
  else
    match huffmanBlob (rleEncode d).out with
    | .error k => .error k
    | .ok (tb, payload) => .ok ⟨tb ++ payload, (rleEncode d).used, tb.length⟩

/-- `DecodeFn` of R107: deserialize, unpack, then RLE decode when the flag is set. -/
def decodeFn (src : Bytes) (r : Bool) : Except ErrKind (Bytes × Nat) :=
  match deserialize src with
  | .error k => .error k
  | .ok (ct, off) =>
    match unpack (src.drop off) ct with
    | .error k => .error k
    | .ok (mid, _) =>
      if r then
        match rleDecode mid with
        | .error k => .error k
        | .ok out => .ok (out, mid.length)
      else .ok (mid, mid.length)

/-- The body of ENCODE (R110). -/
def encodeBody (s : State) (src : Bytes) : Except ErrKind Result :=
  match encodeFn src with
  | .error k => .error k
  | .ok e => .ok (resultOf s e.blob e.tlen e.used)

/-- The body of DECODE (R111). -/
def decodeBody (r : Bool) (s : State) (src : Bytes) : Except ErrKind Result :=
  match decodeFn src r with
  | .error k => .error k
  | .ok (out, mlen) => .ok (resultOf s out mlen false)

/-- ENCODE (R110). -/
def execEncode (s : State) : Host.Outcome State Fault Refusal := completeCommand .encode (encodeBody s) s

/-- DECODE (R111). -/
def execDecode (r : Bool) (s : State) : Host.Outcome State Fault Refusal :=
  completeCommand (.decode r) (decodeBody r s) s

end Sys2Proof.Machine
end

