-- ==== Sys2Proof/Machine/Dispatch.lean ====
section
/-! DEFINITION. The meaning of every command: one arm per row of the opcode table (30_encoding.md R66), each the completion
step of that command (R69). -/

namespace Sys2Proof.Machine

def exec (i : Instr) (s : State) : Host.Outcome State Fault Refusal :=
  match i with
  | .encode => Sys2Proof.Machine.execEncode s
  | .decode r => Sys2Proof.Machine.execDecode r s
  | .rleEnc => Sys2Proof.Machine.execRleEnc s
  | .rleDec => Sys2Proof.Machine.execRleDec s
  | .freq => Sys2Proof.Machine.execFreq s
  | .buildTree => Sys2Proof.Machine.execBuildTree s
  | .genCodes => Sys2Proof.Machine.execGenCodes s
  | .serialize => Sys2Proof.Machine.execSerialize s
  | .deserialize => Sys2Proof.Machine.execDeserialize s
  | .pack => Sys2Proof.Machine.execPack s
  | .buildTrie => Sys2Proof.Machine.execBuildTrie s
  | .unpack => Sys2Proof.Machine.execUnpack s

end Sys2Proof.Machine
end

