-- ==== Sys2Proof/Machine/HostPort.lean ====
section
/-! DEFINITION. The host's side of the engine: the CSR map (10_state.md R20 to R30), host accesses to the CSR window (R31 to
R35), host accesses to the data memory (20_memory.md R43) with the rules a host program must keep while a command is in
flight (70_reset_and_hazards.md R133), and the reset input (R128, R129). -/

namespace Sys2Proof.Machine

/-- The named registers of R20. -/
inductive CsrName where
  | id
  | version
  | cmd
  | status
  | srcAddr
  | srcLen
  | dstAddr
  | dstCap
  | outLen
  | aux
  | maxLen
  | memLast
deriving DecidableEq, Repr

/-- The registers in the order of R20. -/
def CsrName.all : List CsrName :=
  [.id, .version, .cmd, .status, .srcAddr, .srcLen, .dstAddr, .dstCap, .outLen, .aux, .maxLen, .memLast]

/-- The byte offsets of R20. -/
def CsrName.offset : CsrName → Nat
  | .id      => 0x00
  | .version => 0x04
  | .cmd     => 0x08
  | .status  => 0x0C
  | .srcAddr => 0x10
  | .srcLen  => 0x14
  | .dstAddr => 0x18
  | .dstCap  => 0x1C
  | .outLen  => 0x20
  | .aux     => 0x24
  | .maxLen  => 0x28
  | .memLast => 0x2C

/-- The register at an offset, if any; the other word offsets of the window are reserved (R30). -/
def csrAt (off : Nat) : Option CsrName := CsrName.all.find? fun n => n.offset == off

/-- ID's constant (R21): the ASCII characters "HUFF". -/
def idValue : Word := 0x48554646

/-- VERSION's constant (R22): IF_REV 1, DOC_REV 7. -/
def versionValue : Word := 0x00010007

/-- The current value of a register (R32). -/
def csrValue (n : CsrName) (s : State) : Word :=
  match n with
  | .id      => idValue
  | .version => versionValue
  | .cmd     => s.cmd
  | .status  => s.status
  | .srcAddr => s.srcAddr
  | .srcLen  => s.srcLen
  | .dstAddr => s.dstAddr
  | .dstCap  => s.dstCap
  | .outLen  => s.outLen
  | .aux     => s.aux
  | .maxLen  => s.params.maxLen
  | .memLast => s.params.memLast

/-- A host 32-bit write of a register in phase IDLE (R33, R34); the read-only registers ignore it. -/
def csrWriteIdle (n : CsrName) (v : Word) (s : State) : State :=
  match n with
  | .cmd     => acceptCommand v s
  | .srcAddr => { s with srcAddr := v }
  | .srcLen  => { s with srcLen := v }
  | .dstAddr => { s with dstAddr := v }
  | .dstCap  => { s with dstCap := v }
  | .id | .version | .status | .outLen | .aux | .maxLen | .memLast => s

/-- A host 32-bit write of a register: in phase BUSY it is ignored (R35). -/
def csrWrite (n : CsrName) (v : Word) (s : State) : State :=
  match s.phase with
  | .idle => csrWriteIdle n v s
  | .busy _ => s

/-- The 256-byte window at CSR_BASE (R20). -/
def inWindow (p : Params) (addr : Nat) : Bool := decide (p.csrBase ≤ addr) && decide (addr < p.csrBase + 256)

/-- The register a well-formed access selects: 32 bits wide, at a multiple of 4, not a reserved offset (R30, R31). -/
def csrSelected (p : Params) (addr : Nat) (size : AccessSize) : Option CsrName :=
  if size = .word ∧ (addr - p.csrBase) % 4 = 0 then csrAt (addr - p.csrBase) else none

/-- A host write on the CSR bus. Outside the window it is not this hardware's (assumption log 10). -/
def hostCsrWrite (addr : Nat) (size : AccessSize) (v : Word) (s : State) : State :=
  if inWindow s.params addr then
    match csrSelected s.params addr size with
    | none => s
    | some n => csrWrite n v s
  else s

/-- A host read on the CSR bus: the register's value, or 0 for a reserved offset or a bad access (R30 to R32). Outside the
window it is not this hardware's (assumption log 10). -/
def hostCsrRead (addr : Nat) (size : AccessSize) (s : State) : State :=
  if inWindow s.params addr then
    match csrSelected s.params addr size with
    | none => { s with readData := 0 }
    | some n => { s with readData := csrValue n s }
  else s

/-- A host write of a data-memory byte (R43, R53, R133). -/
def hostMemWrite (a : Nat) (b : Byte) (s : State) : Host.Outcome State Fault Refusal :=
  if s.params.memSize ≤ a then .fault .noSuchAddress
  else if meetsDevice s.params a 1 then .fault .notOrdinaryMemory
  else if holdsAsSource s a then .fault .hostWroteSourceWhileBusy
  else if holdsAsDest s a then .fault .hostTouchedDestinationWhileBusy
  else .next { s with mem := s.mem.write a b }

/-- A host read of a data-memory byte (R43, R53, R133). Reading the source range while BUSY is allowed. -/
def hostMemRead (a : Nat) (s : State) : Host.Outcome State Fault Refusal :=
  if s.params.memSize ≤ a then .fault .noSuchAddress
  else if meetsDevice s.params a 1 then .fault .notOrdinaryMemory
  else if holdsAsDest s a then .fault .hostTouchedDestinationWhileBusy
  else .next { s with readData := (s.mem.read a).setWidth 32 }

/-- Reset asserted by the platform (R128, R129). A command in flight over memory that is not ordinary has already broken R53,
and what it did there is not specified. -/
def assertReset (s : State) : Host.Outcome State Fault Refusal :=
  if inFlightUsesDevice s then .fault .notOrdinaryMemory else .next (resetEngine s)

end Sys2Proof.Machine
end

