-- ==== Sys2Proof/Machine/Engine.lean ====
section
/-! DEFINITION. The engine's turn (30_encoding.md R69 with its step 1, the illegal word of R67) and one event on the engine's
pins (10_state.md R31 to R35, 70_reset_and_hazards.md R131). -/

namespace Sys2Proof.Machine

/-- The completion step of a command word: an illegal word fails with ILLEGAL_COMMAND (R67, R69 step 1), a legal one runs. -/
def completeWord (w : Word) (s : State) : Host.Outcome State Fault Refusal :=
  match decode w with
  | .error _ => .next (failCommand (lastOpOf w) .illegalCommand s)
  | .ok i => exec i s

/-- The engine's turn: in BUSY the completion step, in IDLE nothing (R127, R131). -/
def engineTurn (s : State) : Host.Outcome State Fault Refusal :=
  match s.phase with
  | .idle => .next s
  | .busy w => completeWord w s

/-- One event. -/
def takeEvent (e : BusEvent) (s : State) : Host.Outcome State Fault Refusal :=
  match e with
  | .csrWrite addr size v => .next (hostCsrWrite addr size v s)
  | .csrRead addr size => .next (hostCsrRead addr size s)
  | .memWrite a b => hostMemWrite a b s
  | .memRead a => hostMemRead a s
  | .reset => assertReset s
  | .engineTurn => engineTurn s

/-- Place a command word where the engine runs its next command: accepted as by a CMD write (R34), with the engine's turn
next. -/
def placeCommand (w : Word) (s : State) : State :=
  { acceptCommand w s with inbox := .engineTurn :: s.inbox }

end Sys2Proof.Machine
end

