-- ==== Sys2Proof/Machine/Step.lean ====
section
/-! DEFINITION. One step of the machine: the next event of the inbox, or the engine's turn when no event is left (so that
every accepted command completes, 70_reset_and_hazards.md R131). The hardware fetches nothing (R18): the command it runs is
the one CMD accepted. -/

namespace Sys2Proof.Machine

/-- One step. -/
def step (s : State) : Host.Outcome State Fault Refusal :=
  match s.inbox with
  | [] => engineTurn s
  | e :: rest => takeEvent e { s with inbox := rest }

/-- `s` with the command word of `nbits` bits `w` accepted and the engine's turn next: the very next step runs it
(assumption log 5). -/
def State.withFetchWord (s : State) (nbits w : Nat) : State := placeCommand (BitVec.ofNat 32 (w % 2 ^ nbits)) s

end Sys2Proof.Machine
end

