-- ==== Sys2Proof/Machine/Script.lean ====
section
/-! DEFINITION. The host-script syntax of 30_encoding.md R74 and R75, as an assembler from script lines to bus events. -/

namespace Sys2Proof.Machine

/-- A line of a host script: the real operations of R74 and the pseudo-operations of R75. -/
inductive ScriptLine where
  /-- `csrw NAME, v`. -/
  | csrw (n : CsrName) (v : Word)
  /-- `csrr NAME`. -/
  | csrr (n : CsrName)
  /-- `memw a, b0 b1 …`. -/
  | memw (a : Nat) (bs : Bytes)
  /-- `memr a, n`. -/
  | memr (a n : Nat)
  /-- `cmd MNEMONIC`, with DECODE.R the DECODE command whose R is 1. -/
  | cmd (i : Instr)
  /-- `wait`. -/
  | wait
  /-- `run MNEMONIC`: `cmd` then `wait`. -/
  | run (i : Instr)
  /-- `src a, n`. -/
  | src (a n : Word)
  /-- `dst a, n`. -/
  | dst (a n : Word)
deriving DecidableEq, Repr

/-- The bus write of `csrw` (R74). -/
def csrwEvent (base : Nat) (n : CsrName) (v : Word) : BusEvent := .csrWrite (base + n.offset) .word v

/-- The bus read of `csrr` (R74). -/
def csrrEvent (base : Nat) (n : CsrName) : BusEvent := .csrRead (base + n.offset) .word

/-- `wait` polls STATUS until BUSY is 0 (R75). Polls that still read BUSY change nothing (R32), so the events are the
engine's turn and the poll that reads BUSY = 0 (assumption log 23). -/
def waitEvents (base : Nat) : List BusEvent := [.engineTurn, csrrEvent base .status]

/-- The events of one line, for a window at `base` (R74, R75). -/
def ScriptLine.events (base : Nat) : ScriptLine → List BusEvent
  | .csrw n v => [csrwEvent base n v]
  | .csrr n => [csrrEvent base n]
  | .memw a bs => bs.zipIdx.map fun (b, k) => .memWrite (a + k) b
  | .memr a n => (List.range n).map fun k => .memRead (a + k)
  | .cmd i => [csrwEvent base .cmd (encode i)]
  | .wait => waitEvents base
  | .run i => csrwEvent base .cmd (encode i) :: waitEvents base
  | .src a n => [csrwEvent base .srcAddr a, csrwEvent base .srcLen n]
  | .dst a n => [csrwEvent base .dstAddr a, csrwEvent base .dstCap n]

/-- The events of a script. -/
def scriptEvents (base : Nat) (lines : List ScriptLine) : List BusEvent := lines.flatMap (ScriptLine.events base)

end Sys2Proof.Machine
end

