-- ==== Sys2Proof/Safety.lean ====
section
/-! DEFINITION. The terms claims are stated in: the invariants of the state (10_state.md R19, R24, R27, R37 to R39), when a
command's ranges are usable (30_encoding.md R70, 20_memory.md R53), prefix-freedom and tree paths (R38, R39, R86), the error
kinds each command may report (60_exceptions.md R113), and what a safe run is. -/

namespace Sys2Proof.Machine

/-! ### Invariants -/

/-- The register block is in one of the four conditions of R24: nothing issued yet; BUSY; a success; a failure. LAST_OP is
CMD's low byte, OUT_LEN and AUX are 0 outside a success, and RLE_USED is set only by ENCODE and RLE_ENC (R41). -/
def csrLegal (s : State) : Prop :=
  match s.phase with
  | .busy w => s.cmd = w ∧ s.status = statusBusy (lastOpOf w) ∧ s.outLen = 0 ∧ s.aux = 0
  | .idle =>
    (s.cmd = 0 ∧ s.status = 0 ∧ s.outLen = 0 ∧ s.aux = 0) ∨
    (∃ used, s.status = statusDone (lastOpOf s.cmd) used ∧
      (used = true → lastOpOf s.cmd = 0x01 ∨ lastOpOf s.cmd = 0x10)) ∨
    (∃ k, s.status = statusFail (lastOpOf s.cmd) k ∧ s.outLen = 0 ∧ s.aux = 0)

/-- The sum of a frequency table's counts (R37). -/
def countTotal (f : Vector Word 256) : Nat := (f.toList.map BitVec.toNat).sum

/-- The unit tables are as R37, R38 and R39 describe them. -/
def tablesLegal (s : State) : Prop :=
  countTotal s.freq ≤ s.params.maxLen.toNat ∧ treeWf s.tree = true ∧ codeTableWf s.codeTable = true

/-- The data memory is in its canonical form and lists only addresses that exist (R43). -/
def memoryLegal (s : State) : Prop := s.mem.wf = true ∧ s.mem.within s.params.memSize = true

/-- The state of a legal instance in a condition the spec allows. -/
structure Inv (s : State) : Prop where
  params : s.params.wf = true
  csr    : csrLegal s
  outLen : s.outLen.toNat ≤ s.params.maxLen.toNat
  tables : tablesLegal s
  memory : memoryLegal s

/-! ### Usable ranges -/

/-- The source range passes R70 (a) and is ordinary memory (R53). -/
def sourceReady (s : State) : Prop :=
  s.srcLen.toNat ≤ s.params.maxLen.toNat ∧ s.srcAddr.toNat + s.srcLen.toNat ≤ s.params.memSize ∧
  meetsDevice s.params s.srcAddr.toNat s.srcLen.toNat = false

/-- The destination range passes R70 (b) and is ordinary memory (R53). -/
def destReady (s : State) : Prop :=
  s.dstCap.toNat ≤ s.params.maxLen.toNat ∧ s.dstAddr.toNat + s.dstCap.toNat ≤ s.params.memSize ∧
  meetsDevice s.params s.dstAddr.toNat s.dstCap.toNat = false

/-- The bytes of the source range as they stand (R44, R54). -/
def sourceOf (s : State) : Bytes := s.mem.readBytes s.srcAddr.toNat s.srcLen.toNat

/-! ### Tables and trees -/

/-- No code of the table is a prefix of another's (R16, R39); entries at different places count as different. -/
def prefixFree (ct : CodeTable) : Prop := ct.Pairwise fun e f => ¬ e.2 <+: f.2 ∧ ¬ f.2 <+: e.2

/-- The node a bit path leads to from a node: 0 to the left child, 1 to the right (R86). -/
def followPath (nodes : List TreeNode) : Nat → Bits → Option TreeNode
  | i, [] => nodes[i]?
  | i, bit :: p =>
    match nodes[i]? with
    | some (.internal l r _) => followPath nodes (if bit then r else l) p
    | _ => none

/-- A trie has the shape of the subtree under node `i` of a store (R100): at a leaf a marked node without children, at an
internal node an unmarked node whose two children mirror the node's. -/
def Trie.mirrors (nodes : List TreeNode) (i : Nat) : Trie → Prop
  | .absent => False
  | .node mark zero one =>
    match nodes[i]? with
    | none => False
    | some (.leaf b _) => mark = some b ∧ zero = .absent ∧ one = .absent
    | some (.internal l r _) => mark = none ∧ Trie.mirrors nodes l zero ∧ Trie.mirrors nodes r one

/-- The nodes not yet merged when node `k` of a store is created: those of the first `k` that no internal node among them
has as a child (`live` of R84). -/
def liveAt (nodes : List TreeNode) (k : Nat) : List Nat :=
  (List.range k).filter fun j => !(childrenOf (nodes.take k)).contains j

/-- The key of a node of a store (R84). -/
def keyAt (nodes : List TreeNode) (i : Nat) : NodeKey := ⟨(nodes[i]?.map TreeNode.freq).getD 0, i⟩

/-! ### Errors -/

/-- The codes of R113 a legal word of each command can report, "(unreachable)" ones included. -/
def reportable : Instr → List (BitVec 4)
  | .encode      => [6, 3, 7]
  | .decode r    => if r then [6, 1, 2, 4, 7] else [6, 1, 2, 7]
  | .rleEnc      => [6, 7]
  | .rleDec      => [6, 4, 7]
  | .freq        => [6]
  | .buildTree   => []
  | .genCodes    => [3]
  | .serialize   => [6, 3, 7]
  | .deserialize => [6, 1]
  | .pack        => [6, 8, 7]
  | .buildTrie   => [1]
  | .unpack      => [6, 1, 2, 7]

/-! ### Runs -/

/-- A state a run from `s` passes through. -/
inductive Reaches (s : State) : State → Prop where
  | start : Reaches s s
  | next {t u : State} : Reaches s t → step t = .next u → Reaches s u

/-- A safe run: no step of it is a fault, so the host program and the platform keep the rules of R43, R53 and R133. -/
def SafeRun (s : State) : Prop := ∀ t, Reaches s t → ∀ f, step t ≠ .fault f

/-- The same state seen by a host that polls differently: only what the host last read and its coming events differ. -/
def withHostSide (l : List BusEvent) (v : Word) (s : State) : State := { s with inbox := l, readData := v }

/-- Change the next state of an outcome. -/
def mapNext (g : State → State) : Host.Outcome State Fault Refusal → Host.Outcome State Fault Refusal
  | .next s => .next (g s)
  | .fault f => .fault f
  | .refused r => .refused r

end Sys2Proof.Machine
end

