-- ==== Sys2Proof/Certificates/Slice0/Obligations.lean ====
section
/-! DEFINITION. The statements for the provers, from the numbered rules of spec/. `step` runs one bus event or completion,
`engineTurn` is the completion step of the command in flight, `exec` the meaning of a legal command. -/

open Sys2Proof Sys2Proof.Machine

/-! ### Command words (R62 to R68) -/

/-- R66, R67: a word decodes to a command exactly when it is that command's word, so no bit of a word is dropped; and it
decodes to some command exactly when none of the clauses (a), (b), (c) of R67 holds. -/
def Obligations.DecodeAcceptsExactlyTheEncodings : Prop :=
  (∀ (w : Word) (i : Instr), decode w = .ok i ↔ w = encode i) ∧
  (∀ w : Word, (∃ i, decode w = .ok i) ↔
    w.extractLsb' 0 8 ∈ [(0x01 : Byte), 0x02, 0x10, 0x11, 0x20, 0x21, 0x22, 0x30, 0x31, 0x40, 0x41, 0x42] ∧
    w.extractLsb' 9 23 = 0 ∧ (w.getLsbD 8 = true → w.extractLsb' 0 8 = (0x02 : Byte)))

/-- R66: the words of the opcode map, written out, DECODE's with R = 0 and R = 1. -/
def Obligations.OpcodeMapWordsDecode : Prop :=
  decode 0x00000001 = .ok .encode ∧ decode 0x00000002 = .ok (.decode false) ∧ decode 0x00000102 = .ok (.decode true) ∧
  decode 0x00000010 = .ok .rleEnc ∧ decode 0x00000011 = .ok .rleDec ∧ decode 0x00000020 = .ok .freq ∧
  decode 0x00000021 = .ok .buildTree ∧ decode 0x00000022 = .ok .genCodes ∧ decode 0x00000030 = .ok .serialize ∧
  decode 0x00000031 = .ok .deserialize ∧ decode 0x00000040 = .ok .pack ∧ decode 0x00000041 = .ok .buildTrie ∧
  decode 0x00000042 = .ok .unpack

/-- R67: an illegal word in flight fails with ILLEGAL_COMMAND and changes nothing but STATUS, OUT_LEN, AUX and the phase. -/
def Obligations.IllegalWordFailsAndChangesNothingElse : Prop :=
  ∀ (s : State) (w : Word), s.phase = .busy w →
    (w.extractLsb' 0 8 ∉ [(0x01 : Byte), 0x02, 0x10, 0x11, 0x20, 0x21, 0x22, 0x30, 0x31, 0x40, 0x41, 0x42] ∨
      w.extractLsb' 9 23 ≠ 0 ∨ (w.getLsbD 8 = true ∧ w.extractLsb' 0 8 ≠ (0x02 : Byte))) →
    engineTurn s = .next { s with
      outLen := 0, aux := 0, phase := .idle,
      status := ((w.extractLsb' 0 8).setWidth 32 <<< 16) ||| 0x506 }

/-! ### The step (R18, R131) -/

/-- A step at which the engine moves runs the command the word in flight decodes to: with no event left, with the engine's
turn next, and after a word is placed by `withFetchWord`. In IDLE the engine's turn changes nothing (R127). -/
def Obligations.StepRunsTheCommandInFlight : Prop :=
  (∀ (s : State) (w : Word) (i : Instr), s.phase = .busy w → decode w = .ok i →
    (s.inbox = [] → step s = exec i s) ∧
    (∀ rest, s.inbox = .engineTurn :: rest → step s = exec i { s with inbox := rest })) ∧
  (∀ (s : State) (i : Instr), step (s.withFetchWord 32 (encode i).toNat) = exec i (acceptCommand (encode i) s)) ∧
  (∀ s : State, s.phase = .idle → engineTurn s = .next s)

/-- R131: in a legal state over ordinary memory, the completion step of every word in flight is enabled and returns to IDLE
with DONE set and BUSY clear. -/
def Obligations.EveryAcceptedCommandCompletes : Prop :=
  ∀ (s : State) (w : Word), s.phase = .busy w → s.params.devices = [] → treeWf s.tree = true →
    ∃ t, engineTurn s = .next t ∧ t.phase = .idle ∧ t.doneBit = true ∧ t.busyBit = false

/-- R131, R137: what the host reads meanwhile and what it does afterwards have no influence on a command. -/
def Obligations.CommandIgnoresTheHostsPolling : Prop :=
  ∀ (s : State) (i : Instr) (l : List BusEvent) (v : Word),
    exec i (withHostSide l v s) = mapNext (withHostSide l v) (exec i s)

/-! ### The register window (R20 to R35) -/

/-- R34: a CMD write in phase IDLE. -/
def Obligations.CmdWriteInIdleIssuesTheCommand : Prop :=
  ∀ (s : State) (v : Word) (rest : List BusEvent), s.phase = .idle →
    s.inbox = .csrWrite (s.params.csrBase + 0x08) .word v :: rest →
    step s = .next { s with
      inbox := rest, cmd := v, outLen := 0, aux := 0, phase := .busy v,
      status := ((v.extractLsb' 0 8).setWidth 32 <<< 16) ||| 1 }

/-- R33: the four operand registers store what is written in IDLE, and no write to a read-only register or a reserved offset
does anything in any phase. -/
def Obligations.OperandRegistersStoreAndReadOnlyOnesIgnore : Prop :=
  (∀ (s : State) (v : Word) (rest : List BusEvent), s.phase = .idle →
    (s.inbox = .csrWrite (s.params.csrBase + 0x10) .word v :: rest → step s = .next { s with inbox := rest, srcAddr := v }) ∧
    (s.inbox = .csrWrite (s.params.csrBase + 0x14) .word v :: rest → step s = .next { s with inbox := rest, srcLen := v }) ∧
    (s.inbox = .csrWrite (s.params.csrBase + 0x18) .word v :: rest → step s = .next { s with inbox := rest, dstAddr := v }) ∧
    (s.inbox = .csrWrite (s.params.csrBase + 0x1C) .word v :: rest → step s = .next { s with inbox := rest, dstCap := v })) ∧
  (∀ (s : State) (off : Nat) (v : Word) (rest : List BusEvent),
    (off ∈ [0x00, 0x04, 0x0C, 0x20, 0x24, 0x28, 0x2C] ∨ (0x30 ≤ off ∧ off ≤ 0xFC ∧ off % 4 = 0)) →
    s.inbox = .csrWrite (s.params.csrBase + off) .word v :: rest → step s = .next { s with inbox := rest })

/-- R20, R21, R22, R29, R30, R32: a read returns the register's value, or 0 at a reserved offset, and changes nothing. -/
def Obligations.RegisterReadsReturnTheirValues : Prop :=
  (∀ (s : State) (off : Nat) (v : Word) (rest : List BusEvent),
    (off, v) ∈ [(0x00, (0x48554646 : Word)), (0x04, 0x00010007), (0x08, s.cmd), (0x0C, s.status), (0x10, s.srcAddr),
      (0x14, s.srcLen), (0x18, s.dstAddr), (0x1C, s.dstCap), (0x20, s.outLen), (0x24, s.aux), (0x28, s.params.maxLen),
      (0x2C, BitVec.ofNat 32 (s.params.memSize - 1))] →
    s.inbox = .csrRead (s.params.csrBase + off) .word :: rest →
    step s = .next { s with inbox := rest, readData := v }) ∧
  (∀ (s : State) (off : Nat) (rest : List BusEvent), 0x30 ≤ off → off ≤ 0xFC → off % 4 = 0 →
    s.inbox = .csrRead (s.params.csrBase + off) .word :: rest → step s = .next { s with inbox := rest, readData := 0 })

/-- R31: an access of another size, or at an offset that is no multiple of 4, has no effect and reads 0. -/
def Obligations.BadAccessesAreIgnoredAndReadZero : Prop :=
  ∀ (s : State) (off : Nat) (size : AccessSize) (rest : List BusEvent), off < 256 → (size ≠ .word ∨ off % 4 ≠ 0) →
    (s.inbox = .csrRead (s.params.csrBase + off) size :: rest → step s = .next { s with inbox := rest, readData := 0 }) ∧
    (∀ v, s.inbox = .csrWrite (s.params.csrBase + off) size v :: rest → step s = .next { s with inbox := rest })

/-- R35: in phase BUSY no write inside the CSR window does anything, CMD included, and every register reads as always (R32): in
a state whose register block R24 allows, STATUS with BUSY = 1, OUT_LEN and AUX 0. -/
def Obligations.BusyIgnoresEveryRegisterWrite : Prop :=
  ∀ (s : State) (w : Word) (rest : List BusEvent), s.phase = .busy w →
    (∀ off size v, off < 256 → s.inbox = .csrWrite (s.params.csrBase + off) size v :: rest →
      step s = .next { s with inbox := rest }) ∧
    (∀ n : CsrName, s.inbox = .csrRead (s.params.csrBase + n.offset) .word :: rest →
      step s = .next { s with inbox := rest, readData := csrValue n s }) ∧
    (csrLegal s →
      (s.inbox = .csrRead (s.params.csrBase + 0x0C) .word :: rest →
        ∃ t, step s = .next t ∧ t.readData = s.status ∧ t.readData.getLsbD 0 = true) ∧
      (s.inbox = .csrRead (s.params.csrBase + 0x20) .word :: rest → step s = .next { s with inbox := rest, readData := 0 }) ∧
      (s.inbox = .csrRead (s.params.csrBase + 0x24) .word :: rest → step s = .next { s with inbox := rest, readData := 0 }))

/-! ### Reset (R42, R128, R129) -/

/-- R42: the state after reset, for what the spec gives a value; the parameters and the data memory are not among it. -/
def Obligations.ResetStateHoldsTheSpecsValues : Prop :=
  State.reset.phase = .idle ∧ State.reset.cmd = 0 ∧ State.reset.status = 0 ∧ State.reset.srcAddr = 0 ∧
  State.reset.srcLen = 0 ∧ State.reset.dstAddr = 0 ∧ State.reset.dstCap = 0 ∧ State.reset.outLen = 0 ∧
  State.reset.aux = 0 ∧ (∀ b, countOf State.reset.freq b = 0) ∧ State.reset.tree = [] ∧ State.reset.codeTable = [] ∧
  csrValue .id State.reset = 0x48554646 ∧ csrValue .version State.reset = 0x00010007

/-- R128, R129: reset in any phase. The instance and the host's side stay; data memory is unchanged but for the bytes of an
abandoned command's destination range, cut at the end of the memory. That an illegal word in flight, and a destination that
begins beyond the memory, abandon no byte is the model's reading (assumption log 13); that the host's last read value stays is
the model's choice (assumption log 11). -/
def Obligations.ResetRestoresEverythingButTheAbandonedBytes : Prop :=
  ∀ (s : State) (rest : List BusEvent), s.inbox = .reset :: rest → inFlightUsesDevice s = false →
    ∃ t, step s = .next t ∧ t.phase = .idle ∧ t.cmd = 0 ∧ t.status = 0 ∧ t.srcAddr = 0 ∧ t.srcLen = 0 ∧ t.dstAddr = 0 ∧
      t.dstCap = 0 ∧ t.outLen = 0 ∧ t.aux = 0 ∧ (∀ b, countOf t.freq b = 0) ∧ t.tree = [] ∧ t.codeTable = [] ∧
      t.params = s.params ∧ t.inbox = rest ∧ t.readData = s.readData ∧ (s.phase = .idle → t.mem = s.mem) ∧
      (s.mem.wf = true → ∀ a,
        (∀ w i, s.phase = .busy w → decode w = .ok i → writesDest i = true →
          ¬ (s.dstAddr.toNat ≤ a ∧
            a < s.dstAddr.toNat + min s.dstCap.toNat (s.params.memSize - s.dstAddr.toNat))) →
        t.mem.read a = s.mem.read a)

/-! ### Failing and succeeding (R69 to R72, R112 to R117) -/

/-- R115, R112: a completion that sets ERR changes exactly OUT_LEN, AUX, STATUS and the phase, as the Fail branch writes
them, for legal and illegal words; the code in ERR_CODE is the number of R112. -/
def Obligations.FailureChangesOnlyTheReport : Prop :=
  (∀ (s t : State) (w : Word), s.phase = .busy w → engineTurn s = .next t → t.errBit = true →
    ∃ k : ErrKind, t = { s with
      outLen := 0, aux := 0, phase := .idle,
      status := ((w.extractLsb' 0 8).setWidth 32 <<< 16) ||| (k.code.setWidth 32 <<< 8) ||| 0x6 }) ∧
  (∀ (op : Byte) (s : State),
    (failCommand op .corruptTable s).errCode = 1 ∧ (failCommand op .corruptPayload s).errCode = 2 ∧
    (failCommand op .unrepresentableCode s).errCode = 3 ∧ (failCommand op .corruptRle s).errCode = 4 ∧
    (failCommand op .illegalCommand s).errCode = 5 ∧ (failCommand op .badRange s).errCode = 6 ∧
    (failCommand op .dstOverflow s).errCode = 7 ∧ (failCommand op .symbolNotInTable s).errCode = 8)

/-- R69, R41: a completion that leaves ERR clear is a legal command's; STATUS is DONE, LAST_OP and the used flag, which only
ENCODE and RLE_ENC set. -/
def Obligations.SuccessReportsDoneAndTheUsedFlag : Prop :=
  ∀ (s t : State) (w : Word), s.phase = .busy w → engineTurn s = .next t → t.errBit = false →
    ∃ (i : Instr) (used : Bool), decode w = .ok i ∧ t.phase = .idle ∧
      t.status = ((w.extractLsb' 0 8).setWidth 32 <<< 16) ||| (if used then 0xA else 0x2) ∧
      (used = true → i = .encode ∨ i = .rleEnc)

/-- R113, R87, R93: a command reports no kind outside its row, and over tables the spec allows none reports
UNREPRESENTABLE_CODE. -/
def Obligations.ErrorsStayInTheirCommandsRow : Prop :=
  (∀ (i : Instr) (s t : State), exec i s = .next t → t.errBit = true → t.errCode ∈ reportable i) ∧
  (∀ (i : Instr) (s t : State), treeWf s.tree = true → codeTableWf s.codeTable = true → exec i s = .next t →
    ¬ (t.errBit = true ∧ t.errCode = 3))

/-- R70: BAD_RANGE is reported exactly when a range the command uses passes MAX_LEN or leaves the data memory, with sums that
do not wrap, whatever the source bytes, the tables and the output are (R114 item 2). -/
def Obligations.BadRangeIsReportedExactlyWhenARangeIsBad : Prop :=
  ∀ (i : Instr) (s : State),
    ((readsSource i = true ∧
        (s.params.maxLen.toNat < s.srcLen.toNat ∨ s.params.memSize < s.srcAddr.toNat + s.srcLen.toNat)) ∨
      (writesDest i = true ∧
        (s.params.maxLen.toNat < s.dstCap.toNat ∨ s.params.memSize < s.dstAddr.toNat + s.dstCap.toNat)) →
      exec i s = .next { s with
        outLen := 0, aux := 0, phase := .idle, status := (i.opcode.setWidth 32 <<< 16) ||| 0x606 }) ∧
    (∀ t, exec i s = .next t → t.errBit = true → t.errCode = 6 →
      (readsSource i = true ∧
        (s.params.maxLen.toNat < s.srcLen.toNat ∨ s.params.memSize < s.srcAddr.toNat + s.srcLen.toNat)) ∨
      (writesDest i = true ∧
        (s.params.maxLen.toNat < s.dstCap.toNat ∨ s.params.memSize < s.dstAddr.toNat + s.dstCap.toNat)))

/-- R27: OUT_LEN is at most DST_CAP and MAX_LEN after a success of a command that writes a destination, and 0 after every
other completion. -/
def Obligations.OutLenIsBoundedByTheCapacity : Prop :=
  ∀ (i : Instr) (s t : State), exec i s = .next t →
    (t.errBit = false → writesDest i = true →
      t.outLen.toNat ≤ s.dstCap.toNat ∧ s.dstCap.toNat ≤ s.params.maxLen.toNat) ∧
    (t.errBit = true ∨ writesDest i = false → t.outLen = 0)

/-- R116: a failed command stays failed while the engine has nothing else to do, and issued again over what it left, fails
with the same report. -/
def Obligations.ReissuedCommandReportsTheSameError : Prop :=
  ∀ (s t : State) (w : Word), s.phase = .busy w → s.cmd = w → engineTurn s = .next t → t.errBit = true →
    engineTurn t = .next t ∧ engineTurn (acceptCommand w t) = .next t

/-! ### Frames (R36, R45, R109, R135) -/

/-- What a command leaves alone: the parameters, CMD and the four operand registers, and what is the host's; tables change
only by their writers (R36). -/
def Obligations.CommandsChangeOnlyTheirTablesAndReport : Prop :=
  ∀ (i : Instr) (s t : State), exec i s = .next t →
    t.params = s.params ∧ t.cmd = s.cmd ∧ t.srcAddr = s.srcAddr ∧ t.srcLen = s.srcLen ∧ t.dstAddr = s.dstAddr ∧
    t.dstCap = s.dstCap ∧ t.inbox = s.inbox ∧ t.readData = s.readData ∧ t.freeNext = s.freeNext ∧
    (i ≠ .freq → t.freq = s.freq) ∧ (i ≠ .buildTree → t.tree = s.tree) ∧
    (i ≠ .genCodes → i ≠ .deserialize → t.codeTable = s.codeTable)

/-- R45: bytes written to the data memory are read back and every other byte reads as before; a command writes exactly the
OUT_LEN bytes from DST_ADDR, and a failing command, or one that writes no destination, writes none. -/
def Obligations.MemoryChangesOnlyInTheReportedOutput : Prop :=
  (∀ (m : Memory) (a : Nat) (bs : Bytes), m.wf = true →
    (m.writeBytes a bs).readBytes a bs.length = bs ∧
    ∀ x, (x < a ∨ a + bs.length ≤ x) → (m.writeBytes a bs).read x = m.read x) ∧
  (∀ (i : Instr) (s t : State), s.mem.wf = true → exec i s = .next t →
    (∀ a, (a < s.dstAddr.toNat ∨ s.dstAddr.toNat + t.outLen.toNat ≤ a) → t.mem.read a = s.mem.read a) ∧
    (t.errBit = true ∨ writesDest i = false → ∀ a, t.mem.read a = s.mem.read a))

/-- R109: ENCODE and DECODE neither read nor write a unit table. -/
def Obligations.EncodeAndDecodeDoNotUseTheUnitTables : Prop :=
  ∀ (i : Instr) (s : State) (f : Vector Word 256) (tr : List TreeNode) (ct : CodeTable),
    (i = .encode ∨ ∃ r, i = .decode r) →
    (∀ t, exec i s = .next t → t.freq = s.freq ∧ t.tree = s.tree ∧ t.codeTable = s.codeTable) ∧
    exec i { s with freq := f, tree := tr, codeTable := ct } =
      mapNext (fun t => { t with freq := f, tree := tr, codeTable := ct }) (exec i s)

/-- R44: a command sees of the data memory only its source range: two states that agree but for other bytes give the same
report, the same tables and the same output bytes. -/
def Obligations.CommandsReadOnlyTheirSourceRange : Prop :=
  ∀ (i : Instr) (s t : State) (m : Memory), s.mem.wf = true → m.wf = true → exec i s = .next t →
    (readsSource i = true → ∀ k < s.srcLen.toNat, m.read (s.srcAddr.toNat + k) = s.mem.read (s.srcAddr.toNat + k)) →
    ∃ u, exec i { s with mem := m } = .next u ∧ u.status = t.status ∧ u.outLen = t.outLen ∧ u.aux = t.aux ∧
      u.freq = t.freq ∧ u.tree = t.tree ∧ u.codeTable = t.codeTable ∧
      (∀ k < t.outLen.toNat, u.mem.read (s.dstAddr.toNat + k) = t.mem.read (s.dstAddr.toNat + k))

/-! ### What each command does when it runs (R81, R82, R89 to R91, R96, R97, R102 to R104, R110, R111) -/

/-- R81: RLE_ENC. -/
def Obligations.RleEncWritesTheRunEncoding : Prop :=
  ∀ s : State, sourceReady s → destReady s →
    ((rleEncode (sourceOf s)).out.length ≤ s.dstCap.toNat →
      exec .rleEnc s = .next { s with
        mem := s.mem.writeBytes s.dstAddr.toNat (rleEncode (sourceOf s)).out, phase := .idle,
        outLen := BitVec.ofNat 32 (rleEncode (sourceOf s)).out.length, aux := BitVec.ofNat 32 (rleEncode (sourceOf s)).naive,
        status := if (rleEncode (sourceOf s)).used then 0x0010000A else 0x00100002 }) ∧
    (s.dstCap.toNat < (rleEncode (sourceOf s)).out.length →
      exec .rleEnc s = .next { s with outLen := 0, aux := 0, phase := .idle, status := 0x00100706 })

/-- R82: RLE_DEC. -/
def Obligations.RleDecWritesTheExpansion : Prop :=
  ∀ s : State, sourceReady s → destReady s →
    (∀ out, rleDecode (sourceOf s) = .ok out → out.length ≤ s.dstCap.toNat →
      exec .rleDec s = .next { s with
        mem := s.mem.writeBytes s.dstAddr.toNat out, phase := .idle, outLen := BitVec.ofNat 32 out.length,
        aux := BitVec.ofNat 32 (s.srcLen.toNat / 2), status := 0x00110002 }) ∧
    (∀ out, rleDecode (sourceOf s) = .ok out → s.dstCap.toNat < out.length →
      exec .rleDec s = .next { s with outLen := 0, aux := 0, phase := .idle, status := 0x00110706 }) ∧
    (∀ k, rleDecode (sourceOf s) = .error k →
      exec .rleDec s = .next { s with outLen := 0, aux := 0, phase := .idle, status := 0x00110406 })

/-- R89: FREQ. The destination registers do not matter. -/
def Obligations.FreqWritesTheCounts : Prop :=
  ∀ s : State, sourceReady s →
    exec .freq s = .next { s with
      freq := analyze (sourceOf s), phase := .idle, outLen := 0, status := 0x00200002,
      aux := BitVec.ofNat 32 (sourceOf s).dedup.length }

/-- R90: BUILD_TREE runs in every state. -/
def Obligations.BuildTreeWritesTheNodeStore : Prop :=
  ∀ s : State,
    exec .buildTree s = .next { s with
      tree := Machine.buildTree s.freq, phase := .idle, outLen := 0, status := 0x00210002,
      aux := BitVec.ofNat 32 (Machine.buildTree s.freq).length }

/-- R91, R87: GEN_CODES runs over every node store R38 allows, and writes the table `genCodes` gives; any other store stops
the machine by name (the model's choice, assumption log 12). -/
def Obligations.GenCodesWritesTheCodeTable : Prop :=
  (∀ s : State, treeWf s.tree = true → ∃ ct, genCodes s.tree = .ok ct ∧
    exec .genCodes s = .next { s with
      codeTable := ct, phase := .idle, outLen := 0, status := 0x00220002, aux := BitVec.ofNat 32 ct.length }) ∧
  (∀ s : State, treeWf s.tree = false → exec .genCodes s = .fault .malformedTree)

/-- R96: SERIALIZE over every table R39 allows. The source registers do not matter. -/
def Obligations.SerializeWritesTheTableBlob : Prop :=
  ∀ s : State, destReady s → codeTableWf s.codeTable = true → ∃ out, serialize s.codeTable = .ok out ∧
    (out.length ≤ s.dstCap.toNat →
      exec .serialize s = .next { s with
        mem := s.mem.writeBytes s.dstAddr.toNat out, phase := .idle, outLen := BitVec.ofNat 32 out.length,
        aux := BitVec.ofNat 32 s.codeTable.length, status := 0x00300002 }) ∧
    (s.dstCap.toNat < out.length →
      exec .serialize s = .next { s with outLen := 0, aux := 0, phase := .idle, status := 0x00300706 })

/-- R97: DESERIALIZE. On an error the code table stays. -/
def Obligations.DeserializeReplacesTheCodeTable : Prop :=
  ∀ s : State, sourceReady s →
    (∀ ct off, deserialize (sourceOf s) = .ok (ct, off) →
      exec .deserialize s = .next { s with
        codeTable := ct, phase := .idle, outLen := 0, aux := BitVec.ofNat 32 off, status := 0x00310002 }) ∧
    (∀ k, deserialize (sourceOf s) = .error k →
      exec .deserialize s = .next { s with outLen := 0, aux := 0, phase := .idle, status := 0x00310106 })

/-- R102: PACK. -/
def Obligations.PackWritesThePayload : Prop :=
  ∀ s : State, sourceReady s → destReady s →
    (∀ out nb, pack (sourceOf s) s.codeTable = .ok (out, nb) → out.length ≤ s.dstCap.toNat →
      exec .pack s = .next { s with
        mem := s.mem.writeBytes s.dstAddr.toNat out, phase := .idle, outLen := BitVec.ofNat 32 out.length,
        aux := BitVec.ofNat 32 nb, status := 0x00400002 }) ∧
    (∀ out nb, pack (sourceOf s) s.codeTable = .ok (out, nb) → s.dstCap.toNat < out.length →
      exec .pack s = .next { s with outLen := 0, aux := 0, phase := .idle, status := 0x00400706 }) ∧
    (∀ k, pack (sourceOf s) s.codeTable = .error k →
      exec .pack s = .next { s with outLen := 0, aux := 0, phase := .idle, status := 0x00400806 })

/-- R103: BUILD_TRIE reports the trie's size and changes no table. -/
def Obligations.BuildTrieReportsTheNodeCount : Prop :=
  ∀ s : State,
    (∀ t, buildTrie s.codeTable = .ok t →
      exec .buildTrie s = .next { s with
        phase := .idle, outLen := 0, aux := BitVec.ofNat 32 t.size, status := 0x00410002 }) ∧
    (∀ k, buildTrie s.codeTable = .error k →
      exec .buildTrie s = .next { s with outLen := 0, aux := 0, phase := .idle, status := 0x00410106 })

/-- R104: UNPACK. -/
def Obligations.UnpackWritesTheDecodedBytes : Prop :=
  ∀ s : State, sourceReady s → destReady s →
    (∀ out n, unpack (sourceOf s) s.codeTable = .ok (out, n) → out.length ≤ s.dstCap.toNat →
      exec .unpack s = .next { s with
        mem := s.mem.writeBytes s.dstAddr.toNat out, phase := .idle, outLen := BitVec.ofNat 32 out.length,
        aux := BitVec.ofNat 32 n, status := 0x00420002 }) ∧
    (∀ out n, unpack (sourceOf s) s.codeTable = .ok (out, n) → s.dstCap.toNat < out.length →
      exec .unpack s = .next { s with outLen := 0, aux := 0, phase := .idle, status := 0x00420706 }) ∧
    (∀ k, unpack (sourceOf s) s.codeTable = .error k → (k = .corruptTable ∨ k = .corruptPayload) ∧
      exec .unpack s = .next { s with
        outLen := 0, aux := 0, phase := .idle, status := if k = .corruptTable then 0x00420106 else 0x00420206 })

/-- R110: ENCODE succeeds on every source, when the blob fits. -/
def Obligations.EncodeWritesTheBlob : Prop :=
  ∀ s : State, sourceReady s → destReady s → ∃ e, encodeFn (sourceOf s) = .ok e ∧
    (e.blob.length ≤ s.dstCap.toNat →
      exec .encode s = .next { s with
        mem := s.mem.writeBytes s.dstAddr.toNat e.blob, phase := .idle, outLen := BitVec.ofNat 32 e.blob.length,
        aux := BitVec.ofNat 32 e.tlen, status := if e.used then 0x0001000A else 0x00010002 }) ∧
    (s.dstCap.toNat < e.blob.length →
      exec .encode s = .next { s with outLen := 0, aux := 0, phase := .idle, status := 0x00010706 })

/-- R111: DECODE, with R = 0 and R = 1. -/
def Obligations.DecodeWritesTheDecodedBytes : Prop :=
  ∀ (s : State) (r : Bool), sourceReady s → destReady s →
    (∀ out m, decodeFn (sourceOf s) r = .ok (out, m) → out.length ≤ s.dstCap.toNat →
      exec (.decode r) s = .next { s with
        mem := s.mem.writeBytes s.dstAddr.toNat out, phase := .idle, outLen := BitVec.ofNat 32 out.length,
        aux := BitVec.ofNat 32 m, status := 0x00020002 }) ∧
    (∀ out m, decodeFn (sourceOf s) r = .ok (out, m) → s.dstCap.toNat < out.length →
      exec (.decode r) s = .next { s with outLen := 0, aux := 0, phase := .idle, status := 0x00020706 }) ∧
    (∀ k, decodeFn (sourceOf s) r = .error k → (k = .corruptTable ∨ k = .corruptPayload ∨ (k = .corruptRle ∧ r = true)) ∧
      exec (.decode r) s = .next { s with
        outLen := 0, aux := 0, phase := .idle,
        status := 0x00020006 ||| (k.code.setWidth 32 <<< 8) })

/-! ### The algorithms (R78 to R80, R83 to R87, R92 to R95, R98 to R101, R108) -/

/-- R78, R79: the run encoding is a list of runs of 1 to 255 bytes, each as two bytes, that expands to the buffer, and a run
ends before the limit only where the byte changes; RLE encoding uses it exactly when it is no longer than a non-empty
buffer, and else returns the buffer; the naive length is that of the run encoding. -/
def Obligations.RleEncodingIsTheMaximalRunsOrTheData : Prop :=
  ∀ d : Bytes,
    (∃ runs : List (Byte × Nat),
      runEncoding d = (runs.flatMap fun p => [p.1, BitVec.ofNat 8 p.2]) ∧
      (∀ p ∈ runs, 1 ≤ p.2 ∧ p.2 ≤ 255) ∧
      (runs.flatMap fun p => List.replicate p.2 p.1) = d ∧
      runs.IsChain (fun p q => p.1 = q.1 → p.2 = 255)) ∧
    ((rleEncode d).used = true ↔ d ≠ [] ∧ (runEncoding d).length ≤ d.length) ∧
    ((rleEncode d).used = true → (rleEncode d).out = runEncoding d) ∧
    ((rleEncode d).used = false → (rleEncode d).out = d) ∧
    (rleEncode d).naive = (runEncoding d).length

/-- R80: what RLE encoding used, RLE decoding undoes; decoding fails exactly on an odd length or a run length 0, always with
CORRUPT_RLE. -/
def Obligations.RleDecodeUndoesRleEncode : Prop :=
  (∀ d : Bytes, (rleEncode d).used = true → rleDecode (rleEncode d).out = .ok d) ∧
  (∀ (e : Bytes) (k : ErrKind), rleDecode e = .error k ↔
    k = .corruptRle ∧ (e.length % 2 = 1 ∨ ∃ j, e[2 * j + 1]? = some 0))

/-- R83: the exact number of occurrences of each byte value, whatever their order. -/
def Obligations.AnalyzeCountsEachByte : Prop :=
  ∀ (d : Bytes) (b : Byte), d.length < 2 ^ 32 → (countOf (analyze d) b).toNat = d.count b

/-- R84: the node store starts with one leaf per occurring byte in ascending order, and each later node merges the two live
nodes with the smallest keys, the smaller on the left, until one node is left. -/
def Obligations.TreeMergesTheTwoSmallestKeys : Prop :=
  ∀ f : Vector Word 256,
    (∃ leaves, leaves <+: Machine.buildTree f ∧ leaves.length = distinctCount f ∧
      leaves.Pairwise (fun x y => ∃ b c fb fc, x = .leaf b fb ∧ y = .leaf c fc ∧ b.toNat < c.toNat) ∧
      (∀ b c, TreeNode.leaf b c ∈ leaves ↔ c = countOf f b ∧ c ≠ 0)) ∧
    (Machine.buildTree f).length = 2 * distinctCount f - 1 ∧
    (∀ k, distinctCount f ≤ k → k < (Machine.buildTree f).length →
      ∃ l r, (Machine.buildTree f)[k]? =
          some (.internal l r ((keyAt (Machine.buildTree f) l).freq + (keyAt (Machine.buildTree f) r).freq)) ∧
        l ∈ liveAt (Machine.buildTree f) k ∧ r ∈ liveAt (Machine.buildTree f) k ∧
        (keyAt (Machine.buildTree f) l).less (keyAt (Machine.buildTree f) r) = true ∧
        ∀ j ∈ liveAt (Machine.buildTree f) k, j ≠ l → j ≠ r →
          (keyAt (Machine.buildTree f) r).less (keyAt (Machine.buildTree f) j) = true)

/-- R38, R84: the node store BUILD_TREE makes is a strict tree in creation order, and its root's frequency is the sum of all
counts. -/
def Obligations.BuiltTreeMeetsTheStoreInvariant : Prop :=
  ∀ f : Vector Word 256, treeWf (Machine.buildTree f) = true ∧
    ∀ n : TreeNode, countTotal f < 2 ^ 32 → (Machine.buildTree f).getLast? = some n → n.freq.toNat = countTotal f

/-- R86: the codes are the bit paths from the root to the leaves, in the order of the leaves from left to right. -/
def Obligations.CodesAreTheTreePathsLeftToRight : Prop :=
  ∀ (nodes : List TreeNode) (ct : CodeTable) (l r : Nat) (f : Word), treeWf nodes = true →
    nodes.getLast? = some (.internal l r f) → genCodes nodes = .ok ct →
    (∀ b c, (b, c) ∈ ct ↔ ∃ fr, followPath nodes (nodes.length - 1) c = some (.leaf b fr)) ∧
    (ct.map Prod.snd).Pairwise (fun c d => ∃ p cs ds, c = p ++ false :: cs ∧ d = p ++ true :: ds)

/-- R86, R39: over every node store R38 allows, the code generator gives a prefix-free table with one code of 1 to 255 bits
per leaf; the root-only tree gives the code "0" and the absent tree the empty table. -/
def Obligations.GeneratedTableIsPrefixFree : Prop :=
  ∀ nodes : List TreeNode, treeWf nodes = true → ∃ ct, genCodes nodes = .ok ct ∧ prefixFree ct ∧ codeTableWf ct = true ∧
    (ct.map Prod.fst).Perm (leafBytes nodes) ∧
    (∀ b fr, nodes = [.leaf b fr] → ct = [(b, [false])]) ∧ (nodes = [] → ct = [])

/-- R92, R95: a table blob is the big-endian length of its entries section and the section, and deserializing it gives the
table back, with its order, and the offset of what follows. -/
def Obligations.TableRoundTripKeepsEveryEntry : Prop :=
  ∀ ct : CodeTable, codeTableWf ct = true → ∃ blob, serialize ct = .ok blob ∧
    blob.length = 4 + 2 * ct.length + (ct.map fun e => e.2.length).sum ∧
    (∃ b3 b2 b1 b0 section_, blob = b3 :: b2 :: b1 :: b0 :: section_ ∧
      b3.toNat * 2 ^ 24 + b2.toNat * 2 ^ 16 + b1.toNat * 2 ^ 8 + b0.toNat = section_.length) ∧
    ∀ t : Bytes, deserialize (blob ++ t) = .ok (ct, blob.length)

/-- R94: a table read from a blob is a legal table, the blob ends inside the source, and no byte after its end matters; one to
three bytes, and a declared length beyond the bytes there are, are CORRUPT_TABLE, as is every other input refused. -/
def Obligations.DeserializeLooksOnlyAtTheBlob : Prop :=
  (∀ (src : Bytes) (ct : CodeTable) (off : Nat), src ≠ [] → deserialize src = .ok (ct, off) →
    codeTableWf ct = true ∧ off ≤ src.length ∧ ∀ t, deserialize (src.take off ++ t) = .ok (ct, off)) ∧
  (∀ src : Bytes, 1 ≤ src.length → src.length ≤ 3 → deserialize src = .error .corruptTable) ∧
  (∀ (b3 b2 b1 b0 : Byte) (rest : Bytes),
    rest.length < b3.toNat * 2 ^ 24 + b2.toNat * 2 ^ 16 + b1.toNat * 2 ^ 8 + b0.toNat →
    deserialize (b3 :: b2 :: b1 :: b0 :: rest) = .error .corruptTable) ∧
  (∀ (src : Bytes) (k : ErrKind), deserialize src = .error k → k = .corruptTable)

/-- R13, R49: packing bits into bytes, first bit in bit 7, and unpacking are inverse. -/
def Obligations.BitPackingIsInvertibleMsbFirst : Prop :=
  (∀ bits : Bits, bits.length % 8 = 0 → bytesToBits (bitsToBytes bits) = bits) ∧
  (∀ s : Bytes, bitsToBytes (bytesToBits s) = s) ∧
  (∀ (v : Byte) (rest : Bytes) (k : Nat), k < 8 → (bytesToBits (v :: rest))[k]? = some (v.getLsbD (7 - k)))

/-- R98, R99: a payload is PAD, 0 to 7, and the codes of the input bytes in order with PAD zero bits, packed; packing fails
exactly when a source byte has no code, always with SYMBOL_NOT_IN_TABLE. -/
def Obligations.PayloadIsPadCountAndPackedCodes : Prop :=
  (∀ (d : Bytes) (ct : CodeTable) (p : Bytes) (nb : Nat), pack d ct = .ok (p, nb) →
    ∃ (codes : List Bits) (pad : Nat), codes.length = d.length ∧
      (∀ k (h : k < d.length), codes[k]? = lookup ct d[k]) ∧
      pad ≤ 7 ∧ (nb + pad) % 8 = 0 ∧ nb = codes.flatten.length ∧
      p.head? = some (BitVec.ofNat 8 pad) ∧ p.length = 1 + (nb + 7) / 8 ∧
      bytesToBits p.tail = codes.flatten ++ List.replicate pad false) ∧
  (∀ (d : Bytes) (ct : CodeTable) (k : ErrKind), pack d ct = .error k ↔
    k = .symbolNotInTable ∧ ∃ b ∈ d, b ∉ ct.map Prod.fst)

/-- R100: the trie can be rebuilt exactly from a prefix-free table without empty codes, else CORRUPT_TABLE; the trie of a
generated table of two or more codes has the shape of the Huffman tree, leaf for leaf, and as many nodes; that of the
single-leaf tree is a root with a left child only, and that of the empty table the root alone. -/
def Obligations.TrieExistsExactlyForPrefixFreeTables : Prop :=
  (∀ ct : CodeTable,
    ((∃ t, buildTrie ct = .ok t) ↔ prefixFree ct ∧ ∀ e ∈ ct, e.2 ≠ []) ∧
    (∀ k, buildTrie ct = .error k → k = .corruptTable)) ∧
  (∀ (nodes : List TreeNode) (ct : CodeTable) (t : Trie), treeWf nodes = true → 3 ≤ nodes.length →
    genCodes nodes = .ok ct → buildTrie ct = .ok t →
    Trie.mirrors nodes (nodes.length - 1) t ∧ t.size = nodes.length) ∧
  (∀ (b : Byte) (f : Word) (ct : CodeTable), genCodes [.leaf b f] = .ok ct →
    buildTrie ct = .ok (.node none (.node (some b) .absent .absent) .absent)) ∧
  buildTrie [] = .ok (.node none .absent .absent)

/-- R101: unpacking a packed buffer gives it back, for every prefix-free table that has its symbols. -/
def Obligations.UnpackUndoesPack : Prop :=
  ∀ (d : Bytes) (ct : CodeTable) (p : Bytes) (nb : Nat), ct ≠ [] → prefixFree ct → (∀ e ∈ ct, e.2 ≠ []) →
    pack d ct = .ok (p, nb) → unpack p ct = .ok (d, nb)

/-- R101, C1: what unpacks without error is exactly a sequence of whole codes, and nothing is truncated. The values of the
padding bits do not matter: payloads with one padding count and one length that agree on the data bits have one outcome,
under every table. -/
def Obligations.UnpackedBytesAccountForEveryDataBit : Prop :=
  (∀ (padByte : Byte) (packed out : Bytes) (ct : CodeTable) (n : Nat), ct ≠ [] → codeTableWf ct = true →
    unpack (padByte :: packed) ct = .ok (out, n) →
    padByte.toNat ≤ 7 ∧ n + padByte.toNat = 8 * packed.length ∧
    codeBits ct out = .ok ((bytesToBits packed).take n)) ∧
  (∀ (padByte : Byte) (p q : Bytes) (ct : CodeTable), p.length = q.length →
    (bytesToBits p).take (8 * p.length - padByte.toNat) = (bytesToBits q).take (8 * q.length - padByte.toNat) →
    unpack (padByte :: p) ct = unpack (padByte :: q) ct)

/-- R101, R114, C7: the order of the unpacker's checks: emptiness, then the trie, then the padding count. -/
def Obligations.UnpackChecksInOrder : Prop :=
  (∀ ct : CodeTable, unpack [] ct = .ok ([], 0)) ∧ (∀ p : Bytes, unpack p [] = .ok ([], 0)) ∧
  (∀ (padByte : Byte) (packed : Bytes) (ct : CodeTable), ct ≠ [] → ¬ prefixFree ct →
    unpack (padByte :: packed) ct = .error .corruptTable) ∧
  (∀ (padByte : Byte) (packed : Bytes) (ct : CodeTable), ct ≠ [] → prefixFree ct → (∀ e ∈ ct, e.2 ≠ []) →
    (7 < padByte.toNat ∨ 8 * packed.length < padByte.toNat) → unpack (padByte :: packed) ct = .error .corruptPayload)

/-- R108: decoding an encoded buffer with its flag gives the buffer. -/
def Obligations.DecodeUndoesEncode : Prop :=
  ∀ d : Bytes, d.length < 2 ^ 32 → ∃ e m, encodeFn d = .ok e ∧ decodeFn e.blob e.used = .ok (d, m)

/-- R108, R110, R111: an ENCODE followed by a DECODE of its output, with the flag ENCODE reported, writes the source bytes
at the new destination. -/
def Obligations.EncodeThenDecodeRestoresTheBuffer : Prop :=
  ∀ (s t : State) (dst cap : Word), s.params.devices = [] → s.mem.wf = true →
    exec .encode s = .next t → t.errBit = false →
    cap.toNat ≤ s.params.maxLen.toNat → dst.toNat + cap.toNat ≤ s.params.memSize → s.srcLen.toNat ≤ cap.toNat →
    ∃ u, exec (.decode t.rleUsed) { t with srcAddr := s.dstAddr, srcLen := t.outLen, dstAddr := dst, dstCap := cap } =
        .next u ∧
      u.errBit = false ∧ u.outLen = s.srcLen ∧ u.mem.readBytes dst.toNat s.srcLen.toNat = sourceOf s

/-! ### The host's side of the data memory (R43, R53, R57, R133) -/

/-- R133: while a command is in flight, a write to its source range or an access to its destination range stops the host
program; every other existing, ordinary byte may be written and read. That a write into both ranges stops as a write to the
source is the model's choice (assumption log 7), and that an illegal word in flight holds no range is its reading of R133
(assumption log 15). -/
def Obligations.BusyRangesAreOffLimitsToTheHost : Prop :=
  ∀ (s : State) (w : Word) (a : Nat) (b : Byte) (rest : List BusEvent), s.phase = .busy w →
    a < s.params.memSize → meetsDevice s.params a 1 = false →
    (∀ i, decode w = .ok i →
      (s.inbox = .memWrite a b :: rest →
        (readsSource i = true ∧ s.srcAddr.toNat ≤ a ∧ a < s.srcAddr.toNat + s.srcLen.toNat →
          step s = .fault .hostWroteSourceWhileBusy) ∧
        (¬ (readsSource i = true ∧ s.srcAddr.toNat ≤ a ∧ a < s.srcAddr.toNat + s.srcLen.toNat) →
          writesDest i = true ∧ s.dstAddr.toNat ≤ a ∧ a < s.dstAddr.toNat + s.dstCap.toNat →
          step s = .fault .hostTouchedDestinationWhileBusy) ∧
        (¬ (readsSource i = true ∧ s.srcAddr.toNat ≤ a ∧ a < s.srcAddr.toNat + s.srcLen.toNat) →
          ¬ (writesDest i = true ∧ s.dstAddr.toNat ≤ a ∧ a < s.dstAddr.toNat + s.dstCap.toNat) →
          step s = .next { s with inbox := rest, mem := s.mem.write a b })) ∧
      (s.inbox = .memRead a :: rest →
        (writesDest i = true ∧ s.dstAddr.toNat ≤ a ∧ a < s.dstAddr.toNat + s.dstCap.toNat →
          step s = .fault .hostTouchedDestinationWhileBusy) ∧
        (¬ (writesDest i = true ∧ s.dstAddr.toNat ≤ a ∧ a < s.dstAddr.toNat + s.dstCap.toNat) →
          step s = .next { s with inbox := rest, readData := (s.mem.read a).setWidth 32 }))) ∧
    ((∀ i, decode w ≠ .ok i) →
      (s.inbox = .memWrite a b :: rest → step s = .next { s with inbox := rest, mem := s.mem.write a b }) ∧
      (s.inbox = .memRead a :: rest →
        step s = .next { s with inbox := rest, readData := (s.mem.read a).setWidth 32 }))

/-- R43: in IDLE the host writes and reads every existing ordinary byte; an access to a byte that does not exist stops it
(assumption log 9). In every phase an access on the register bus outside the 256-byte window changes nothing (assumption log
10). Both are the model's reading of R20 and R43. -/
def Obligations.HostReachesExistingBytesAndTheWindowOnly : Prop :=
  (∀ (s : State) (a : Nat) (b : Byte) (rest : List BusEvent), s.phase = .idle → meetsDevice s.params a 1 = false →
    (s.inbox = .memWrite a b :: rest →
      (a < s.params.memSize → step s = .next { s with inbox := rest, mem := s.mem.write a b }) ∧
      (s.params.memSize ≤ a → step s = .fault .noSuchAddress)) ∧
    (s.inbox = .memRead a :: rest →
      (a < s.params.memSize → step s = .next { s with inbox := rest, readData := (s.mem.read a).setWidth 32 }) ∧
      (s.params.memSize ≤ a → step s = .fault .noSuchAddress))) ∧
  (∀ (s : State) (addr : Nat) (size : AccessSize) (rest : List BusEvent),
    (addr < s.params.csrBase ∨ s.params.csrBase + 256 ≤ addr) →
    (∀ v, s.inbox = .csrWrite addr size v :: rest → step s = .next { s with inbox := rest }) ∧
    (s.inbox = .csrRead addr size :: rest → step s = .next { s with inbox := rest }))

/-- R53: a used range that passed R70 and holds memory that is not ordinary, a host access to such memory, and a reset while
the command in flight uses such memory stop the machine by name (93_implementation_defined.md 1.4; that host accesses and
resets stop too is the model's choice, assumption log 8). -/
def Obligations.MemoryThatIsNotOrdinaryStopsByName : Prop :=
  (∀ (i : Instr) (s : State), badRange i s = false →
    ((readsSource i = true ∧ meetsDevice s.params s.srcAddr.toNat s.srcLen.toNat = true) ∨
      (writesDest i = true ∧ meetsDevice s.params s.dstAddr.toNat s.dstCap.toNat = true)) →
    exec i s = .fault .notOrdinaryMemory) ∧
  (∀ (s : State) (a : Nat) (b : Byte) (rest : List BusEvent), a < s.params.memSize → meetsDevice s.params a 1 = true →
    (s.inbox = .memWrite a b :: rest → step s = .fault .notOrdinaryMemory) ∧
    (s.inbox = .memRead a :: rest → step s = .fault .notOrdinaryMemory)) ∧
  (∀ (s : State) (w : Word) (i : Instr) (rest : List BusEvent), s.phase = .busy w → decode w = .ok i →
    badRange i s = false →
    ((readsSource i = true ∧ meetsDevice s.params s.srcAddr.toNat s.srcLen.toNat = true) ∨
      (writesDest i = true ∧ meetsDevice s.params s.dstAddr.toNat s.dstCap.toNat = true)) →
    s.inbox = .reset :: rest → step s = .fault .notOrdinaryMemory)

/-! ### Invariants -/

/-- The reset state meets the invariants. -/
def Obligations.ResetMeetsTheInvariants : Prop := Inv State.reset

/-- R24, R27: every step keeps the register block in one of the conditions of R24, with OUT_LEN at most MAX_LEN. -/
def Obligations.StepKeepsTheRegisterBlockLegal : Prop :=
  ∀ s t : State, csrLegal s → s.outLen.toNat ≤ s.params.maxLen.toNat → step s = .next t →
    csrLegal t ∧ t.outLen.toNat ≤ t.params.maxLen.toNat ∧ t.params = s.params

/-- R37, R38, R39: every step keeps the unit tables as those rules describe them. -/
def Obligations.StepKeepsTheUnitTablesLegal : Prop :=
  ∀ s t : State, tablesLegal s → step s = .next t → tablesLegal t

/-- R43, R47: every step keeps the data memory in its canonical form, with no byte outside it. -/
def Obligations.StepKeepsTheDataMemoryLegal : Prop :=
  ∀ s t : State, memoryLegal s → step s = .next t → memoryLegal t

/-- R43, R53, R133: over ordinary memory, a host that only uses the register window, and the platform's resets, never stop
the machine, whatever commands are issued. -/
def Obligations.RegisterOnlyProgramsAreSafe : Prop :=
  ∀ s : State, Inv s → s.params.devices = [] →
    (∀ e ∈ s.inbox, (∀ a b, e ≠ .memWrite a b) ∧ (∀ a, e ≠ .memRead a)) → SafeRun s
end

