-- ==== Sys2Proof/Laws/Memory.lean ====
section
/-! SUPPORT. The laws of the data memory: reading after writing, and that every operation keeps the canonical form and the
bound on listed addresses (20_memory.md R43 to R45, R53). -/

namespace Sys2Proof.Machine

/-- The canonical form as a proposition. -/
theorem Memory.wf_iff (m : Memory) :
    m.wf = true ↔ m.Pairwise (fun c d => c.1 < d.1) ∧ ∀ c ∈ m, c.2 ≠ Memory.blank := by
  simp [Memory.wf]

@[simp] theorem Memory.wf_nil : Memory.wf [] = true := by decide

theorem Memory.wf_cons (k : Nat) (v : Byte) (m : Memory) :
    Memory.wf ((k, v) :: m) = true ↔ (∀ c ∈ m, k < c.1) ∧ v ≠ Memory.blank ∧ m.wf = true := by
  simp only [Memory.wf_iff, List.pairwise_cons, List.mem_cons, forall_eq_or_imp]
  tauto

theorem Memory.within_iff (m : Memory) (n : Nat) : m.within n = true ↔ ∀ c ∈ m, c.1 < n := by
  simp [Memory.within]

/-- An address below every listed one reads blank. -/
theorem Memory.read_of_lt {m : Memory} {a : Nat} (h : ∀ c ∈ m, a < c.1) : m.read a = Memory.blank := by
  induction m with
  | nil => rfl
  | cons c m ih =>
    obtain ⟨k, v⟩ := c
    have hk : a < k := h (k, v) (by simp)
    simp only [Memory.read, show ¬ k = a by omega, if_false]
    exact ih fun d hd => h d (by simp [hd])

theorem Memory.mem_erase {m : Memory} {a : Nat} {c : Host.Cell} (h : c ∈ m.erase a) : c ∈ m := by
  induction m with
  | nil => simp [Memory.erase] at h
  | cons d m ih =>
    obtain ⟨k, v⟩ := d
    simp only [Memory.erase] at h
    split at h
    · simp [h]
    · split at h
      · exact h
      · rcases List.mem_cons.1 h with rfl | h
        · simp
        · simp [ih h]

theorem Memory.mem_insert {m : Memory} {a : Nat} {b : Byte} {c : Host.Cell} (h : c ∈ m.insert a b) :
    c = (a, b) ∨ c ∈ m := by
  induction m with
  | nil => simpa [Memory.insert] using h
  | cons d m ih =>
    obtain ⟨k, v⟩ := d
    simp only [Memory.insert] at h
    split at h
    · rcases List.mem_cons.1 h with h | h <;> simp [h]
    · split at h
      · rcases List.mem_cons.1 h with h | h
        · simp [h]
        · exact .inr h
      · rcases List.mem_cons.1 h with h | h
        · simp [h]
        · rcases ih h with h | h <;> simp [h]

theorem Memory.erase_wf {m : Memory} (a : Nat) (h : m.wf = true) : (m.erase a).wf = true := by
  induction m with
  | nil => rfl
  | cons d m ih =>
    obtain ⟨k, v⟩ := d
    have hc := (Memory.wf_cons k v m).1 h
    simp only [Memory.erase]
    split
    · exact hc.2.2
    · split
      · exact h
      · exact (Memory.wf_cons _ _ _).2 ⟨fun c hm => hc.1 c (Memory.mem_erase hm), hc.2.1, ih hc.2.2⟩

theorem Memory.insert_wf {m : Memory} (a : Nat) {b : Byte} (hb : b ≠ Memory.blank) (h : m.wf = true) :
    (m.insert a b).wf = true := by
  induction m with
  | nil => exact (Memory.wf_cons a b []).2 ⟨by simp, hb, rfl⟩
  | cons d m ih =>
    obtain ⟨k, v⟩ := d
    have hc := (Memory.wf_cons k v m).1 h
    simp only [Memory.insert]
    split
    · next e => subst e; exact (Memory.wf_cons _ _ _).2 ⟨hc.1, hb, hc.2.2⟩
    · split
      · next hne hlt =>
        refine (Memory.wf_cons _ _ _).2 ⟨fun c hm => ?_, hb, h⟩
        rcases List.mem_cons.1 hm with rfl | hm
        · exact hlt
        · exact lt_trans hlt (hc.1 c hm)
      · next hne hlt =>
        refine (Memory.wf_cons _ _ _).2 ⟨fun c hm => ?_, hc.2.1, ih hc.2.2⟩
        rcases Memory.mem_insert hm with rfl | hm
        · show k < a
          omega
        · exact hc.1 c hm

/-- A write keeps the canonical form. -/
theorem Memory.write_wf {m : Memory} (a : Nat) (b : Byte) (h : m.wf = true) : (m.write a b).wf = true := by
  unfold Memory.write
  split
  · exact Memory.erase_wf a h
  · next hb => exact Memory.insert_wf a hb h

/-- A transfer keeps the canonical form. -/
theorem Memory.writeBytes_wf {m : Memory} (a : Nat) (bs : Bytes) (h : m.wf = true) : (m.writeBytes a bs).wf = true := by
  induction bs generalizing m a with
  | nil => exact h
  | cons b bs ih => exact ih (a + 1) (Memory.write_wf a b h)

theorem Memory.read_erase {m : Memory} (h : m.wf = true) (a x : Nat) :
    (m.erase a).read x = if x = a then Memory.blank else m.read x := by
  induction m with
  | nil => simp [Memory.erase, Memory.read]
  | cons d m ih =>
    obtain ⟨k, v⟩ := d
    have hc := (Memory.wf_cons k v m).1 h
    simp only [Memory.erase]
    split
    · next e =>
      subst e
      split
      · next hx => subst hx; exact Memory.read_of_lt hc.1
      · next hx => simp [Memory.read, show ¬ k = x from fun e => hx e.symm]
    · next hne =>
      split
      · next hlt =>
        split
        · next hx =>
          subst hx
          refine Memory.read_of_lt fun c hm => ?_
          rcases List.mem_cons.1 hm with rfl | hm
          · exact hlt
          · exact lt_trans hlt (hc.1 c hm)
        · rfl
      · simp only [Memory.read, ih hc.2.2]
        by_cases hk : k = x
        · subst hk; simp [hne]
        · simp [hk]

theorem Memory.read_insert {m : Memory} (h : m.wf = true) (a : Nat) (b : Byte) (x : Nat) :
    (m.insert a b).read x = if x = a then b else m.read x := by
  induction m with
  | nil =>
    by_cases hx : x = a
    · simp [Memory.insert, Memory.read, hx]
    · simp [Memory.insert, Memory.read, hx, show ¬ a = x from fun e => hx e.symm]
  | cons d m ih =>
    obtain ⟨k, v⟩ := d
    have hc := (Memory.wf_cons k v m).1 h
    simp only [Memory.insert]
    split
    · next e =>
      subst e
      by_cases hx : k = x
      · simp [Memory.read, hx]
      · simp [Memory.read, hx, show ¬ x = k from fun e => hx e.symm]
    · next hne =>
      split
      · by_cases hx : a = x
        · simp [Memory.read, hx]
        · simp [Memory.read, hx, show ¬ x = a from fun e => hx e.symm]
      · simp only [Memory.read, ih hc.2.2]
        by_cases hk : k = x
        · subst hk; simp [hne]
        · simp [hk]

/-- Read after write: the byte written, and every other byte as before. -/
theorem Memory.read_write {m : Memory} (h : m.wf = true) (a : Nat) (b : Byte) (x : Nat) :
    (m.write a b).read x = if x = a then b else m.read x := by
  unfold Memory.write
  split
  · next hb => subst hb; exact Memory.read_erase h a x
  · exact Memory.read_insert h a b x

theorem Memory.write_within {m : Memory} {a n : Nat} (b : Byte) (ha : a < n) (h : m.within n = true) :
    (m.write a b).within n = true := by
  rw [Memory.within_iff] at h ⊢
  intro c hc
  unfold Memory.write at hc
  split at hc
  · exact h c (Memory.mem_erase hc)
  · rcases Memory.mem_insert hc with rfl | hc
    · exact ha
    · exact h c hc

/-- A transfer inside the memory lists no address outside it. -/
theorem Memory.writeBytes_within {m : Memory} {n : Nat} (a : Nat) (bs : Bytes) (ha : a + bs.length ≤ n)
    (h : m.within n = true) : (m.writeBytes a bs).within n = true := by
  induction bs generalizing m a with
  | nil => exact h
  | cons b bs ih =>
    simp only [List.length_cons] at ha
    exact ih (a + 1) (by omega) (Memory.write_within b (by omega) h)

@[simp] theorem Memory.writeBytes_nil (m : Memory) (a : Nat) : m.writeBytes a [] = m := rfl

theorem Memory.writeBytes_cons (m : Memory) (a : Nat) (b : Byte) (bs : Bytes) :
    m.writeBytes a (b :: bs) = (m.write a b).writeBytes (a + 1) bs := rfl

@[simp] theorem Memory.readBytes_length (m : Memory) (a n : Nat) : (m.readBytes a n).length = n := by
  simp [Memory.readBytes]

@[simp] theorem Memory.readBytes_zero (m : Memory) (a : Nat) : m.readBytes a 0 = [] := rfl

/-- The k-th byte of a transfer. -/
theorem Memory.readBytes_getElem (m : Memory) (a n k : Nat) (h : k < (m.readBytes a n).length) :
    (m.readBytes a n)[k] = m.read (a + k) := by
  simp [Memory.readBytes]

end Sys2Proof.Machine
end

