-- ==== Sys2Proof/Laws/State.lean ====
section
/-! SUPPORT. One lemma per field per update of the state, true by unfolding the update, so that no later proof unfolds a
record update. -/

namespace Sys2Proof.Machine

/-! ### Accepting a command (R34) -/

@[simp] theorem acceptCommand_params (w : Word) (s : State) : (acceptCommand w s).params = s.params := rfl
@[simp] theorem acceptCommand_phase (w : Word) (s : State) : (acceptCommand w s).phase = .busy w := rfl
@[simp] theorem acceptCommand_cmd (w : Word) (s : State) : (acceptCommand w s).cmd = w := rfl
@[simp] theorem acceptCommand_status (w : Word) (s : State) : (acceptCommand w s).status = statusBusy (lastOpOf w) := rfl
@[simp] theorem acceptCommand_srcAddr (w : Word) (s : State) : (acceptCommand w s).srcAddr = s.srcAddr := rfl
@[simp] theorem acceptCommand_srcLen (w : Word) (s : State) : (acceptCommand w s).srcLen = s.srcLen := rfl
@[simp] theorem acceptCommand_dstAddr (w : Word) (s : State) : (acceptCommand w s).dstAddr = s.dstAddr := rfl
@[simp] theorem acceptCommand_dstCap (w : Word) (s : State) : (acceptCommand w s).dstCap = s.dstCap := rfl
@[simp] theorem acceptCommand_outLen (w : Word) (s : State) : (acceptCommand w s).outLen = 0 := rfl
@[simp] theorem acceptCommand_aux (w : Word) (s : State) : (acceptCommand w s).aux = 0 := rfl
@[simp] theorem acceptCommand_freq (w : Word) (s : State) : (acceptCommand w s).freq = s.freq := rfl
@[simp] theorem acceptCommand_tree (w : Word) (s : State) : (acceptCommand w s).tree = s.tree := rfl
@[simp] theorem acceptCommand_codeTable (w : Word) (s : State) : (acceptCommand w s).codeTable = s.codeTable := rfl
@[simp] theorem acceptCommand_mem (w : Word) (s : State) : (acceptCommand w s).mem = s.mem := rfl
@[simp] theorem acceptCommand_inbox (w : Word) (s : State) : (acceptCommand w s).inbox = s.inbox := rfl
@[simp] theorem acceptCommand_readData (w : Word) (s : State) : (acceptCommand w s).readData = s.readData := rfl
@[simp] theorem acceptCommand_freeNext (w : Word) (s : State) : (acceptCommand w s).freeNext = s.freeNext := rfl

/-! ### Taking an error (R115) -/

@[simp] theorem failCommand_params (op : Byte) (k : ErrKind) (s : State) : (failCommand op k s).params = s.params := rfl
@[simp] theorem failCommand_phase (op : Byte) (k : ErrKind) (s : State) : (failCommand op k s).phase = .idle := rfl
@[simp] theorem failCommand_cmd (op : Byte) (k : ErrKind) (s : State) : (failCommand op k s).cmd = s.cmd := rfl
@[simp] theorem failCommand_status (op : Byte) (k : ErrKind) (s : State) : (failCommand op k s).status = statusFail op k := rfl
@[simp] theorem failCommand_srcAddr (op : Byte) (k : ErrKind) (s : State) : (failCommand op k s).srcAddr = s.srcAddr := rfl
@[simp] theorem failCommand_srcLen (op : Byte) (k : ErrKind) (s : State) : (failCommand op k s).srcLen = s.srcLen := rfl
@[simp] theorem failCommand_dstAddr (op : Byte) (k : ErrKind) (s : State) : (failCommand op k s).dstAddr = s.dstAddr := rfl
@[simp] theorem failCommand_dstCap (op : Byte) (k : ErrKind) (s : State) : (failCommand op k s).dstCap = s.dstCap := rfl
@[simp] theorem failCommand_outLen (op : Byte) (k : ErrKind) (s : State) : (failCommand op k s).outLen = 0 := rfl
@[simp] theorem failCommand_aux (op : Byte) (k : ErrKind) (s : State) : (failCommand op k s).aux = 0 := rfl
@[simp] theorem failCommand_freq (op : Byte) (k : ErrKind) (s : State) : (failCommand op k s).freq = s.freq := rfl
@[simp] theorem failCommand_tree (op : Byte) (k : ErrKind) (s : State) : (failCommand op k s).tree = s.tree := rfl
@[simp] theorem failCommand_codeTable (op : Byte) (k : ErrKind) (s : State) : (failCommand op k s).codeTable = s.codeTable := rfl
@[simp] theorem failCommand_mem (op : Byte) (k : ErrKind) (s : State) : (failCommand op k s).mem = s.mem := rfl
@[simp] theorem failCommand_inbox (op : Byte) (k : ErrKind) (s : State) : (failCommand op k s).inbox = s.inbox := rfl
@[simp] theorem failCommand_readData (op : Byte) (k : ErrKind) (s : State) : (failCommand op k s).readData = s.readData := rfl
@[simp] theorem failCommand_freeNext (op : Byte) (k : ErrKind) (s : State) : (failCommand op k s).freeNext = s.freeNext := rfl

/-! ### The commit (R69, R72) -/

@[simp] theorem commitCommand_params (op : Byte) (r : Result) (s : State) : (commitCommand op r s).params = s.params := rfl
@[simp] theorem commitCommand_phase (op : Byte) (r : Result) (s : State) : (commitCommand op r s).phase = .idle := rfl
@[simp] theorem commitCommand_cmd (op : Byte) (r : Result) (s : State) : (commitCommand op r s).cmd = s.cmd := rfl
@[simp] theorem commitCommand_status (op : Byte) (r : Result) (s : State) : (commitCommand op r s).status = statusDone op r.used := rfl
@[simp] theorem commitCommand_srcAddr (op : Byte) (r : Result) (s : State) : (commitCommand op r s).srcAddr = s.srcAddr := rfl
@[simp] theorem commitCommand_srcLen (op : Byte) (r : Result) (s : State) : (commitCommand op r s).srcLen = s.srcLen := rfl
@[simp] theorem commitCommand_dstAddr (op : Byte) (r : Result) (s : State) : (commitCommand op r s).dstAddr = s.dstAddr := rfl
@[simp] theorem commitCommand_dstCap (op : Byte) (r : Result) (s : State) : (commitCommand op r s).dstCap = s.dstCap := rfl
@[simp] theorem commitCommand_outLen (op : Byte) (r : Result) (s : State) : (commitCommand op r s).outLen = BitVec.ofNat 32 r.out.length := rfl
@[simp] theorem commitCommand_aux (op : Byte) (r : Result) (s : State) : (commitCommand op r s).aux = BitVec.ofNat 32 r.aux := rfl
@[simp] theorem commitCommand_freq (op : Byte) (r : Result) (s : State) : (commitCommand op r s).freq = r.freq := rfl
@[simp] theorem commitCommand_tree (op : Byte) (r : Result) (s : State) : (commitCommand op r s).tree = r.tree := rfl
@[simp] theorem commitCommand_codeTable (op : Byte) (r : Result) (s : State) : (commitCommand op r s).codeTable = r.codeTable := rfl
@[simp] theorem commitCommand_mem (op : Byte) (r : Result) (s : State) : (commitCommand op r s).mem = s.mem.writeBytes s.dstAddr.toNat r.out := rfl
@[simp] theorem commitCommand_inbox (op : Byte) (r : Result) (s : State) : (commitCommand op r s).inbox = s.inbox := rfl
@[simp] theorem commitCommand_readData (op : Byte) (r : Result) (s : State) : (commitCommand op r s).readData = s.readData := rfl
@[simp] theorem commitCommand_freeNext (op : Byte) (r : Result) (s : State) : (commitCommand op r s).freeNext = s.freeNext := rfl

/-! ### Reset (R128, R129) -/

@[simp] theorem resetEngine_params (s : State) : (resetEngine s).params = s.params := rfl
@[simp] theorem resetEngine_phase (s : State) : (resetEngine s).phase = .idle := rfl
@[simp] theorem resetEngine_cmd (s : State) : (resetEngine s).cmd = 0 := rfl
@[simp] theorem resetEngine_status (s : State) : (resetEngine s).status = 0 := rfl
@[simp] theorem resetEngine_srcAddr (s : State) : (resetEngine s).srcAddr = 0 := rfl
@[simp] theorem resetEngine_srcLen (s : State) : (resetEngine s).srcLen = 0 := rfl
@[simp] theorem resetEngine_dstAddr (s : State) : (resetEngine s).dstAddr = 0 := rfl
@[simp] theorem resetEngine_dstCap (s : State) : (resetEngine s).dstCap = 0 := rfl
@[simp] theorem resetEngine_outLen (s : State) : (resetEngine s).outLen = 0 := rfl
@[simp] theorem resetEngine_aux (s : State) : (resetEngine s).aux = 0 := rfl
@[simp] theorem resetEngine_freq (s : State) : (resetEngine s).freq = Vector.replicate 256 0 := rfl
@[simp] theorem resetEngine_tree (s : State) : (resetEngine s).tree = [] := rfl
@[simp] theorem resetEngine_codeTable (s : State) : (resetEngine s).codeTable = [] := rfl
@[simp] theorem resetEngine_mem (s : State) : (resetEngine s).mem = s.mem.writeBytes s.dstAddr.toNat (abandonedBytes s) := rfl
@[simp] theorem resetEngine_inbox (s : State) : (resetEngine s).inbox = s.inbox := rfl
@[simp] theorem resetEngine_readData (s : State) : (resetEngine s).readData = s.readData := rfl
@[simp] theorem resetEngine_freeNext (s : State) : (resetEngine s).freeNext = s.freeNext + abandonedLength s := rfl

/-! ### Placing a command word -/

@[simp] theorem placeCommand_params (w : Word) (s : State) : (placeCommand w s).params = s.params := rfl
@[simp] theorem placeCommand_phase (w : Word) (s : State) : (placeCommand w s).phase = .busy w := rfl
@[simp] theorem placeCommand_cmd (w : Word) (s : State) : (placeCommand w s).cmd = w := rfl
@[simp] theorem placeCommand_status (w : Word) (s : State) : (placeCommand w s).status = statusBusy (lastOpOf w) := rfl
@[simp] theorem placeCommand_srcAddr (w : Word) (s : State) : (placeCommand w s).srcAddr = s.srcAddr := rfl
@[simp] theorem placeCommand_srcLen (w : Word) (s : State) : (placeCommand w s).srcLen = s.srcLen := rfl
@[simp] theorem placeCommand_dstAddr (w : Word) (s : State) : (placeCommand w s).dstAddr = s.dstAddr := rfl
@[simp] theorem placeCommand_dstCap (w : Word) (s : State) : (placeCommand w s).dstCap = s.dstCap := rfl
@[simp] theorem placeCommand_outLen (w : Word) (s : State) : (placeCommand w s).outLen = 0 := rfl
@[simp] theorem placeCommand_aux (w : Word) (s : State) : (placeCommand w s).aux = 0 := rfl
@[simp] theorem placeCommand_freq (w : Word) (s : State) : (placeCommand w s).freq = s.freq := rfl
@[simp] theorem placeCommand_tree (w : Word) (s : State) : (placeCommand w s).tree = s.tree := rfl
@[simp] theorem placeCommand_codeTable (w : Word) (s : State) : (placeCommand w s).codeTable = s.codeTable := rfl
@[simp] theorem placeCommand_mem (w : Word) (s : State) : (placeCommand w s).mem = s.mem := rfl
@[simp] theorem placeCommand_inbox (w : Word) (s : State) : (placeCommand w s).inbox = .engineTurn :: s.inbox := rfl
@[simp] theorem placeCommand_readData (w : Word) (s : State) : (placeCommand w s).readData = s.readData := rfl
@[simp] theorem placeCommand_freeNext (w : Word) (s : State) : (placeCommand w s).freeNext = s.freeNext := rfl

/-! ### The host's side of the state -/

@[simp] theorem withHostSide_params (l : List BusEvent) (v : Word) (s : State) : (withHostSide l v s).params = s.params := rfl
@[simp] theorem withHostSide_phase (l : List BusEvent) (v : Word) (s : State) : (withHostSide l v s).phase = s.phase := rfl
@[simp] theorem withHostSide_cmd (l : List BusEvent) (v : Word) (s : State) : (withHostSide l v s).cmd = s.cmd := rfl
@[simp] theorem withHostSide_status (l : List BusEvent) (v : Word) (s : State) : (withHostSide l v s).status = s.status := rfl
@[simp] theorem withHostSide_srcAddr (l : List BusEvent) (v : Word) (s : State) : (withHostSide l v s).srcAddr = s.srcAddr := rfl
@[simp] theorem withHostSide_srcLen (l : List BusEvent) (v : Word) (s : State) : (withHostSide l v s).srcLen = s.srcLen := rfl
@[simp] theorem withHostSide_dstAddr (l : List BusEvent) (v : Word) (s : State) : (withHostSide l v s).dstAddr = s.dstAddr := rfl
@[simp] theorem withHostSide_dstCap (l : List BusEvent) (v : Word) (s : State) : (withHostSide l v s).dstCap = s.dstCap := rfl
@[simp] theorem withHostSide_outLen (l : List BusEvent) (v : Word) (s : State) : (withHostSide l v s).outLen = s.outLen := rfl
@[simp] theorem withHostSide_aux (l : List BusEvent) (v : Word) (s : State) : (withHostSide l v s).aux = s.aux := rfl
@[simp] theorem withHostSide_freq (l : List BusEvent) (v : Word) (s : State) : (withHostSide l v s).freq = s.freq := rfl
@[simp] theorem withHostSide_tree (l : List BusEvent) (v : Word) (s : State) : (withHostSide l v s).tree = s.tree := rfl
@[simp] theorem withHostSide_codeTable (l : List BusEvent) (v : Word) (s : State) : (withHostSide l v s).codeTable = s.codeTable := rfl
@[simp] theorem withHostSide_mem (l : List BusEvent) (v : Word) (s : State) : (withHostSide l v s).mem = s.mem := rfl
@[simp] theorem withHostSide_inbox (l : List BusEvent) (v : Word) (s : State) : (withHostSide l v s).inbox = l := rfl
@[simp] theorem withHostSide_readData (l : List BusEvent) (v : Word) (s : State) : (withHostSide l v s).readData = v := rfl
@[simp] theorem withHostSide_freeNext (l : List BusEvent) (v : Word) (s : State) : (withHostSide l v s).freeNext = s.freeNext := rfl

/-! ### Results that keep the tables -/

@[simp] theorem resultOf_out (s : State) (o : Bytes) (a : Nat) (u : Bool) : (resultOf s o a u).out = o := rfl
@[simp] theorem resultOf_aux (s : State) (o : Bytes) (a : Nat) (u : Bool) : (resultOf s o a u).aux = a := rfl
@[simp] theorem resultOf_used (s : State) (o : Bytes) (a : Nat) (u : Bool) : (resultOf s o a u).used = u := rfl
@[simp] theorem resultOf_freq (s : State) (o : Bytes) (a : Nat) (u : Bool) : (resultOf s o a u).freq = s.freq := rfl
@[simp] theorem resultOf_tree (s : State) (o : Bytes) (a : Nat) (u : Bool) : (resultOf s o a u).tree = s.tree := rfl
@[simp] theorem resultOf_codeTable (s : State) (o : Bytes) (a : Nat) (u : Bool) :
    (resultOf s o a u).codeTable = s.codeTable := rfl

end Sys2Proof.Machine
end

