-- ==== Sys2Proof/Laws/Status.lean ====
section
/-! SUPPORT. What the STATUS fields read in each value the engine writes (10_state.md R24, 30_encoding.md R69). The bits are read
off the shifts; LAST_OP is decided over the 256 opcodes. -/

namespace Sys2Proof.Machine

theorem statusBusy_busyBit (op : Byte) : (statusBusy op).getLsbD 0 = true := by
  simp [statusBusy]
theorem statusBusy_doneBit (op : Byte) : (statusBusy op).getLsbD 1 = false := by
  simp [statusBusy]
theorem statusBusy_errBit (op : Byte) : (statusBusy op).getLsbD 2 = false := by
  simp [statusBusy]
theorem statusBusy_lastOp (op : Byte) : (statusBusy op).extractLsb' 16 8 = op := by
  ext i hi
  have : 16 + i < 32 := by omega
  have : i < 32 := by omega
  interval_cases i <;> simp [statusBusy, BitVec.getLsbD_eq_getElem]

theorem statusDone_busyBit (op : Byte) (u : Bool) : (statusDone op u).getLsbD 0 = false := by
  cases u <;> simp [statusDone]
theorem statusDone_doneBit (op : Byte) (u : Bool) : (statusDone op u).getLsbD 1 = true := by
  cases u <;> simp [statusDone]
theorem statusDone_errBit (op : Byte) (u : Bool) : (statusDone op u).getLsbD 2 = false := by
  cases u <;> simp [statusDone]
theorem statusDone_rleUsed (op : Byte) (u : Bool) : (statusDone op u).getLsbD 3 = u := by
  cases u <;> simp [statusDone]
theorem statusDone_errCode (op : Byte) (u : Bool) : (statusDone op u).extractLsb' 8 4 = 0 := by
  ext i hi
  cases u <;> interval_cases i <;> simp [statusDone]
theorem statusDone_lastOp (op : Byte) (u : Bool) : (statusDone op u).extractLsb' 16 8 = op := by
  revert op; cases u <;> decide +kernel

theorem statusFail_busyBit (op : Byte) (k : ErrKind) : (statusFail op k).getLsbD 0 = false := by
  cases k <;> simp [statusFail, ErrKind.code]
theorem statusFail_doneBit (op : Byte) (k : ErrKind) : (statusFail op k).getLsbD 1 = true := by
  cases k <;> simp [statusFail, ErrKind.code]
theorem statusFail_errBit (op : Byte) (k : ErrKind) : (statusFail op k).getLsbD 2 = true := by
  cases k <;> simp [statusFail, ErrKind.code]
theorem statusFail_rleUsed (op : Byte) (k : ErrKind) : (statusFail op k).getLsbD 3 = false := by
  cases k <;> simp [statusFail, ErrKind.code]
theorem statusFail_errCode (op : Byte) (k : ErrKind) : (statusFail op k).extractLsb' 8 4 = k.code := by
  ext i hi
  cases k <;> interval_cases i <;> simp [statusFail, ErrKind.code]
theorem statusFail_lastOp (op : Byte) (k : ErrKind) : (statusFail op k).extractLsb' 16 8 = op := by
  revert op; cases k <;> decide +kernel

/-! ### The flags after each shared operation -/

@[simp] theorem failCommand_errBit (op : Byte) (k : ErrKind) (s : State) : (failCommand op k s).errBit = true :=
  statusFail_errBit op k
@[simp] theorem failCommand_errCode (op : Byte) (k : ErrKind) (s : State) : (failCommand op k s).errCode = k.code :=
  statusFail_errCode op k
@[simp] theorem failCommand_doneBit (op : Byte) (k : ErrKind) (s : State) : (failCommand op k s).doneBit = true :=
  statusFail_doneBit op k
@[simp] theorem failCommand_busyBit (op : Byte) (k : ErrKind) (s : State) : (failCommand op k s).busyBit = false :=
  statusFail_busyBit op k
@[simp] theorem failCommand_rleUsed (op : Byte) (k : ErrKind) (s : State) : (failCommand op k s).rleUsed = false :=
  statusFail_rleUsed op k
@[simp] theorem failCommand_lastOp (op : Byte) (k : ErrKind) (s : State) : (failCommand op k s).lastOp = op :=
  statusFail_lastOp op k

@[simp] theorem commitCommand_errBit (op : Byte) (r : Result) (s : State) : (commitCommand op r s).errBit = false :=
  statusDone_errBit op r.used
@[simp] theorem commitCommand_errCode (op : Byte) (r : Result) (s : State) : (commitCommand op r s).errCode = 0 :=
  statusDone_errCode op r.used
@[simp] theorem commitCommand_doneBit (op : Byte) (r : Result) (s : State) : (commitCommand op r s).doneBit = true :=
  statusDone_doneBit op r.used
@[simp] theorem commitCommand_busyBit (op : Byte) (r : Result) (s : State) : (commitCommand op r s).busyBit = false :=
  statusDone_busyBit op r.used
@[simp] theorem commitCommand_rleUsed (op : Byte) (r : Result) (s : State) : (commitCommand op r s).rleUsed = r.used :=
  statusDone_rleUsed op r.used
@[simp] theorem commitCommand_lastOp (op : Byte) (r : Result) (s : State) : (commitCommand op r s).lastOp = op :=
  statusDone_lastOp op r.used

/-- The codes of different kinds differ (R112). -/
theorem ErrKind.code_injective (k l : ErrKind) (h : k.code = l.code) : k = l := by
  cases k <;> cases l <;> first | rfl | exact absurd h (by decide)

end Sys2Proof.Machine
end

