-- ==== Sys2Proof/Laws/Complete.lean ====
section
/-! SUPPORT. Everything the completion framework can do (30_encoding.md R69), said once, and the body of every command, so
that a fact about all twelve meanings is a fact about `completeCommand` and the bodies. -/

namespace Sys2Proof.Machine

/-- The body each command runs (R69 step 4). -/
def bodyOf : Instr → State → Bytes → Except ErrKind Result
  | .encode,      s, src => encodeBody s src
  | .decode r,    s, src => decodeBody r s src
  | .rleEnc,      s, src => rleEncBody s src
  | .rleDec,      s, src => rleDecBody s src
  | .freq,        s, src => freqBody s src
  | .buildTree,   s, _   => buildTreeBody s
  | .genCodes,    s, _   => genCodesBody s
  | .serialize,   s, _   => serializeBody s
  | .deserialize, s, src => deserializeBody s src
  | .pack,        s, src => packBody s src
  | .buildTrie,   s, _   => buildTrieBody s
  | .unpack,      s, src => unpackBody s src

/-- Every meaning is the framework over its body, but for GEN_CODES' guard. -/
theorem exec_eq_complete (i : Instr) (s : State) (h : i = .genCodes → treeWf s.tree = true) :
    exec i s = completeCommand i (bodyOf i s) s := by
  cases i <;> first | rfl | (simp only [exec, execGenCodes, h rfl, if_true]; rfl)

/-- GEN_CODES over a store R38 rules out stops (assumption log 12). -/
theorem exec_genCodes_malformed (s : State) (h : treeWf s.tree = false) :
    exec .genCodes s = .fault .malformedTree := by
  simp [exec, execGenCodes, h]

/-- An `exec` that answers a next state went through the framework. -/
theorem exec_next_complete {i : Instr} {s t : State} (h : exec i s = .next t) :
    completeCommand i (bodyOf i s) s = .next t := by
  by_cases hg : i = .genCodes → treeWf s.tree = true
  · rwa [← exec_eq_complete i s hg]
  · push Not at hg
    obtain ⟨rfl, hw⟩ := hg
    rw [exec_genCodes_malformed s (by simpa using hw)] at h
    cases h

/-- The next states of the framework: BAD_RANGE; an error of the body; DST_OVERFLOW; the commit. -/
theorem completeCommand_next {i : Instr} {body : Bytes → Except ErrKind Result} {s t : State}
    (h : completeCommand i body s = .next t) :
    (badRange i s = true ∧ t = failCommand i.opcode .badRange s) ∨
    (badRange i s = false ∧ usesDevice i s = false ∧
      ((∃ k, body (sourceBytes i s) = .error k ∧ t = failCommand i.opcode k s) ∨
       ∃ r, body (sourceBytes i s) = .ok r ∧
        ((writesDest i = true ∧ s.dstCap.toNat < r.out.length ∧ t = failCommand i.opcode .dstOverflow s) ∨
         ((writesDest i = true → r.out.length ≤ s.dstCap.toNat) ∧ t = commitCommand i.opcode r s)))) := by
  unfold completeCommand at h
  split at h
  · next hb => exact .inl ⟨hb, by cases h; rfl⟩
  · next hb =>
    split at h
    · cases h
    · next hd =>
      refine .inr ⟨by simpa using hb, by simpa using hd, ?_⟩
      split at h
      · next k hk => exact .inl ⟨k, hk, by cases h; rfl⟩
      · next r hr =>
        refine .inr ⟨r, hr, ?_⟩
        split at h
        · next ho =>
          simp only [Bool.and_eq_true, decide_eq_true_eq] at ho
          exact .inl ⟨ho.1, ho.2, by cases h; rfl⟩
        · next ho =>
          simp only [Bool.and_eq_true, decide_eq_true_eq, not_and, not_lt] at ho
          exact .inr ⟨ho, by cases h; rfl⟩

/-- The only faults of a meaning: memory that is not ordinary, and GEN_CODES' guard. -/
theorem exec_fault {i : Instr} {s : State} {f : Fault} (h : exec i s = .fault f) :
    (f = .notOrdinaryMemory ∧ badRange i s = false ∧ usesDevice i s = true) ∨
    (f = .malformedTree ∧ i = .genCodes ∧ treeWf s.tree = false) := by
  by_cases hg : i = .genCodes → treeWf s.tree = true
  · rw [exec_eq_complete i s hg] at h
    unfold completeCommand at h
    split at h
    · cases h
    · next hb =>
      split at h
      · next hd => exact .inl ⟨by cases h; rfl, by simpa using hb, hd⟩
      · split at h
        · cases h
        · split at h <;> cases h
  · push Not at hg
    obtain ⟨rfl, hw⟩ := hg
    have hw : treeWf s.tree = false := by simpa using hw
    rw [exec_genCodes_malformed s hw] at h
    exact .inr ⟨by cases h; rfl, rfl, hw⟩

/-- No meaning refuses. -/
theorem exec_not_refused (i : Instr) (s : State) (r : Refusal) : exec i s ≠ .refused r := by
  intro h
  by_cases hg : i = .genCodes → treeWf s.tree = true
  · rw [exec_eq_complete i s hg] at h
    unfold completeCommand at h
    repeat' split at h
    all_goals cases h
  · push Not at hg
    obtain ⟨rfl, hw⟩ := hg
    rw [exec_genCodes_malformed s (by simpa using hw)] at h
    cases h

/-- The framework runs to the commit. -/
theorem completeCommand_commit {i : Instr} {body : Bytes → Except ErrKind Result} {s : State} {r : Result}
    (hb : badRange i s = false) (hd : usesDevice i s = false) (hr : body (sourceBytes i s) = .ok r)
    (hc : writesDest i = true → r.out.length ≤ s.dstCap.toNat) :
    completeCommand i body s = .next (commitCommand i.opcode r s) := by
  have : (writesDest i && decide (s.dstCap.toNat < r.out.length)) = false := by
    cases hw : writesDest i
    · rfl
    · simpa using hc hw
  simp [completeCommand, hb, hd, hr, this]

/-- The framework ends in an error of the body. -/
theorem completeCommand_error {i : Instr} {body : Bytes → Except ErrKind Result} {s : State} {k : ErrKind}
    (hb : badRange i s = false) (hd : usesDevice i s = false) (hr : body (sourceBytes i s) = .error k) :
    completeCommand i body s = .next (failCommand i.opcode k s) := by
  simp [completeCommand, hb, hd, hr]

/-- The framework ends in DST_OVERFLOW (R71). -/
theorem completeCommand_overflow {i : Instr} {body : Bytes → Except ErrKind Result} {s : State} {r : Result}
    (hb : badRange i s = false) (hd : usesDevice i s = false) (hr : body (sourceBytes i s) = .ok r)
    (hw : writesDest i = true) (hc : s.dstCap.toNat < r.out.length) :
    completeCommand i body s = .next (failCommand i.opcode .dstOverflow s) := by
  simp [completeCommand, hb, hd, hr, hw, hc]

/-- A command of a bad range ends in BAD_RANGE (R70). -/
theorem completeCommand_badRange {i : Instr} {body : Bytes → Except ErrKind Result} {s : State}
    (hb : badRange i s = true) : completeCommand i body s = .next (failCommand i.opcode .badRange s) := by
  simp [completeCommand, hb]

/-- The range check in words (R70). -/
theorem outOfRange_iff (p : Params) (a n : Word) :
    outOfRange p a n = true ↔ p.maxLen.toNat < n.toNat ∨ p.memSize < a.toNat + n.toNat := by
  simp [outOfRange]

theorem badRange_iff (i : Instr) (s : State) :
    badRange i s = true ↔
      (readsSource i = true ∧ outOfRange s.params s.srcAddr s.srcLen = true) ∨
      (writesDest i = true ∧ outOfRange s.params s.dstAddr s.dstCap = true) := by
  simp [badRange]

/-- A usable source passes the source half of the checks. -/
theorem sourceReady_outOfRange {s : State} (h : sourceReady s) : outOfRange s.params s.srcAddr s.srcLen = false := by
  have := (outOfRange_iff s.params s.srcAddr s.srcLen).not.2 (by have := h.1; have := h.2.1; omega)
  simpa using this

theorem destReady_outOfRange {s : State} (h : destReady s) : outOfRange s.params s.dstAddr s.dstCap = false := by
  have := (outOfRange_iff s.params s.dstAddr s.dstCap).not.2 (by have := h.1; have := h.2.1; omega)
  simpa using this

/-- With usable ranges, no command reports BAD_RANGE. -/
theorem badRange_of_ready {i : Instr} {s : State} (hs : readsSource i = true → sourceReady s)
    (hd : writesDest i = true → destReady s) : badRange i s = false := by
  unfold badRange
  cases hr : readsSource i <;> cases hw : writesDest i <;>
    simp_all [sourceReady_outOfRange, destReady_outOfRange]

/-- With usable ranges, no command meets a device. -/
theorem usesDevice_of_ready {i : Instr} {s : State} (hs : readsSource i = true → sourceReady s)
    (hd : writesDest i = true → destReady s) : usesDevice i s = false := by
  unfold usesDevice
  cases hr : readsSource i <;> cases hw : writesDest i
  · rfl
  · simpa using (hd hw).2.2
  · simpa using (hs hr).2.2
  · simpa using ⟨(hs hr).2.2, (hd hw).2.2⟩

/-- Over ordinary memory, no command meets a device. -/
theorem usesDevice_of_no_devices {i : Instr} {s : State} (h : s.params.devices = []) : usesDevice i s = false := by
  simp [usesDevice, meetsDevice, h]

theorem sourceBytes_of_reads {i : Instr} (s : State) (h : readsSource i = true) : sourceBytes i s = sourceOf s := by
  simp [sourceBytes, sourceOf, h]

@[simp] theorem sourceOf_length (s : State) : (sourceOf s).length = s.srcLen.toNat := by simp [sourceOf]

end Sys2Proof.Machine
end

