-- ==== Sys2Proof/Laws/Algorithms.lean ====
section
/-! SUPPORT. The small lemmas of the pure functions: unfolding equations, lengths, and the kinds each can raise (40_rle.md to
44_pipeline.md). Later proofs cite these and do not unfold the functions. -/

namespace Sys2Proof.Machine

/-! ### Bits and bytes (R13) -/

@[simp] theorem byteBits_length (v : Byte) : (byteBits v).length = 8 := rfl

@[simp] theorem bytesToBits_nil : bytesToBits [] = [] := rfl

@[simp] theorem bytesToBits_cons (v : Byte) (s : Bytes) : bytesToBits (v :: s) = byteBits v ++ bytesToBits s := rfl

@[simp] theorem bytesToBits_length (s : Bytes) : (bytesToBits s).length = 8 * s.length := by
  induction s with
  | nil => rfl
  | cons v s ih => rw [bytesToBits_cons, List.length_append, ih, byteBits_length, List.length_cons]; omega

/-- A byte is rebuilt from its bits. -/
theorem byteOfBits_byteBits (v : Byte) :
    byteOfBits (v.getLsbD 7) (v.getLsbD 6) (v.getLsbD 5) (v.getLsbD 4) (v.getLsbD 3) (v.getLsbD 2) (v.getLsbD 1)
      (v.getLsbD 0) = v := by
  revert v; decide +kernel

/-- Eight bits are read back from their byte. -/
theorem byteBits_byteOfBits (b7 b6 b5 b4 b3 b2 b1 b0 : Bool) :
    byteBits (byteOfBits b7 b6 b5 b4 b3 b2 b1 b0) = [b7, b6, b5, b4, b3, b2, b1, b0] := by
  revert b7 b6 b5 b4 b3 b2 b1 b0; decide +kernel

theorem bitsToBytes_cons8 (b7 b6 b5 b4 b3 b2 b1 b0 : Bool) (rest : Bits) :
    bitsToBytes (b7 :: b6 :: b5 :: b4 :: b3 :: b2 :: b1 :: b0 :: rest) =
      byteOfBits b7 b6 b5 b4 b3 b2 b1 b0 :: bitsToBytes rest := rfl

@[simp] theorem be32_length (n : Nat) : (be32 n).length = 4 := rfl

theorem padCount_le (n : Nat) : padCount n ≤ 7 := by unfold padCount; omega

theorem padCount_mod (n : Nat) : (n + padCount n) % 8 = 0 := by unfold padCount; omega

@[simp] theorem bitOfChr_chr (b : Bool) : bitOfChr (chr b) = b := by cases b <;> rfl

@[simp] theorem isCodeChar_chr (b : Bool) : isCodeChar (chr b) = true := by cases b <;> rfl

/-! ### Run-length codec (R79, R80) -/

@[simp] theorem rleEncode_nil : rleEncode [] = ⟨[], false, 0⟩ := rfl

/-- The expander raises CORRUPT_RLE only. -/
theorem expandPairs_error {e : Bytes} {k : ErrKind} (h : expandPairs e = .error k) : k = .corruptRle := by
  fun_induction expandPairs e with
  | case1 => cases h; rfl
  | case2 b n rest hn k' hk ih => cases h; exact ih hk
  | case3 => cases h
  | case4 => cases h

theorem rleDecode_error {e : Bytes} {k : ErrKind} (h : rleDecode e = .error k) : k = .corruptRle := by
  unfold rleDecode at h
  split at h
  · cases h; rfl
  · exact expandPairs_error h

/-! ### Code table (R39, R93, R94) -/

@[simp] theorem lookup_nil (b : Byte) : lookup [] b = none := rfl

theorem lookup_cons (k : Byte) (c : Bits) (ct : CodeTable) (b : Byte) :
    lookup ((k, c) :: ct) b = if k = b then some c else lookup ct b := rfl

/-- A code is found exactly for the bytes of the table's entries. -/
theorem lookup_eq_none_iff (ct : CodeTable) (b : Byte) : lookup ct b = none ↔ b ∉ ct.map Prod.fst := by
  induction ct with
  | nil => simp
  | cons e ct ih =>
    obtain ⟨k, c⟩ := e
    rw [lookup_cons]
    by_cases hk : k = b
    · simp [hk]
    · simp [hk, ih, show ¬ b = k from fun h => hk h.symm]

/-- A code found is an entry's. -/
theorem mem_of_lookup {ct : CodeTable} {b : Byte} {c : Bits} (h : lookup ct b = some c) : (b, c) ∈ ct := by
  induction ct with
  | nil => cases h
  | cons e ct ih =>
    obtain ⟨k, d⟩ := e
    rw [lookup_cons] at h
    split at h
    · next hk => cases h; subst hk; simp
    · simp [ih h]

theorem entriesSection_error {ct : CodeTable} {k : ErrKind} (h : entriesSection ct = .error k) :
    k = .unrepresentableCode := by
  fun_induction entriesSection ct with
  | case1 => cases h
  | case2 => cases h; rfl
  | case3 b c ct hc k' hk ih => cases h; exact ih hk
  | case4 => cases h

theorem serialize_error {ct : CodeTable} {k : ErrKind} (h : serialize ct = .error k) : k = .unrepresentableCode := by
  unfold serialize at h
  split at h
  · next k' hk => cases h; exact entriesSection_error hk
  · cases h

theorem parseEntries_error {f : Nat} {r : Bytes} {ct : CodeTable} {k : ErrKind} (h : parseEntries f r ct = .error k) :
    k = .corruptTable := by
  fun_induction parseEntries f r ct with
  | case1 => cases h
  | case2 => cases h; rfl
  | case3 => cases h; rfl
  | case4 => cases h; rfl
  | case5 => cases h; rfl
  | case6 => cases h; rfl
  | case7 => cases h; rfl
  | case8 f ct b n rest h1 h2 h3 h4 ih => exact ih h

theorem deserialize_error {src : Bytes} {k : ErrKind} (h : deserialize src = .error k) : k = .corruptTable := by
  unfold deserialize at h
  split at h
  · cases h
  · dsimp only at h
    split at h
    · cases h; rfl
    · split at h
      · next k' hk => cases h; exact parseEntries_error hk
      · cases h
  · cases h; rfl

/-! ### Code generator (R86) -/

theorem genCodes_error {nodes : List TreeNode} {k : ErrKind} (h : genCodes nodes = .error k) :
    k = .unrepresentableCode := by
  unfold genCodes at h
  split at h
  · cases h
  · cases h
  · simp only at h
    split at h
    · cases h; rfl
    · cases h

/-! ### Bitstream (R99 to R101) -/

theorem codeBits_cons (ct : CodeTable) (b : Byte) (bs : Bytes) :
    codeBits ct (b :: bs) =
      match lookup ct b with
      | none => .error .symbolNotInTable
      | some c =>
        match codeBits ct bs with
        | .error k => .error k
        | .ok rest => .ok (c ++ rest) := rfl

theorem codeBits_error {ct : CodeTable} {d : Bytes} {k : ErrKind} (h : codeBits ct d = .error k) :
    k = .symbolNotInTable := by
  fun_induction codeBits ct d with
  | case1 => cases h
  | case2 => cases h; rfl
  | case3 b bs c hc k' hk ih => cases h; exact ih hk
  | case4 => cases h

theorem pack_error {d : Bytes} {ct : CodeTable} {k : ErrKind} (h : pack d ct = .error k) : k = .symbolNotInTable := by
  unfold pack at h
  split at h
  · next k' hk => cases h; exact codeBits_error hk
  · cases h

theorem Trie.insert_error {t : Trie} {c : Bits} {b : Byte} {k : ErrKind} (h : t.insert c b = .error k) :
    k = .corruptTable := by
  fun_induction Trie.insert t c b with
  | case1 => cases h
  | case2 b cs k' hk ih => cases h; exact ih hk
  | case3 => cases h
  | case4 b cs k' hk ih => cases h; exact ih hk
  | case5 => cases h
  | case6 => cases h
  | case7 => cases h; rfl
  | case8 => cases h; rfl
  | case9 b m z o cs hm k' hk ih => cases h; exact ih hk
  | case10 => cases h
  | case11 => cases h; rfl
  | case12 b m z o cs hm k' hk ih => cases h; exact ih hk
  | case13 => cases h

theorem insertAll_error {t : Trie} {ct : CodeTable} {k : ErrKind} (h : insertAll t ct = .error k) :
    k = .corruptTable := by
  fun_induction insertAll t ct with
  | case1 => cases h
  | case2 => cases h; rfl
  | case3 t b c ct hc k' hk => cases h; exact Trie.insert_error hk
  | case4 t b c ct hc t' ht ih => exact ih h

theorem buildTrie_error {ct : CodeTable} {k : ErrKind} (h : buildTrie ct = .error k) : k = .corruptTable :=
  insertAll_error h

theorem walkBits_error {root t : Trie} {away : Bool} {bits : Bits} {k : ErrKind}
    (h : walkBits root t away bits = .error k) : k = .corruptPayload := by
  induction bits generalizing t away k with
  | nil =>
    unfold walkBits at h
    split at h
    · cases h; rfl
    · cases h
  | cons bit bits ih =>
    unfold walkBits at h
    split at h
    · cases h; rfl
    · exact ih h
    · split at h
      · next k' hk => cases h; exact ih hk
      · cases h

theorem unpackBits_error {t : Trie} {p : Byte} {bits : Bits} {k : ErrKind} (h : unpackBits t p bits = .error k) :
    k = .corruptPayload := by
  unfold unpackBits at h
  split at h
  · cases h; rfl
  · split at h
    · cases h; rfl
    · split at h
      · next k' hk => cases h; exact walkBits_error hk
      · cases h

theorem unpack_error {p : Bytes} {ct : CodeTable} {k : ErrKind} (h : unpack p ct = .error k) :
    k = .corruptTable ∨ k = .corruptPayload := by
  unfold unpack at h
  split at h
  · cases h
  · split at h
    · cases h
    · split at h
      · next k' hk => cases h; exact .inl (buildTrie_error hk)
      · exact .inr (unpackBits_error h)

/-! ### Sequencing (R106, R107) -/

@[simp] theorem encodeFn_nil : encodeFn [] = .ok ⟨[], false, 0⟩ := rfl

theorem decodeFn_error {src : Bytes} {r : Bool} {k : ErrKind} (h : decodeFn src r = .error k) :
    k = .corruptTable ∨ k = .corruptPayload ∨ (k = .corruptRle ∧ r = true) := by
  unfold decodeFn at h
  split at h
  · next k' hk => cases h; exact .inl (deserialize_error hk)
  · split at h
    · next k' hk => cases h; rcases unpack_error hk with h | h <;> simp [h]
    · split at h
      · next hr =>
        split at h
        · next k' hk => cases h; exact .inr (.inr ⟨rleDecode_error hk, hr⟩)
        · cases h
      · cases h

end Sys2Proof.Machine
end

