-- ==== Sys2Proof/Laws/Decode.lean ====
section
/-! SUPPORT. The small lemmas of the decoder (30_encoding.md R62 to R67): what the opcode map gives for each of the 256
opcodes, and what an accepted and a rejected word look like. -/

namespace Sys2Proof

open Machine (lastOpOf)

/-- The opcode map agrees with `Instr.opcode` and `Instr.flag` (R66). -/
theorem commandOf_spec (op : Byte) (r : Bool) (i : Instr) (h : commandOf op r = some i) :
    i.opcode = op ∧ i.flag = (r && op == 0x02) := by
  have all : ∀ (op : Byte) (r : Bool),
      (commandOf op r).all fun i => i.opcode == op && i.flag == (r && op == 0x02) := by decide +kernel
  have := all op r
  rw [h] at this
  simpa using this

/-- The opcode map is defined exactly on the assigned opcodes (R66, R68). -/
theorem commandOf_isSome (op : Byte) (r : Bool) : (commandOf op r).isSome = assignedOpcodes.contains op := by
  revert op r; decide +kernel

/-- Every command's opcode selects it (R66). -/
theorem commandOf_opcode (i : Instr) : commandOf i.opcode i.flag = some i := by
  cases i <;> rfl

/-- What accepted fields look like (R67). -/
theorem decodeFields_ok {f : CommandFields} {i : Instr} (h : decodeFields f = .ok i) :
    i.opcode = f.opcode ∧ f.reserved = 0 ∧ i.flag = f.r := by
  unfold decodeFields at h
  split at h
  · cases h
  · next j hj =>
    split at h
    · cases h
    · next hr =>
      split at h
      · cases h
      · next hf =>
        cases h
        obtain ⟨ho, hfl⟩ := commandOf_spec _ _ _ hj
        refine ⟨ho, by simpa using hr, ?_⟩
        rw [hfl]
        cases hb : f.r
        · rfl
        · have : f.opcode = 0x02 := by
            by_contra hne
            exact hf ⟨hb, hne⟩
          simp [this]

/-- What an accepted word looks like: its opcode is the command's, its reserved bits are clear, its R bit is the command's. -/
theorem decode_ok {w : Word} {i : Instr} (h : decode w = .ok i) :
    i.opcode = lastOpOf w ∧ w.extractLsb' 9 23 = 0 ∧ i.flag = w.getLsbD 8 :=
  decodeFields_ok (f := fieldsOf w) h

/-- A word with an unassigned opcode, a reserved bit set, or R = 1 on another opcode than DECODE is rejected (R67). -/
theorem decode_error {w : Word} (h : (fieldsOf w).wf = false) : ∃ e, decode w = .error e := by
  cases hd : decode w with
  | error e => exact ⟨e, rfl⟩
  | ok i =>
    exfalso
    unfold decode decodeFields at hd
    split at hd
    · cases hd
    · next j hj =>
      split at hd
      · cases hd
      · next hr =>
        split at hd
        · cases hd
        · next hf =>
          have h1 : (fieldsOf w).opcodeAssigned = true := by
            rw [CommandFields.opcodeAssigned, ← commandOf_isSome _ (fieldsOf w).r, hj]; rfl
          have h2 : (fieldsOf w).reservedClear = true := by
            simpa [CommandFields.reservedClear] using hr
          have h3 : (fieldsOf w).flagAllowed = true := by
            cases hb : (fieldsOf w).r
            · simp [CommandFields.flagAllowed, hb]
            · have : (fieldsOf w).opcode = 0x02 := by
                by_contra hne
                exact hf ⟨hb, hne⟩
              simp [CommandFields.flagAllowed, this]
          simp [CommandFields.wf, h1, h2, h3] at h

end Sys2Proof
end

