-- ==== Sys2Proof/Laws/PerInstr.lean ====
section
/-! SUPPORT. Facts said of every command as syntax, one lemma per constructor: the word of each command has exactly the
fields R62 gives it, and those fields are legal (30_encoding.md R67). -/

namespace Sys2Proof.Laws.EncodedFields

/-- The word's fields are the command's own, and they pass the three checks of R67. -/
def Statement (i : Instr) : Prop := fieldsOf (Sys2Proof.encode i) = i.fields ∧ i.wf = true

theorem encode : Statement .encode := ⟨by decide, by decide⟩
theorem decode (r : Bool) : Statement (.decode r) := by cases r <;> exact ⟨by decide, by decide⟩
theorem rleEnc : Statement .rleEnc := ⟨by decide, by decide⟩
theorem rleDec : Statement .rleDec := ⟨by decide, by decide⟩
theorem freq : Statement .freq := ⟨by decide, by decide⟩
theorem buildTree : Statement .buildTree := ⟨by decide, by decide⟩
theorem genCodes : Statement .genCodes := ⟨by decide, by decide⟩
theorem serialize : Statement .serialize := ⟨by decide, by decide⟩
theorem deserialize : Statement .deserialize := ⟨by decide, by decide⟩
theorem pack : Statement .pack := ⟨by decide, by decide⟩
theorem buildTrie : Statement .buildTrie := ⟨by decide, by decide⟩
theorem unpack : Statement .unpack := ⟨by decide, by decide⟩

end Sys2Proof.Laws.EncodedFields
end

