-- ==== Sys2Proof/Laws/Step.lean ====
section
/-! SUPPORT. Everything one step can do, said once: which events there are and what each answers (10_state.md R31 to R35,
20_memory.md R43, 70_reset_and_hazards.md R128 to R133). -/

namespace Sys2Proof.Machine

@[simp] theorem step_of_nil {s : State} (h : s.inbox = []) : step s = engineTurn s := by simp [step, h]

@[simp] theorem step_of_cons {s : State} {e : BusEvent} {rest : List BusEvent} (h : s.inbox = e :: rest) :
    step s = takeEvent e { s with inbox := rest } := by simp [step, h]

@[simp] theorem engineTurn_idle {s : State} (h : s.phase = .idle) : engineTurn s = .next s := by simp [engineTurn, h]

@[simp] theorem engineTurn_busy {s : State} {w : Word} (h : s.phase = .busy w) : engineTurn s = completeWord w s := by
  simp [engineTurn, h]

@[simp] theorem completeWord_legal {w : Word} {i : Instr} {s : State} (h : decode w = .ok i) :
    completeWord w s = exec i s := by simp [completeWord, h]

@[simp] theorem completeWord_illegal {w : Word} {e : DecodeReject} {s : State} (h : decode w = .error e) :
    completeWord w s = .next (failCommand (lastOpOf w) .illegalCommand s) := by simp [completeWord, h]

/-- The next states of the engine's turn: nothing in IDLE; ILLEGAL_COMMAND; a legal command's. -/
theorem engineTurn_next {s t : State} (h : engineTurn s = .next t) :
    (s.phase = .idle ∧ t = s) ∨
    ∃ w, s.phase = .busy w ∧
      (((∃ e, decode w = .error e) ∧ t = failCommand (lastOpOf w) .illegalCommand s) ∨
       ∃ i, decode w = .ok i ∧ exec i s = .next t) := by
  cases hp : s.phase with
  | idle => rw [engineTurn_idle hp] at h; exact .inl ⟨rfl, by cases h; rfl⟩
  | busy w =>
    rw [engineTurn_busy hp] at h
    refine .inr ⟨w, rfl, ?_⟩
    cases hd : decode w with
    | error e => rw [completeWord_illegal hd] at h; exact .inl ⟨⟨e, rfl⟩, by cases h; rfl⟩
    | ok i => rw [completeWord_legal hd] at h; exact .inr ⟨i, rfl, h⟩

/-- A host memory write that answers a next state. -/
theorem hostMemWrite_next {a : Nat} {b : Byte} {s t : State} (h : hostMemWrite a b s = .next t) :
    a < s.params.memSize ∧ holdsAsSource s a = false ∧ holdsAsDest s a = false ∧
      t = { s with mem := s.mem.write a b } := by
  unfold hostMemWrite at h
  split at h
  · cases h
  · next ha =>
    split at h
    · cases h
    · split at h
      · cases h
      · next hs =>
        split at h
        · cases h
        · next hd => exact ⟨by omega, by simpa using hs, by simpa using hd, by cases h; rfl⟩

/-- A host memory read that answers a next state. -/
theorem hostMemRead_next {a : Nat} {s t : State} (h : hostMemRead a s = .next t) :
    a < s.params.memSize ∧ holdsAsDest s a = false ∧ t = { s with readData := (s.mem.read a).setWidth 32 } := by
  unfold hostMemRead at h
  split at h
  · cases h
  · next ha =>
    split at h
    · cases h
    · split at h
      · cases h
      · next hd => exact ⟨by omega, by simpa using hd, by cases h; rfl⟩

/-- A reset that answers a next state. -/
theorem assertReset_next {s t : State} (h : assertReset s = .next t) :
    inFlightUsesDevice s = false ∧ t = resetEngine s := by
  unfold assertReset at h
  split at h
  · cases h
  · next hd => exact ⟨by simpa using hd, by cases h; rfl⟩

/-- The register selected by a well-formed access is at the accessed offset (R20). -/
theorem csrAt_offset {off : Nat} {n : CsrName} (h : csrAt off = some n) : n.offset = off := by
  have := List.find?_some h
  simpa using this

/-- Every register is selected by its own offset (R20). -/
theorem csrAt_of_offset (n : CsrName) : csrAt n.offset = some n := by cases n <;> rfl

/-- In IDLE a register write is R33's and R34's. -/
theorem csrWrite_idle {n : CsrName} {v : Word} {s : State} (h : s.phase = .idle) :
    csrWrite n v s = csrWriteIdle n v s := by simp [csrWrite, h]

/-- In BUSY a register write does nothing (R35). -/
theorem csrWrite_busy {n : CsrName} {v : Word} {s : State} (h : s.phase ≠ .idle) : csrWrite n v s = s := by
  unfold csrWrite
  split
  · next e => exact absurd e h
  · rfl

/-- What a CSR write leaves: the state, or one register changed in IDLE, or a command accepted in IDLE. -/
theorem hostCsrWrite_cases (addr : Nat) (size : AccessSize) (v : Word) (s : State) :
    hostCsrWrite addr size v s = s ∨
    (s.phase = .idle ∧ (hostCsrWrite addr size v s = acceptCommand v s ∨ hostCsrWrite addr size v s = { s with srcAddr := v } ∨
      hostCsrWrite addr size v s = { s with srcLen := v } ∨ hostCsrWrite addr size v s = { s with dstAddr := v } ∨
      hostCsrWrite addr size v s = { s with dstCap := v })) := by
  unfold hostCsrWrite
  split
  · split
    · exact .inl rfl
    · next n _ =>
      by_cases hp : s.phase = .idle
      · rw [csrWrite_idle hp]
        cases n with
        | cmd => exact .inr ⟨hp, .inl rfl⟩
        | srcAddr => exact .inr ⟨hp, .inr (.inl rfl)⟩
        | srcLen => exact .inr ⟨hp, .inr (.inr (.inl rfl))⟩
        | dstAddr => exact .inr ⟨hp, .inr (.inr (.inr (.inl rfl)))⟩
        | dstCap => exact .inr ⟨hp, .inr (.inr (.inr (.inr rfl)))⟩
        | id | version | status | outLen | aux | maxLen | memLast => exact .inl rfl
      · exact .inl (csrWrite_busy hp)
  · exact .inl rfl

/-- What a CSR read leaves: only the value read changes. -/
theorem hostCsrRead_eq (addr : Nat) (size : AccessSize) (s : State) :
    ∃ v, hostCsrRead addr size s = { s with readData := v } := by
  unfold hostCsrRead
  split
  · split
    · exact ⟨0, rfl⟩
    · next n _ => exact ⟨csrValue n s, rfl⟩
  · exact ⟨s.readData, rfl⟩

/-- The next states of a step, all cases: the engine's turn, a CSR write, a CSR read, a memory write, a memory read, reset.
`u` is the state with the event taken out of the inbox. -/
theorem step_next {s t : State} (h : step s = .next t) :
    ∃ u, (u = s ∨ ∃ e rest, s.inbox = e :: rest ∧ u = { s with inbox := rest }) ∧
      (engineTurn u = .next t ∨
       (∃ addr size v, t = hostCsrWrite addr size v u) ∨
       (∃ v, t = { u with readData := v }) ∨
       (∃ a b, a < u.params.memSize ∧ t = { u with mem := u.mem.write a b }) ∨
       (inFlightUsesDevice u = false ∧ t = resetEngine u)) := by
  cases hi : s.inbox with
  | nil => exact ⟨s, .inl rfl, .inl (by rwa [step_of_nil hi] at h)⟩
  | cons e rest =>
    rw [step_of_cons hi] at h
    refine ⟨{ s with inbox := rest }, .inr ⟨e, rest, rfl, rfl⟩, ?_⟩
    cases e with
    | csrWrite addr size v => exact .inr (.inl ⟨addr, size, v, by cases h; rfl⟩)
    | csrRead addr size =>
      obtain ⟨v, hv⟩ := hostCsrRead_eq addr size { s with inbox := rest }
      refine .inr (.inr (.inl ⟨v, ?_⟩))
      simp only [takeEvent, hv] at h
      cases h; rfl
    | memWrite a b =>
      obtain ⟨ha, -, -, ht⟩ := hostMemWrite_next h
      exact .inr (.inr (.inr (.inl ⟨a, b, ha, ht⟩)))
    | memRead a =>
      obtain ⟨-, -, ht⟩ := hostMemRead_next h
      exact .inr (.inr (.inl ⟨_, ht⟩))
    | reset => exact .inr (.inr (.inr (.inr (assertReset_next h))))
    | engineTurn => exact .inl h

end Sys2Proof.Machine
end

