-- ==== Sys2Proof/Tests/Slice0.lean ====
section
/-! SUPPORT. Tests with values from 95_test_vectors.md and 30_encoding.md, the smoke tests of WellFormed, and a witness for
the hypotheses of each statement of Certificates/Slice0/Obligations.lean. -/

namespace Sys2Proof.Tests

-- One theorem at a time: each kernel evaluation in parallel would reserve a large stack of its own.
set_option Elab.async false

open Sys2Proof.Machine

/-! ### Helpers -/

/-- A reset state with source bytes at 0x100 and a destination of `cap` bytes at 0x200. -/
def setup (src : Bytes) (cap : Word) : State :=
  { State.reset with
    mem := Memory.writeBytes [] 0x100 src, srcAddr := 0x100, srcLen := BitVec.ofNat 32 src.length,
    dstAddr := 0x200, dstCap := cap }

/-- The same state with a command word accepted. -/
def issued (w : Word) (src : Bytes) (cap : Word) : State := acceptCommand w (setup src cap)

/-- An outcome is a next state with a property. -/
def nextAnd (o : Host.Outcome State Fault Refusal) (p : State → Bool) : Bool :=
  match o with
  | .next t => p t
  | .fault _ => false
  | .refused _ => false

theorem exists_of_nextAnd {o : Host.Outcome State Fault Refusal} {p : State → Bool} (h : nextAnd o p = true) :
    ∃ t, o = .next t ∧ p t = true := by
  cases o with
  | next t => exact ⟨t, rfl, h⟩
  | fault _ => simp [nextAnd] at h
  | refused _ => simp [nextAnd] at h

/-- STATUS, OUT_LEN, AUX and the output bytes are these. -/
def reports (status : Word) (outLen aux : Nat) (out : Bytes) (t : State) : Bool :=
  t.status == status && t.outLen == BitVec.ofNat 32 outLen && t.aux == BitVec.ofNat 32 aux &&
  t.mem.readBytes t.dstAddr.toNat out.length == out

/-- "ABRACADABRA". -/
def abra : Bytes := [0x41, 0x42, 0x52, 0x41, 0x43, 0x41, 0x44, 0x41, 0x42, 0x52, 0x41]

/-- The code table of "ABRACADABRA" (95 section 2.4). -/
def abraTable : CodeTable :=
  [(0x41, [false]), (0x43, [true, false, false]), (0x44, [true, false, true]), (0x42, [true, true, false]),
   (0x52, [true, true, true])]

/-- The table 41 = "0". -/
def aTable : CodeTable := [(0x41, [false])]

/-- The blob of "A" (95 section 2.7). -/
def aBlob : Bytes := [0, 0, 0, 3, 0x41, 1, 0x30, 7, 0]

/-- The node store of "aabbbbcccccccc" (95 section 2.4). -/
def abcTree : List TreeNode := [.leaf 0x61 2, .leaf 0x62 4, .leaf 0x63 8, .internal 0 1 6, .internal 3 2 14]

/-- An instance whose bytes 0x180 to 0x1FF are a device's. -/
def withDevice (s : State) : State := { s with params := { s.params with devices := [⟨0x180, 0x80⟩] } }

/-! ### WellFormed refuses ill-formed terms (R67, R10) -/

theorem test_wf_refuses_unassigned_opcode : CommandFields.opcodeAssigned ⟨0x03, false, 0⟩ = false := by decide

theorem test_wf_refuses_reserved_bit : CommandFields.reservedClear ⟨0x02, false, 1⟩ = false := by decide

theorem test_wf_refuses_flag_on_encode : CommandFields.flagAllowed ⟨0x01, true, 0⟩ = false := by decide

theorem test_wf_refuses_max_len_zero : Params.maxLenLegal ⟨0, 0, 0, []⟩ = false := by decide

theorem test_wf_refuses_max_len_above_bound : Params.maxLenLegal ⟨0x10000001, 0, 0, []⟩ = false := by decide

theorem test_wf_refuses_unaligned_base : Params.csrBaseAligned ⟨1, 0, 0x80, []⟩ = false := by decide

/-! ### Decoding (R62, R66, R67; the words of 95 section 2.1) -/

theorem test_decode_encode : decode 0b00000000000000000000000000000001 = .ok .encode := by decide

theorem test_decode_decode : decode 0b00000000000000000000000000000010 = .ok (.decode false) := by decide

theorem test_decode_decode_r : decode 0b00000000000000000000000100000010 = .ok (.decode true) := by decide

theorem test_decode_rle_enc : decode 0b00000000000000000000000000010000 = .ok .rleEnc := by decide

theorem test_decode_rle_dec : decode 0b00000000000000000000000000010001 = .ok .rleDec := by decide

theorem test_decode_freq : decode 0b00000000000000000000000000100000 = .ok .freq := by decide

theorem test_decode_build_tree : decode 0b00000000000000000000000000100001 = .ok .buildTree := by decide

theorem test_decode_gen_codes : decode 0b00000000000000000000000000100010 = .ok .genCodes := by decide

theorem test_decode_serialize : decode 0b00000000000000000000000000110000 = .ok .serialize := by decide

theorem test_decode_deserialize : decode 0b00000000000000000000000000110001 = .ok .deserialize := by decide

theorem test_decode_pack : decode 0b00000000000000000000000001000000 = .ok .pack := by decide

theorem test_decode_build_trie : decode 0b00000000000000000000000001000001 = .ok .buildTrie := by decide

theorem test_decode_unpack : decode 0b00000000000000000000000001000010 = .ok .unpack := by decide

theorem test_decode_refuses_unassigned : decode 0x00000003 = .error .unassignedOpcode := by decide

theorem test_decode_refuses_flag : decode 0x00000101 = .error .flagOnOtherOpcode := by decide

theorem test_decode_refuses_bit_9 : decode 0x00000202 = .error .reservedBitSet := by decide

theorem test_decode_refuses_bit_31 : decode 0x80000020 = .error .reservedBitSet := by decide

theorem test_decode_table_word : decodeTableWord 32 0x42 = some .unpack ∧ decodeTableWord 32 0 = none := by decide

/-! ### One step of each command (95 sections 2.2 to 2.7) -/

theorem test_rle_enc_equal_length : nextAnd (engineTurn (issued 0x10 [0x41, 0x41, 0x42, 0x42] 8))
    (reports 0x0010000A 4 4 [0x41, 2, 0x42, 2]) = true := by decide +kernel

theorem test_rle_enc_overflow : nextAnd (engineTurn (issued 0x10 [0x41, 0x42] 1))
    (reports 0x00100706 0 0 [0, 0]) = true := by decide +kernel

theorem test_rle_dec : nextAnd (engineTurn (issued 0x11 [1, 2, 3, 1] 8))
    (reports 0x00110002 3 2 [1, 1, 3]) = true := by decide +kernel

theorem test_rle_dec_run_length_zero : nextAnd (engineTurn (issued 0x11 [0x41, 0] 8))
    (reports 0x00110406 0 0 [0]) = true := by decide +kernel

theorem test_freq_counts : nextAnd (engineTurn (issued 0x20 abra 0))
    (fun t => reports 0x00200002 0 5 [] t && countOf t.freq 0x41 == 5 && countOf t.freq 0x43 == 1) = true := by
  decide +kernel

theorem test_freq_leaves_memory : nextAnd (engineTurn
    { issued 0x20 [] 0 with srcAddr := 0xFFF0, srcLen := 0x20, dstAddr := 0xFFFFFFFF })
    (reports 0x00200606 0 0 []) = true := by decide +kernel

/-- The tree of "ABRACADABRA": the tie on frequency 2 goes by creation index (95 section 2.4). -/
theorem test_build_tree : nextAnd (engineTurn { issued 0x21 [] 0 with freq := analyze abra })
    (fun t => t.status == 0x00210002 && t.aux == 9 && t.tree ==
      [.leaf 0x41 5, .leaf 0x42 2, .leaf 0x43 1, .leaf 0x44 1, .leaf 0x52 2, .internal 2 3 2, .internal 1 4 4,
       .internal 5 6 6, .internal 0 7 11]) = true := by decide +kernel

theorem test_gen_codes : nextAnd (engineTurn { issued 0x22 [] 0 with tree := abcTree })
    (fun t => t.status == 0x00220002 && t.aux == 3 &&
      t.codeTable == [(0x61, [false, false]), (0x62, [false, true]), (0x63, [true])]) = true := by decide +kernel

theorem test_gen_codes_single_leaf : nextAnd (engineTurn { issued 0x22 [] 0 with tree := [.leaf 0x41 6] })
    (fun t => t.codeTable == aTable) = true := by decide +kernel

theorem test_serialize : nextAnd (engineTurn { issued 0x30 [] 7 with codeTable := aTable })
    (reports 0x00300002 7 1 [0, 0, 0, 3, 0x41, 1, 0x30]) = true := by decide +kernel

theorem test_serialize_empty_overflow : nextAnd (engineTurn (issued 0x30 [] 3))
    (reports 0x00300706 0 0 []) = true := by decide +kernel

theorem test_deserialize : nextAnd (engineTurn (issued 0x31 aBlob 0))
    (fun t => reports 0x00310002 0 7 [] t && t.codeTable == aTable) = true := by decide +kernel

theorem test_deserialize_code_character : nextAnd
    (engineTurn { issued 0x31 [0, 0, 0, 3, 0x41, 1, 0x32] 0 with codeTable := abraTable })
    (fun t => reports 0x00310106 0 0 [] t && t.codeTable == abraTable) = true := by decide +kernel

theorem test_pack : nextAnd (engineTurn { issued 0x40 abra 8 with codeTable := abraTable })
    (reports 0x00400002 4 23 [0x01, 0x6E, 0x8A, 0xDC]) = true := by decide +kernel

theorem test_pack_symbol_missing : nextAnd (engineTurn { issued 0x40 [0x41, 0x42] 8 with codeTable := aTable })
    (reports 0x00400806 0 0 []) = true := by decide +kernel

theorem test_build_trie : nextAnd (engineTurn { issued 0x41 [] 0 with codeTable := abraTable })
    (reports 0x00410002 0 9 []) = true := by decide +kernel

theorem test_build_trie_prefix : nextAnd
    (engineTurn { issued 0x41 [] 0 with codeTable := [(0x41, [false, true]), (0x42, [false])] })
    (reports 0x00410106 0 0 []) = true := by decide +kernel

theorem test_unpack : nextAnd (engineTurn { issued 0x42 [0x01, 0x6E, 0x8A, 0xDC] 16 with codeTable := abraTable })
    (reports 0x00420002 11 23 abra) = true := by decide +kernel

theorem test_unpack_ends_mid_path : nextAnd (engineTurn { issued 0x42 [0x00, 0x6F] 16 with codeTable := abraTable })
    (reports 0x00420206 0 0 []) = true := by decide +kernel

theorem test_encode : nextAnd (engineTurn (issued 0x01 [0x41, 0x41, 0x41, 0x41, 0x41, 0x41] 16))
    (reports 0x0001000A 12 10 [0, 0, 0, 6, 6, 1, 0x30, 0x41, 1, 0x31, 0x06, 0x80]) = true := by decide +kernel

theorem test_decode_r_command : nextAnd
    (engineTurn (issued 0x102 [0, 0, 0, 6, 6, 1, 0x30, 0x41, 1, 0x31, 0x06, 0x80] 16))
    (reports 0x00020002 6 2 [0x41, 0x41, 0x41, 0x41, 0x41, 0x41]) = true := by decide +kernel

theorem test_decode_wrong_flag : nextAnd (engineTurn (issued 0x102 aBlob 16))
    (reports 0x00020406 0 0 []) = true := by decide +kernel

theorem test_illegal_word : nextAnd (engineTurn (issued 0x103 [0x41] 16)) (reports 0x00030506 0 0 []) = true := by
  decide +kernel

/-! ### The host's side (R34, R35, R74, R75, R128, R133; 95 section 3) -/

/-- `cmd ENCODE` of P1: STATUS right after the CMD write. -/
theorem test_cmd_write : nextAnd
    (step { setup abra 64 with inbox := scriptEvents 0x10000 [.cmd .encode] })
    (fun t => t.status == 0x00010001 && t.cmd == 1 && t.phase == .busy 1 && t.inbox == []) = true := by decide +kernel

/-- P5: `csrw SRC_LEN, 0` while BUSY is lost. -/
theorem test_busy_write_lost : nextAnd
    (step { issued 0x01 [0x41] 16 with inbox := scriptEvents 0x10000 [.csrw .srcLen 0] })
    (fun t => t.srcLen == 1 && t.status == 0x00010001) = true := by decide +kernel

/-- P1's first bus write, from the syntax of R74. -/
theorem test_script_src : scriptEvents 0x10000 [.src 0x100 11] =
    [.csrWrite 0x10010 .word 0x100, .csrWrite 0x10014 .word 11] := by decide

theorem test_fetch_word_runs_next : nextAnd (step ((setup [0x41, 0x42] 2).withFetchWord 32 0x10))
    (reports 0x00100002 2 4 [0x41, 0x42]) = true := by decide +kernel

theorem test_busy_source_write_faults :
    hostMemWrite 0x100 0 (issued 0x20 [0x41] 0) = .fault .hostWroteSourceWhileBusy := by rfl

theorem test_reset_when_idle : nextAnd (step { setup abra 64 with inbox := [.reset], codeTable := aTable })
    (fun t => t.codeTable == [] && t.srcLen == 0 && t.mem == (setup abra 64).mem) = true := by decide +kernel

/-! ### Witnesses: states and operands that meet the hypotheses of each statement, named after it -/

/-- A state with one event to come. -/
def onBus (e : BusEvent) (s : State) : State := { s with inbox := [e] }

theorem witness_IllegalWord_opcode : (issued 0x00000000 [0x41] 16).phase = .busy 0 ∧
    ((0 : Word).extractLsb' 0 8 ∉ [(0x01 : Byte), 0x02, 0x10, 0x11, 0x20, 0x21, 0x22, 0x30, 0x31, 0x40, 0x41, 0x42]) := by
  decide

theorem witness_IllegalWord_reserved : (issued 0x80000020 [0x41] 16).phase = .busy 0x80000020 ∧
    (0x80000020 : Word).extractLsb' 9 23 ≠ 0 ∧ (0x00000202 : Word).extractLsb' 9 23 ≠ 0 := by decide

theorem witness_IllegalWord_flag : (issued 0x00000142 [0x41] 16).phase = .busy 0x142 ∧
    (0x142 : Word).getLsbD 8 = true ∧ (0x142 : Word).extractLsb' 0 8 ≠ (0x02 : Byte) := by decide

theorem witness_StepRunsTheCommandInFlight_empty : (issued 0x10 [0x41] 2).phase = .busy 0x10 ∧
    decode 0x10 = .ok .rleEnc ∧ (issued 0x10 [0x41] 2).inbox = [] := by decide

theorem witness_StepRunsTheCommandInFlight_turn : (onBus .engineTurn (issued 0x102 aBlob 2)).phase = .busy 0x102 ∧
    decode 0x102 = .ok (.decode true) ∧ (onBus .engineTurn (issued 0x102 aBlob 2)).inbox = [.engineTurn] := by decide

theorem witness_StepRunsTheCommandInFlight_idle : State.reset.phase = .idle := rfl

theorem witness_EveryAcceptedCommandCompletes : (issued 0x22 [] 0).phase = .busy 0x22 ∧
    (issued 0x22 [] 0).params.devices = [] ∧ treeWf ({ issued 0x22 [] 0 with tree := abcTree } : State).tree = true := by
  decide +kernel

theorem witness_CmdWriteInIdle : (onBus (.csrWrite 0x10008 .word 0xFFFFFFFF) State.reset).phase = .idle ∧
    (onBus (.csrWrite 0x10008 .word 0xFFFFFFFF) State.reset).inbox =
      [.csrWrite (State.reset.params.csrBase + 0x08) .word 0xFFFFFFFF] := by decide

theorem witness_OperandRegisters_write : ∀ off ∈ [0x10, 0x14, 0x18, 0x1C],
    (onBus (.csrWrite (0x10000 + off) .word 5) State.reset).phase = .idle ∧
    (onBus (.csrWrite (0x10000 + off) .word 5) State.reset).inbox =
      [.csrWrite (State.reset.params.csrBase + off) .word 5] := by decide

theorem witness_OperandRegisters_ignored : ∀ off ∈ [0x00, 0x2C, 0x30, 0xFC],
    (off ∈ [0x00, 0x04, 0x0C, 0x20, 0x24, 0x28, 0x2C] ∨ (0x30 ≤ off ∧ off ≤ 0xFC ∧ off % 4 = 0)) ∧
    (onBus (.csrWrite (0x10000 + off) .word 5) State.reset).inbox =
      [.csrWrite (State.reset.params.csrBase + off) .word 5] := by decide

theorem witness_RegisterReads_named : (0x2C, BitVec.ofNat 32 (State.reset.params.memSize - 1)) ∈
      [(0x00, (0x48554646 : Word)), (0x2C, BitVec.ofNat 32 (State.reset.params.memSize - 1))] ∧
    (onBus (.csrRead 0x1002C .word) State.reset).inbox = [.csrRead (State.reset.params.csrBase + 0x2C) .word] := by
  decide

theorem witness_RegisterReads_reserved : ∀ off ∈ [0x30, 0xFC], 0x30 ≤ off ∧ off ≤ 0xFC ∧ off % 4 = 0 ∧
    (onBus (.csrRead (0x10000 + off) .word) State.reset).inbox = [.csrRead (State.reset.params.csrBase + off) .word] := by
  decide

theorem witness_BadAccesses : ∀ p ∈ [(0x00, AccessSize.half), (0xFF, .byte), (0x02, .word), (0xFE, .half)],
    p.1 < 256 ∧ (p.2 ≠ .word ∨ p.1 % 4 ≠ 0) ∧
    (onBus (.csrRead (0x10000 + p.1) p.2) State.reset).inbox = [.csrRead (State.reset.params.csrBase + p.1) p.2] ∧
    (onBus (.csrWrite (0x10000 + p.1) p.2 1) State.reset).inbox =
      [.csrWrite (State.reset.params.csrBase + p.1) p.2 1] := by decide

theorem issued_csrLegal (w : Word) (src : Bytes) (cap : Word) : csrLegal (issued w src cap) :=
  ⟨rfl, rfl, rfl, rfl⟩

theorem witness_BusyIgnores_write : ∀ off ∈ [0x00, 0x08, 0xFF], off < 256 ∧
    (onBus (.csrWrite (0x10000 + off) .word 0x10) (issued 1 [0x41] 16)).phase = .busy 1 ∧
    (onBus (.csrWrite (0x10000 + off) .word 0x10) (issued 1 [0x41] 16)).inbox =
      [.csrWrite (State.reset.params.csrBase + off) .word 0x10] := by decide

theorem witness_BusyIgnores_read : ∀ n : CsrName,
    (onBus (.csrRead (0x10000 + n.offset) .word) (issued 1 [0x41] 16)).phase = .busy 1 ∧
    csrLegal (onBus (.csrRead (0x10000 + n.offset) .word) (issued 1 [0x41] 16)) ∧
    (onBus (.csrRead (0x10000 + n.offset) .word) (issued 1 [0x41] 16)).inbox =
      [.csrRead (State.reset.params.csrBase + n.offset) .word] :=
  fun _ => ⟨rfl, ⟨rfl, rfl, rfl, rfl⟩, rfl⟩

theorem witness_ResetRestores_idle : (onBus .reset (setup abra 16)).inbox = [.reset] ∧
    inFlightUsesDevice (onBus .reset (setup abra 16)) = false ∧ (setup abra 16).phase = .idle := by decide

/-- The bytes just outside the destination range 0x200 to 0x20F of an ENCODE in flight. -/
theorem witness_ResetRestores_busy : (onBus .reset (issued 1 abra 16)).inbox = [.reset] ∧
    inFlightUsesDevice (onBus .reset (issued 1 abra 16)) = false ∧ (issued 1 abra 16).mem.wf = true ∧
    ∀ a ∈ [0x1FF, 0x210], ¬ ((issued 1 abra 16).dstAddr.toNat ≤ a ∧ a < (issued 1 abra 16).dstAddr.toNat +
      min (issued 1 abra 16).dstCap.toNat ((issued 1 abra 16).params.memSize - (issued 1 abra 16).dstAddr.toNat)) := by
  decide +kernel

theorem witness_FailureChanges_illegal : (issued 0x103 [] 0).phase = .busy 0x103 ∧
    ∃ t, engineTurn (issued 0x103 [] 0) = .next t ∧ t.errBit = true :=
  ⟨rfl, exists_of_nextAnd (by decide +kernel)⟩

theorem witness_FailureChanges_legal : (issued 0x31 [0] 0).phase = .busy 0x31 ∧
    ∃ t, engineTurn (issued 0x31 [0] 0) = .next t ∧ t.errBit = true :=
  ⟨rfl, exists_of_nextAnd (by decide +kernel)⟩

theorem witness_SuccessReports : (issued 0x01 [2, 2] 16).phase = .busy 0x01 ∧
    ∃ t, engineTurn (issued 0x01 [2, 2] 16) = .next t ∧ (!t.errBit && t.rleUsed) = true :=
  ⟨rfl, exists_of_nextAnd (by decide +kernel)⟩

theorem witness_ErrorsStay_row : ∃ t, exec (.decode true) (issued 0x102 aBlob 16) = .next t ∧ t.errBit = true :=
  exists_of_nextAnd (by decide +kernel)

theorem witness_ErrorsStay_tables : treeWf abcTree = true ∧ codeTableWf abraTable = true ∧
    ∃ t, exec .genCodes { issued 0x22 [] 0 with tree := abcTree, codeTable := abraTable } = .next t ∧ true = true :=
  ⟨by decide +kernel, by decide +kernel, exists_of_nextAnd (p := fun _ => true) (by decide +kernel)⟩

/-- A zero-length source one byte past MEM_SIZE, and a source one byte longer than MAX_LEN (95 section 2.2). -/
theorem witness_BadRange_source :
    let s := { issued 0x20 [] 0 with srcAddr := 0x10001 }
    let u := { issued 0x10 [] 16 with srcAddr := 0, srcLen := 0x1001 }
    (readsSource .freq = true ∧ s.params.memSize < s.srcAddr.toNat + s.srcLen.toNat) ∧
    (readsSource .rleEnc = true ∧ u.params.maxLen.toNat < u.srcLen.toNat) := by decide

theorem witness_BadRange_dest :
    let s := { issued 0x30 [] 1 with dstAddr := 0x10000 }
    let u := issued 0x30 [] 0x1001
    (writesDest .serialize = true ∧ s.params.memSize < s.dstAddr.toNat + s.dstCap.toNat) ∧
    (writesDest .serialize = true ∧ u.params.maxLen.toNat < u.dstCap.toNat) := by decide

theorem witness_BadRange_reported :
    ∃ t, exec .freq { issued 0x20 [] 0 with srcAddr := 0x10001 } = .next t ∧ (t.errBit && t.errCode == 6) = true :=
  exists_of_nextAnd (by decide +kernel)

theorem witness_OutLen_success : writesDest .rleEnc = true ∧
    ∃ t, exec .rleEnc (issued 0x10 [0x41] 1) = .next t ∧ (!t.errBit) = true :=
  ⟨rfl, exists_of_nextAnd (by decide +kernel)⟩

theorem witness_OutLen_zero : writesDest .freq = false ∧
    (∃ t, exec .freq (issued 0x20 [0x41] 1) = .next t ∧ true = true) ∧
    ∃ t, exec .rleEnc (issued 0x10 [0x41, 0x42] 1) = .next t ∧ t.errBit = true :=
  ⟨rfl, exists_of_nextAnd (p := fun _ => true) (by decide +kernel), exists_of_nextAnd (by decide +kernel)⟩

theorem witness_Reissued : (issued 0x31 [0] 0).phase = .busy 0x31 ∧ (issued 0x31 [0] 0).cmd = 0x31 ∧
    ∃ t, engineTurn (issued 0x31 [0] 0) = .next t ∧ t.errBit = true :=
  ⟨rfl, rfl, exists_of_nextAnd (by decide +kernel)⟩

theorem witness_CommandsChangeOnly : Instr.serialize ≠ .freq ∧ Instr.serialize ≠ .buildTree ∧
    Instr.serialize ≠ .genCodes ∧ Instr.serialize ≠ .deserialize ∧
    ∃ t, exec .serialize { issued 0x30 [] 8 with codeTable := aTable } = .next t ∧ (!t.errBit) = true :=
  ⟨by decide, by decide, by decide, by decide, exists_of_nextAnd (by decide +kernel)⟩

/-- The bytes just outside the seven bytes SERIALIZE writes at 0x200. -/
theorem witness_MemoryChanges_success : (issued 0x30 [] 8).mem.wf = true ∧
    ∃ t, exec .serialize { issued 0x30 [] 8 with codeTable := aTable } = .next t ∧
      (decide (0x1FF < 0x200) && decide (0x200 + t.outLen.toNat ≤ 0x207)) = true :=
  ⟨by decide, exists_of_nextAnd (by decide +kernel)⟩

theorem witness_MemoryChanges_failure : ∃ t, exec .serialize (issued 0x30 [] 3) = .next t ∧ t.errBit = true :=
  exists_of_nextAnd (by decide +kernel)

theorem witness_MemoryChanges_bytes : Memory.wf [(0x1FF, 7)] = true ∧ (0x1FF < 0x200 ∨ 0x200 + 2 ≤ 0x1FF) ∧
    (0x202 < 0x200 ∨ 0x200 + 2 ≤ 0x202) := by decide

theorem witness_EncodeAndDecode : (Instr.decode true = .encode ∨ ∃ r, Instr.decode true = .decode r) ∧
    (∃ t, exec (.decode true) (issued 0x102 aBlob 16) = .next t ∧ true = true) ∧
    ∃ t, exec .encode (issued 0x01 [0x41] 16) = .next t ∧ (!t.errBit) = true :=
  ⟨.inr ⟨true, rfl⟩, exists_of_nextAnd (p := fun _ => true) (by decide +kernel), exists_of_nextAnd (by decide +kernel)⟩

/-- A second memory that agrees on the source range 0x100 to 0x101 and differs beside it. -/
theorem witness_CommandsReadOnly : (issued 0x10 [0x41, 0x41] 8).mem.wf = true ∧
    Memory.wf [(0x100, 0x41), (0x101, 0x41), (0x102, 0x41)] = true ∧
    (∃ t, exec .rleEnc (issued 0x10 [0x41, 0x41] 8) = .next t ∧ (!t.errBit) = true) ∧
    readsSource .rleEnc = true ∧
    ∀ k < (issued 0x10 [0x41, 0x41] 8).srcLen.toNat,
      Memory.read [(0x100, 0x41), (0x101, 0x41), (0x102, 0x41)] ((issued 0x10 [0x41, 0x41] 8).srcAddr.toNat + k) =
        (issued 0x10 [0x41, 0x41] 8).mem.read ((issued 0x10 [0x41, 0x41] 8).srcAddr.toNat + k) :=
  ⟨by decide +kernel, by decide +kernel, exists_of_nextAnd (by decide +kernel), rfl, by decide +kernel⟩

/-! Ready ranges: the largest source and destination, at the top of the data memory, and empty ones at its end. -/

theorem witness_ready_top : ∀ s : State, s = { State.reset with
      srcAddr := 0xF000, srcLen := 0x1000, dstAddr := 0xF000, dstCap := 0x1000 } → sourceReady s ∧ destReady s := by
  rintro s rfl
  unfold sourceReady destReady
  decide

theorem witness_ready_end : ∀ s : State, s = { State.reset with srcAddr := 0x10000, dstAddr := 0x10000 } →
    sourceReady s ∧ destReady s := by
  rintro s rfl
  unfold sourceReady destReady
  decide

theorem witness_RleEnc : sourceReady (issued 0x10 [0x41, 0x42] 2) ∧ destReady (issued 0x10 [0x41, 0x42] 2) ∧
    (rleEncode (sourceOf (issued 0x10 [0x41, 0x42] 2))).out.length ≤ (issued 0x10 [0x41, 0x42] 2).dstCap.toNat ∧
    (issued 0x10 [0x41, 0x42] 1).dstCap.toNat < (rleEncode (sourceOf (issued 0x10 [0x41, 0x42] 1))).out.length := by
  unfold sourceReady destReady
  decide +kernel

theorem witness_RleDec : sourceReady (issued 0x11 [0x41, 2] 2) ∧ destReady (issued 0x11 [0x41, 2] 2) ∧
    rleDecode (sourceOf (issued 0x11 [0x41, 2] 2)) = .ok [0x41, 0x41] ∧ 2 ≤ (issued 0x11 [0x41, 2] 2).dstCap.toNat ∧
    (issued 0x11 [0x41, 2] 1).dstCap.toNat < 2 ∧ rleDecode (sourceOf (issued 0x11 [0x41] 1)) = .error .corruptRle := by
  unfold sourceReady destReady
  decide +kernel

theorem witness_Freq : sourceReady (issued 0x20 abra 0) := by
  unfold sourceReady
  decide

theorem witness_GenCodes : treeWf ({ issued 0x22 [] 0 with tree := abcTree } : State).tree = true ∧
    treeWf ({ issued 0x22 [] 0 with tree := [.internal 0 0 0] } : State).tree = false := by decide +kernel

theorem witness_Serialize : destReady (issued 0x30 [] 7) ∧ codeTableWf aTable = true ∧
    serialize aTable = .ok [0, 0, 0, 3, 0x41, 1, 0x30] ∧ 7 ≤ (issued 0x30 [] 7).dstCap.toNat ∧
    (issued 0x30 [] 6).dstCap.toNat < 7 := by
  unfold destReady
  decide +kernel

theorem witness_Deserialize : sourceReady (issued 0x31 aBlob 0) ∧
    deserialize (sourceOf (issued 0x31 aBlob 0)) = .ok (aTable, 7) ∧
    deserialize (sourceOf (issued 0x31 [0] 0)) = .error .corruptTable := by
  unfold sourceReady
  decide +kernel

theorem witness_Pack : sourceReady (issued 0x40 [0x41] 2) ∧ destReady (issued 0x40 [0x41] 2) ∧
    pack (sourceOf (issued 0x40 [0x41] 2)) aTable = .ok ([7, 0], 1) ∧ 2 ≤ (issued 0x40 [0x41] 2).dstCap.toNat ∧
    (issued 0x40 [0x41] 1).dstCap.toNat < 2 ∧
    pack (sourceOf (issued 0x40 [0x42] 2)) aTable = .error .symbolNotInTable := by
  unfold sourceReady destReady
  decide +kernel

theorem witness_BuildTrie : (∃ t, buildTrie abraTable = .ok t) ∧
    buildTrie [(0x41, [false]), (0x42, [false])] = .error .corruptTable := ⟨⟨_, rfl⟩, by decide +kernel⟩

theorem witness_Unpack : sourceReady (issued 0x42 [7, 0] 1) ∧ destReady (issued 0x42 [7, 0] 1) ∧
    unpack (sourceOf (issued 0x42 [7, 0] 1)) aTable = .ok ([0x41], 1) ∧ 1 ≤ (issued 0x42 [7, 0] 1).dstCap.toNat ∧
    (issued 0x42 [7, 0] 0).dstCap.toNat < 1 ∧
    unpack (sourceOf (issued 0x42 [8, 0] 1)) aTable = .error .corruptPayload := by
  unfold sourceReady destReady
  decide +kernel

theorem witness_EncodeWrites : sourceReady (issued 0x01 [0x41] 9) ∧ destReady (issued 0x01 [0x41] 9) ∧
    encodeFn (sourceOf (issued 0x01 [0x41] 9)) = .ok ⟨aBlob, false, 7⟩ ∧
    aBlob.length ≤ (issued 0x01 [0x41] 9).dstCap.toNat ∧ (issued 0x01 [0x41] 8).dstCap.toNat < aBlob.length := by
  unfold sourceReady destReady
  decide +kernel

theorem witness_DecodeWrites : sourceReady (issued 0x02 aBlob 1) ∧ destReady (issued 0x02 aBlob 1) ∧
    decodeFn (sourceOf (issued 0x02 aBlob 1)) false = .ok ([0x41], 1) ∧ 1 ≤ (issued 0x02 aBlob 1).dstCap.toNat ∧
    (issued 0x02 aBlob 0).dstCap.toNat < 1 ∧ decodeFn (sourceOf (issued 0x02 aBlob 1)) true = .error .corruptRle := by
  unfold sourceReady destReady
  decide +kernel

theorem witness_RleEncodingIs : (rleEncode [2, 2]).used = true ∧ (rleEncode [2]).used = false := by decide

theorem witness_RleDecodeUndoes : (rleEncode [2, 2]).used = true ∧ rleDecode [0x41, 0] = .error .corruptRle := by decide

theorem witness_AnalyzeCounts : abra.length < 2 ^ 32 := by decide

theorem witness_TreeMerges : distinctCount (analyze abra) ≤ 5 ∧ 5 < (Machine.buildTree (analyze abra)).length ∧
    distinctCount (analyze abra) ≤ 8 ∧ 8 < (Machine.buildTree (analyze abra)).length := by decide +kernel

theorem witness_BuiltTree : countTotal (analyze abra) < 2 ^ 32 ∧
    (Machine.buildTree (analyze abra)).getLast? = some (.internal 0 7 11) := by decide +kernel

theorem witness_CodesAreTheTreePaths : treeWf abcTree = true ∧ abcTree.getLast? = some (.internal 3 2 14) ∧
    genCodes abcTree = .ok [(0x61, [false, false]), (0x62, [false, true]), (0x63, [true])] := by decide +kernel

theorem witness_GeneratedTable : treeWf abcTree = true ∧ treeWf [.leaf 0x41 6] = true ∧ treeWf [] = true := by
  decide +kernel

theorem witness_TableRoundTrip : codeTableWf abraTable = true ∧ codeTableWf [] = true := by decide +kernel

theorem witness_DeserializeLooksOnly : aBlob ≠ [] ∧ deserialize aBlob = .ok (aTable, 7) ∧
    1 ≤ [(0 : Byte)].length ∧ [(0 : Byte), 0, 0].length ≤ 3 ∧
    [(0x41 : Byte)].length < (0 : Byte).toNat * 2 ^ 24 + (0 : Byte).toNat * 2 ^ 16 + (0 : Byte).toNat * 2 ^ 8 +
      (2 : Byte).toNat ∧
    deserialize [0] = .error .corruptTable := by decide +kernel

theorem witness_BitPacking : (byteBits 0x6E ++ byteBits 0x8A).length % 8 = 0 ∧ 0 < 8 ∧ 7 < 8 := by decide

theorem witness_PayloadIs : pack [0x41] aTable = .ok ([7, 0], 1) ∧ pack [] [] = .ok ([0], 0) ∧
    pack [0x42] aTable = .error .symbolNotInTable := by decide +kernel

theorem witness_TrieExists : treeWf abcTree = true ∧ 3 ≤ abcTree.length ∧
    (∃ ct t, genCodes abcTree = .ok ct ∧ buildTrie ct = .ok t) ∧ genCodes [.leaf 0x41 6] = .ok aTable :=
  ⟨by decide +kernel, by decide, ⟨_, _, rfl, rfl⟩, rfl⟩

theorem witness_UnpackUndoesPack : abraTable ≠ [] ∧ prefixFree abraTable ∧ (∀ e ∈ abraTable, e.2 ≠ []) ∧
    pack abra abraTable = .ok ([0x01, 0x6E, 0x8A, 0xDC], 23) := by
  unfold prefixFree
  decide +kernel

theorem witness_UnpackedBytes : abraTable ≠ [] ∧ codeTableWf abraTable = true ∧
    unpack (0x00 :: [0x6E, 0x8A]) abraTable = .ok ([0x41, 0x42, 0x52, 0x41, 0x43, 0x41, 0x44, 0x41], 16) := by
  decide +kernel

/-- `07 6E` and `07 7F`: one data bit, and other padding bits (95 section 2.6 has the first). -/
theorem witness_UnpackedBytes_padding : [(0x6E : Byte)].length = [(0x7F : Byte)].length ∧
    (bytesToBits [0x6E]).take (8 * 1 - (7 : Byte).toNat) = (bytesToBits [0x7F]).take (8 * 1 - (7 : Byte).toNat) ∧
    unpack [7, 0x6E] abraTable = .ok ([0x41], 1) := by decide +kernel

theorem witness_UnpackChecks : aTable ≠ [] ∧ prefixFree aTable ∧ (∀ e ∈ aTable, e.2 ≠ []) ∧ 7 < (8 : Byte).toNat ∧
    8 * ([] : Bytes).length < (3 : Byte).toNat ∧ ¬ prefixFree [(0x41, [false]), (0x42, [false, true])] := by
  unfold prefixFree
  decide

theorem witness_DecodeUndoesEncode : abra.length < 2 ^ 32 := by decide

theorem witness_EncodeThenDecode :
    let s := issued 0x01 abra 64
    s.params.devices = [] ∧ s.mem.wf = true ∧ (∃ t, exec .encode s = .next t ∧ (!t.errBit) = true) ∧
    (11 : Word).toNat ≤ s.params.maxLen.toNat ∧ (0x300 : Word).toNat + (11 : Word).toNat ≤ s.params.memSize ∧
    s.srcLen.toNat ≤ (11 : Word).toNat :=
  ⟨rfl, by decide +kernel, exists_of_nextAnd (by decide +kernel), by decide, by decide, by decide⟩

/-- ENCODE in flight over 0x100 to 0x10A and 0x200 to 0x20F: the first and last byte of each range and those beside. -/
theorem witness_BusyRanges : ∀ a ∈ [0xFF, 0x100, 0x10A, 0x10B, 0x1FF, 0x200, 0x20F, 0x210],
    (onBus (.memWrite a 1) (issued 0x01 abra 16)).phase = .busy 0x01 ∧ decode 0x01 = .ok .encode ∧
    a < (issued 0x01 abra 16).params.memSize ∧ meetsDevice (issued 0x01 abra 16).params a 1 = false ∧
    (onBus (.memRead a) (issued 0x01 abra 16)).phase = .busy 0x01 ∧
    (readsSource .encode = true ∧ (issued 0x01 abra 16).srcAddr.toNat ≤ a ∧
      a < (issued 0x01 abra 16).srcAddr.toNat + (issued 0x01 abra 16).srcLen.toNat ↔ a = 0x100 ∨ a = 0x10A) ∧
    (writesDest .encode = true ∧ (issued 0x01 abra 16).dstAddr.toNat ≤ a ∧
      a < (issued 0x01 abra 16).dstAddr.toNat + (issued 0x01 abra 16).dstCap.toNat ↔ a = 0x200 ∨ a = 0x20F) := by
  decide

/-- An RLE_ENC in flight whose source 0x1FF to 0x200 and destination 0x200 to 0x201 share the byte 0x200 (log 7). -/
theorem witness_BusyRanges_overlap :
    let s := { issued 0x10 [7, 7] 2 with srcAddr := 0x1FF, inbox := [.memWrite 0x200 1] }
    s.phase = .busy 0x10 ∧ decode 0x10 = .ok .rleEnc ∧ 0x200 < s.params.memSize ∧
    meetsDevice s.params 0x200 1 = false ∧
    (readsSource .rleEnc = true ∧ s.srcAddr.toNat ≤ 0x200 ∧ 0x200 < s.srcAddr.toNat + s.srcLen.toNat) ∧
    (writesDest .rleEnc = true ∧ s.dstAddr.toNat ≤ 0x200 ∧ 0x200 < s.dstAddr.toNat + s.dstCap.toNat) := by decide

/-- An illegal word in flight, at the bytes that ENCODE would hold (log 15). -/
theorem witness_BusyRanges_illegal : (∀ i, decode 0x103 ≠ .ok i) ∧ ∀ a ∈ [0x100, 0x20F],
    (onBus (.memWrite a 1) (issued 0x103 abra 16)).phase = .busy 0x103 ∧ a < (issued 0x103 abra 16).params.memSize ∧
    meetsDevice (issued 0x103 abra 16).params a 1 = false := by
  have h : decode 0x103 = .error .unassignedOpcode := by decide
  exact ⟨fun i hi => (nomatch h.symm.trans hi), by decide⟩

/-- The bus addresses just outside the window (log 10). -/
theorem witness_OutsideWindow : ∀ a ∈ [0xFFFF, 0x10100],
    (a < State.reset.params.csrBase ∨ State.reset.params.csrBase + 256 ≤ a) ∧
    (onBus (.csrWrite a .word 1) State.reset).inbox = [.csrWrite a .word 1] ∧
    (onBus (.csrRead a .word) State.reset).inbox = [.csrRead a .word] := by decide

theorem witness_IdleHost : ∀ a ∈ [0, 0xFFFF, 0x10000],
    (onBus (.memWrite a 1) State.reset).phase = .idle ∧ meetsDevice State.reset.params a 1 = false ∧
    (onBus (.memRead a) State.reset).inbox = [.memRead a] ∧ (a < State.reset.params.memSize ↔ a ≠ 0x10000) := by decide

/-- A SERIALIZE whose one destination byte is a device's first, with a reset coming, and the device's first and last byte and
the byte after it. -/
theorem witness_MemoryThatIsNotOrdinary :
    badRange .serialize (withDevice { issued 0x30 [] 1 with dstAddr := 0x180 }) = false ∧
    meetsDevice (withDevice (issued 0x30 [] 1)).params 0x180 1 = true ∧
    meetsDevice (withDevice (issued 0x30 [] 1)).params 0x1FF 1 = true ∧
    meetsDevice (withDevice (issued 0x30 [] 1)).params 0x200 1 = false ∧
    decode 0x30 = .ok .serialize ∧ (withDevice { issued 0x30 [] 1 with dstAddr := 0x180 }).phase = .busy 0x30 ∧
    (onBus .reset (withDevice { issued 0x30 [] 1 with dstAddr := 0x180 })).inbox = [.reset] := by decide

theorem witness_StepKeeps_registers : csrLegal (issued 0x20 abra 0) ∧
    (issued 0x20 abra 0).outLen.toNat ≤ (issued 0x20 abra 0).params.maxLen.toNat ∧
    ∃ t, step (issued 0x20 abra 0) = .next t ∧ (!t.errBit) = true :=
  ⟨issued_csrLegal .., by decide, exists_of_nextAnd (by decide +kernel)⟩

theorem witness_StepKeeps_tables : tablesLegal (issued 0x20 abra 0) ∧
    ∃ t, step (issued 0x20 abra 0) = .next t ∧ (!t.errBit) = true := by
  refine ⟨?_, exists_of_nextAnd (by decide +kernel)⟩
  unfold tablesLegal
  decide +kernel

theorem witness_StepKeeps_memory : memoryLegal (issued 0x01 [0x41] 9) ∧
    ∃ t, step (issued 0x01 [0x41] 9) = .next t ∧ (!t.errBit) = true := by
  refine ⟨?_, exists_of_nextAnd (by decide +kernel)⟩
  unfold memoryLegal
  decide +kernel

theorem witness_RegisterOnly : Inv (onBus (.csrWrite 0x10008 .word 1) State.reset) ∧ State.reset.params.devices = [] ∧
    ∀ e ∈ (onBus (.csrWrite 0x10008 .word 1) State.reset).inbox,
      (∀ a b, e ≠ .memWrite a b) ∧ (∀ a, e ≠ .memRead a) := by
  refine ⟨⟨by decide, .inl ⟨rfl, rfl, rfl, rfl⟩, by decide, ?_, ?_⟩, rfl, ?_⟩
  · unfold tablesLegal
    decide +kernel
  · unfold memoryLegal
    decide +kernel
  · simp [onBus]

end Sys2Proof.Tests
end

section
/-! PROOFS. Packing bits into bytes (00_scope.md R13; 20_memory.md R49). -/

namespace Sys2Proof.Machine

theorem bitsToBytes_byteBits_append (v : Byte) (bits : Bits) :
    bitsToBytes (byteBits v ++ bits) = v :: bitsToBytes bits := by
  simp only [byteBits, List.cons_append, List.nil_append, bitsToBytes_cons8, byteOfBits_byteBits]

theorem bitsToBytes_bytesToBits (s : Bytes) : bitsToBytes (bytesToBits s) = s := by
  induction s with
  | nil => rfl
  | cons v s ih => rw [bytesToBits_cons, bitsToBytes_byteBits_append, ih]

/-- Whole bytes of bits are read back as they were packed. -/
theorem bytesToBits_bitsToBytes {bits : Bits} (h : bits.length % 8 = 0) :
    bytesToBits (bitsToBytes bits) = bits := by
  fun_induction bitsToBytes bits with
  | case1 b7 b6 b5 b4 b3 b2 b1 b0 rest ih =>
    have hrest : rest.length % 8 = 0 := by
      simp only [List.length_cons] at h
      omega
    rw [bytesToBits_cons, byteBits_byteOfBits, ih hrest]
    rfl
  | case2 bits hshort =>
    -- One to seven bits are ruled out by `h`.
    match bits with
    | [] => rfl
    | b7 :: b6 :: b5 :: b4 :: b3 :: b2 :: b1 :: b0 :: rest => exact (hshort _ _ _ _ _ _ _ _ _ rfl).elim

/-- Bit `k` of a byte's stream is its bit `7 - k`. -/
theorem byteBits_getElem? (v : Byte) {k : Nat} (hk : k < 8) : (byteBits v)[k]? = some (v.getLsbD (7 - k)) := by
  interval_cases k <;> rfl

theorem bytesToBits_cons_getElem? (v : Byte) (rest : Bytes) {k : Nat} (hk : k < 8) :
    (bytesToBits (v :: rest))[k]? = some (v.getLsbD (7 - k)) := by
  rw [bytesToBits_cons, List.getElem?_append_left (by simpa using hk), byteBits_getElem? v hk]

/-- Settles O45: by recursion on the bits eight at a time, and by induction on the bytes. -/
theorem bitPackingIsInvertibleMsbFirst : Obligations.BitPackingIsInvertibleMsbFirst :=
  ⟨fun _ => bytesToBits_bitsToBytes, bitsToBytes_bytesToBits, fun v rest _ => bytesToBits_cons_getElem? v rest⟩

end Sys2Proof.Machine
end

section
/-! PROOFS. The reset state (70_reset_and_hazards.md R128) meets the invariants. -/

namespace Sys2Proof.Machine

/-- R42: at reset nothing has been issued and the result registers are 0. -/
theorem reset_csrLegal : csrLegal State.reset := .inl ⟨rfl, rfl, rfl, rfl⟩

/-- R37: a frequency table of zeros counts nothing. -/
theorem countTotal_replicate_zero : countTotal (Vector.replicate 256 0) = 0 := by
  rw [countTotal, Vector.toList_replicate, List.map_replicate, List.sum_replicate]
  exact smul_zero 256

theorem reset_tablesLegal : tablesLegal State.reset := by
  have hfreq : countTotal State.reset.freq ≤ State.reset.params.maxLen.toNat :=
    countTotal_replicate_zero.trans_le (Nat.zero_le _)
  exact ⟨hfreq, rfl, rfl⟩

theorem reset_memoryLegal : memoryLegal State.reset := ⟨rfl, rfl⟩

/-- Settles O56, one invariant at a time. -/
theorem resetMeetsTheInvariants : Obligations.ResetMeetsTheInvariants where
  params := by decide
  csr    := reset_csrLegal
  outLen := by decide
  tables := reset_tablesLegal
  memory := reset_memoryLegal

end Sys2Proof.Machine
end

section
/-! PROOFS. What a completion leaves (30_encoding.md R69 to R72): the results of the bodies and the next states of `exec`,
each said once; then the frame of the commands, the report, and the register block after every step (10_state.md R24). -/

namespace Sys2Proof.Machine

/-! ### The results of the bodies -/

/-- The four commands that write a table write their own and no output; every other command keeps the tables, gives no output
unless it has a destination, and sets the used flag only as ENCODE or RLE_ENC. -/
theorem bodyOf_ok {i : Instr} {s : State} {src : Bytes} {r : Result} (h : bodyOf i s src = .ok r) :
    (i = .freq ∧ r = { resultOf s [] (distinctCount (analyze src)) false with freq := analyze src }) ∨
    (i = .buildTree ∧ r = { resultOf s [] (buildTree s.freq).length false with tree := buildTree s.freq }) ∨
    (i = .genCodes ∧ ∃ ct, genCodes s.tree = .ok ct ∧
      r = { resultOf s [] ct.length false with codeTable := ct }) ∨
    (i = .deserialize ∧ ∃ ct off, deserialize src = .ok (ct, off) ∧
      r = { resultOf s [] off false with codeTable := ct }) ∨
    (∃ out aux used, r = resultOf s out aux used ∧ (writesDest i = false → out = []) ∧
      (used = true → i = .encode ∨ i = .rleEnc)) := by
  cases i with
  | freq => cases h; exact .inl ⟨rfl, rfl⟩
  | buildTree => cases h; exact .inr (.inl ⟨rfl, rfl⟩)
  | genCodes =>
    simp only [bodyOf, genCodesBody] at h
    split at h
    · cases h
    · next ct hct => cases h; exact .inr (.inr (.inl ⟨rfl, ct, hct, rfl⟩))
  | deserialize =>
    simp only [bodyOf, deserializeBody] at h
    split at h
    · cases h
    · next ct off hct => cases h; exact .inr (.inr (.inr (.inl ⟨rfl, ct, off, hct, rfl⟩)))
  | rleEnc => cases h; exact .inr (.inr (.inr (.inr ⟨_, _, _, rfl, nofun, fun _ => .inr rfl⟩)))
  | encode =>
    simp only [bodyOf, encodeBody] at h
    split at h
    · cases h
    · cases h; exact .inr (.inr (.inr (.inr ⟨_, _, _, rfl, nofun, fun _ => .inl rfl⟩)))
  | buildTrie =>
    simp only [bodyOf, buildTrieBody] at h
    split at h
    · cases h
    · cases h; exact .inr (.inr (.inr (.inr ⟨_, _, _, rfl, fun _ => rfl, nofun⟩)))
  | decode | rleDec | serialize | pack | unpack =>
    simp only [bodyOf, decodeBody, rleDecBody, serializeBody, packBody, unpackBody] at h
    split at h
    · cases h
    · cases h; exact .inr (.inr (.inr (.inr ⟨_, _, _, rfl, nofun, nofun⟩)))

/-- R36: each table has its writers. -/
theorem bodyOf_keeps_tables {i : Instr} {s : State} {src : Bytes} {r : Result} (h : bodyOf i s src = .ok r) :
    (i ≠ .freq → r.freq = s.freq) ∧ (i ≠ .buildTree → r.tree = s.tree) ∧
    (i ≠ .genCodes → i ≠ .deserialize → r.codeTable = s.codeTable) := by
  obtain ⟨rfl, rfl⟩ | ⟨rfl, rfl⟩ | ⟨rfl, ct, -, rfl⟩ | ⟨rfl, ct, off, -, rfl⟩ | ⟨out, aux, used, rfl, -, -⟩ :=
    bodyOf_ok h <;> simp

/-- R66: a command without a destination has no output. -/
theorem bodyOf_out_of_no_dest {i : Instr} {s : State} {src : Bytes} {r : Result} (h : bodyOf i s src = .ok r)
    (hw : writesDest i = false) : r.out = [] := by
  obtain ⟨rfl, rfl⟩ | ⟨rfl, rfl⟩ | ⟨rfl, ct, -, rfl⟩ | ⟨rfl, ct, off, -, rfl⟩ | ⟨out, aux, used, rfl, hout, -⟩ :=
    bodyOf_ok h
  · rfl
  · rfl
  · rfl
  · rfl
  · exact hout hw

/-- R41: the used flag is ENCODE's and RLE_ENC's. -/
theorem bodyOf_used {i : Instr} {s : State} {src : Bytes} {r : Result} (h : bodyOf i s src = .ok r)
    (hu : r.used = true) : i = .encode ∨ i = .rleEnc := by
  obtain ⟨rfl, rfl⟩ | ⟨rfl, rfl⟩ | ⟨rfl, ct, -, rfl⟩ | ⟨rfl, ct, off, -, rfl⟩ | ⟨out, aux, used, rfl, -, hused⟩ :=
    bodyOf_ok h
  · cases hu
  · cases hu
  · cases hu
  · cases hu
  · exact hused hu

/-! ### The next states of a command -/

/-- R70: the lengths of the ranges an accepted command uses are at most MAX_LEN. -/
theorem lengths_le_of_not_badRange {i : Instr} {s : State} (hb : badRange i s = false) :
    (readsSource i = true → s.srcLen.toNat ≤ s.params.maxLen.toNat) ∧
    (writesDest i = true → s.dstCap.toNat ≤ s.params.maxLen.toNat) := by
  have h := (badRange_iff i s).not.1 (by simp [hb])
  simp only [outOfRange_iff, not_or, not_and, not_lt] at h
  obtain ⟨hsrc, hdst⟩ := h
  exact ⟨fun hr => (hsrc hr).1, fun hw => (hdst hw).1⟩

/-- A completion fails, or commits a result of the body whose output fits an accepted destination. -/
theorem exec_next {i : Instr} {s t : State} (h : exec i s = .next t) :
    (∃ k, t = failCommand i.opcode k s) ∨
    ∃ r, bodyOf i s (sourceBytes i s) = .ok r ∧ badRange i s = false ∧
      (writesDest i = true → r.out.length ≤ s.dstCap.toNat) ∧ t = commitCommand i.opcode r s := by
  obtain ⟨-, ht⟩ | ⟨hb, -, ⟨k, -, ht⟩ | ⟨r, hr, ⟨-, -, ht⟩ | ⟨hc, ht⟩⟩⟩ :=
    completeCommand_next (exec_next_complete h)
  · exact .inl ⟨_, ht⟩
  · exact .inl ⟨_, ht⟩
  · exact .inl ⟨_, ht⟩
  · exact .inr ⟨r, hr, hb, hc, ht⟩

/-- Every completion of a command ends in IDLE with DONE set and BUSY clear (R69). -/
theorem exec_next_idle {i : Instr} {s t : State} (h : exec i s = .next t) :
    t.phase = .idle ∧ t.doneBit = true ∧ t.busyBit = false := by
  obtain ⟨k, rfl⟩ | ⟨r, -, -, -, rfl⟩ := exec_next h <;> simp

/-- Settles O20: by the frame of a failure and of a commit, and the tables each body keeps. -/
theorem commandsChangeOnlyTheirTablesAndReport : Obligations.CommandsChangeOnlyTheirTablesAndReport := by
  intro i s t h
  obtain ⟨k, rfl⟩ | ⟨r, hr, -, -, rfl⟩ := exec_next h
  · simp
  · simpa using bodyOf_keeps_tables hr

/-! ### OUT_LEN (R27) -/

/-- A commit's OUT_LEN is the length of an output that fits. -/
theorem commitCommand_outLen_toNat {op : Byte} {r : Result} {s : State} (h : r.out.length ≤ s.dstCap.toNat) :
    (commitCommand op r s).outLen.toNat = r.out.length := by
  rw [commitCommand_outLen, BitVec.toNat_ofNat, Nat.mod_eq_of_lt (h.trans_lt s.dstCap.isLt)]

/-- Settles O18: a commit's output fits the capacity, which R70 bounds; the Fail branch writes 0. -/
theorem outLenIsBoundedByTheCapacity : Obligations.OutLenIsBoundedByTheCapacity := by
  intro i s t h
  obtain ⟨k, rfl⟩ | ⟨r, hr, hb, hc, rfl⟩ := exec_next h
  · simp
  · refine ⟨fun _ hw => ⟨?_, (lengths_le_of_not_badRange hb).2 hw⟩, fun hor => ?_⟩
    · rw [commitCommand_outLen_toNat (hc hw)]
      exact hc hw
    · have hw : writesDest i = false := by simpa using hor
      rw [commitCommand_outLen, bodyOf_out_of_no_dest hr hw]
      rfl

theorem exec_next_outLen_le {i : Instr} {s t : State} (h : exec i s = .next t) :
    t.outLen.toNat ≤ s.params.maxLen.toNat := by
  obtain ⟨hsucc, hzero⟩ := outLenIsBoundedByTheCapacity i s t h
  by_cases hor : t.errBit = true ∨ writesDest i = false
  · rw [hzero hor]
    exact Nat.zero_le _
  · obtain ⟨hout, hcap⟩ := hsucc (by simpa using mt .inl hor) (by simpa using mt .inr hor)
    exact hout.trans hcap

/-! ### Completion -/

/-- Over ordinary memory and a legal node store every command answers a next state. -/
theorem exec_runs {i : Instr} {s : State} (hd : s.params.devices = []) (ht : treeWf s.tree = true) :
    ∃ t, exec i s = .next t := by
  cases h : exec i s with
  | next t => exact ⟨t, rfl⟩
  | refused r => exact absurd h (exec_not_refused i s r)
  | fault f =>
    obtain ⟨-, -, hdev⟩ | ⟨-, -, hwf⟩ := exec_fault h
    · rw [usesDevice_of_no_devices hd] at hdev; cases hdev
    · rw [ht] at hwf; cases hwf

/-- Settles O5: an illegal word fails, a legal one runs, and both end in IDLE. -/
theorem everyAcceptedCommandCompletes : Obligations.EveryAcceptedCommandCompletes := by
  intro s w hp hd ht
  rw [engineTurn_busy hp]
  cases hdec : decode w with
  | error e => exact ⟨_, completeWord_illegal hdec, by simp⟩
  | ok i =>
    obtain ⟨t, h⟩ := exec_runs (i := i) hd ht
    exact ⟨t, by rw [completeWord_legal hdec, h], exec_next_idle h⟩

/-! ### The report of a success -/

/-- STATUS after a success, with the used flag and DONE in one constant (R24). -/
theorem statusDone_eq (op : Byte) (used : Bool) :
    statusDone op used = (op.setWidth 32 <<< 16) ||| (if used then 0xA else 0x2) := by
  cases used <;> simp [statusDone, BitVec.or_assoc]

/-- Settles O15: of the branches of the completion only the commit leaves ERR clear. -/
theorem successReportsDoneAndTheUsedFlag : Obligations.SuccessReportsDoneAndTheUsedFlag := by
  intro s t w hp h herr
  rw [engineTurn_busy hp] at h
  cases hdec : decode w with
  | error e =>
    rw [completeWord_illegal hdec] at h
    cases h
    simp at herr
  | ok i =>
    rw [completeWord_legal hdec] at h
    obtain ⟨k, rfl⟩ | ⟨r, hr, -, -, rfl⟩ := exec_next h
    · simp at herr
    · obtain ⟨hop, -, -⟩ := decode_ok hdec
      exact ⟨i, r.used, rfl, rfl, by rw [commitCommand_status, statusDone_eq, hop]; rfl, bodyOf_used hr⟩

/-! ### The register block (R24) -/

/-- A completion answers a legal register block, with OUT_LEN in bounds. -/
theorem engineTurn_keeps_csrLegal {s t : State} (hc : csrLegal s) (ho : s.outLen.toNat ≤ s.params.maxLen.toNat)
    (h : engineTurn s = .next t) : csrLegal t ∧ t.outLen.toNat ≤ s.params.maxLen.toNat := by
  obtain ⟨-, rfl⟩ | ⟨w, hp, hw⟩ := engineTurn_next h
  · exact ⟨hc, ho⟩
  · obtain ⟨rfl, -, -, -⟩ : s.cmd = w ∧ s.status = statusBusy (lastOpOf w) ∧ s.outLen = 0 ∧ s.aux = 0 := by
      simpa [csrLegal, hp] using hc
    obtain ⟨-, rfl⟩ | ⟨i, hdec, hx⟩ := hw
    · exact ⟨.inr (.inr ⟨_, rfl, rfl, rfl⟩), by simp⟩
    · obtain ⟨hop, -, -⟩ := decode_ok hdec
      refine ⟨?_, exec_next_outLen_le hx⟩
      obtain ⟨k, rfl⟩ | ⟨r, hr, -, -, rfl⟩ := exec_next hx
      · exact .inr (.inr ⟨k, by simp [hop], rfl, rfl⟩)
      · refine .inr (.inl ⟨r.used, by simp [hop], fun hu => ?_⟩)
        rw [commitCommand_cmd, ← hop]
        obtain rfl | rfl := bodyOf_used hr hu
        · exact .inl rfl
        · exact .inr rfl

/-- A write to the window leaves a legal register block: R24 does not speak of the operand registers. -/
theorem hostCsrWrite_keeps_csrLegal {s : State} (addr : Nat) (size : AccessSize) (v : Word) (hc : csrLegal s)
    (ho : s.outLen.toNat ≤ s.params.maxLen.toNat) :
    csrLegal (hostCsrWrite addr size v s) ∧ (hostCsrWrite addr size v s).outLen.toNat ≤ s.params.maxLen.toNat := by
  obtain h | ⟨-, h | h | h | h | h⟩ := hostCsrWrite_cases addr size v s <;> rw [h]
  · exact ⟨hc, ho⟩
  · exact ⟨⟨rfl, rfl, rfl, rfl⟩, by simp⟩
  · exact ⟨hc, ho⟩
  · exact ⟨hc, ho⟩
  · exact ⟨hc, ho⟩
  · exact ⟨hc, ho⟩

/-! ### The parameters and the coming events -/

theorem engineTurn_frame {s t : State} (h : engineTurn s = .next t) : t.params = s.params ∧ t.inbox = s.inbox := by
  obtain ⟨-, rfl⟩ | ⟨w, -, ⟨-, rfl⟩ | ⟨i, -, hx⟩⟩ := engineTurn_next h
  · exact ⟨rfl, rfl⟩
  · exact ⟨rfl, rfl⟩
  · obtain ⟨hparams, -, -, -, -, -, hinbox, -⟩ := commandsChangeOnlyTheirTablesAndReport i s t hx
    exact ⟨hparams, hinbox⟩

theorem hostCsrWrite_frame (addr : Nat) (size : AccessSize) (v : Word) (s : State) :
    (hostCsrWrite addr size v s).params = s.params ∧ (hostCsrWrite addr size v s).inbox = s.inbox := by
  obtain h | ⟨-, h | h | h | h | h⟩ := hostCsrWrite_cases addr size v s <;> rw [h] <;> exact ⟨rfl, rfl⟩

/-- No step changes the parameters or adds an event. -/
theorem step_frame {s t : State} (h : step s = .next t) : t.params = s.params ∧ t.inbox ⊆ s.inbox := by
  obtain ⟨u, hu, hstep⟩ := step_next h
  have hframe : t.params = u.params ∧ t.inbox = u.inbox := by
    obtain hturn | ⟨addr, size, v, rfl⟩ | ⟨v, rfl⟩ | ⟨a, b, -, rfl⟩ | ⟨-, rfl⟩ := hstep
    · exact engineTurn_frame hturn
    · exact hostCsrWrite_frame addr size v u
    · exact ⟨rfl, rfl⟩
    · exact ⟨rfl, rfl⟩
    · exact ⟨rfl, rfl⟩
  obtain ⟨hparams, hinbox⟩ := hframe
  rw [hparams, hinbox]
  obtain rfl | ⟨e, rest, hs, rfl⟩ := hu
  · exact ⟨rfl, List.Subset.refl _⟩
  · exact ⟨rfl, hs ▸ List.subset_cons_self e rest⟩

/-- Settles O57, one kind of step at a time; the event taken out of the inbox is not part of the register block. -/
theorem stepKeepsTheRegisterBlockLegal : Obligations.StepKeepsTheRegisterBlockLegal := by
  intro s t hc ho h
  obtain ⟨hparams, -⟩ := step_frame h
  suffices hkeep : csrLegal t ∧ t.outLen.toNat ≤ s.params.maxLen.toNat from
    ⟨hkeep.1, hparams ▸ hkeep.2, hparams⟩
  obtain ⟨u, hu, hstep⟩ := step_next h
  obtain ⟨hcu, hou, hpu⟩ : csrLegal u ∧ u.outLen.toNat ≤ u.params.maxLen.toNat ∧ u.params = s.params := by
    obtain rfl | ⟨e, rest, -, rfl⟩ := hu
    · exact ⟨hc, ho, rfl⟩
    · exact ⟨hc, ho, rfl⟩
  rw [← hpu]
  obtain hturn | ⟨addr, size, v, rfl⟩ | ⟨v, rfl⟩ | ⟨a, b, -, rfl⟩ | ⟨-, rfl⟩ := hstep
  · exact engineTurn_keeps_csrLegal hcu hou hturn
  · exact hostCsrWrite_keeps_csrLegal addr size v hcu hou
  · exact ⟨hcu, hou⟩
  · exact ⟨hcu, hou⟩
  · exact ⟨.inl ⟨rfl, rfl, rfl, rfl⟩, by simp⟩

end Sys2Proof.Machine
end

section
/-! PROOFS. The deserializer (42_code_table.md R94): the tables it gives, and the bytes it looks at. -/

namespace Sys2Proof.Machine

/-- R39 as a proposition. -/
theorem codeTableWf_iff (ct : CodeTable) :
    codeTableWf ct = true ↔ (ct.map Prod.fst).Nodup ∧ ∀ e ∈ ct, 1 ≤ e.2.length ∧ e.2.length ≤ 255 := by
  simp [codeTableWf]

/-- A new byte with a code of a legal length extends a legal table. -/
theorem codeTableWf_append_entry {ct : CodeTable} {b : Byte} {c : Bits} (h : codeTableWf ct = true)
    (hb : lookup ct b = none) (hc : 1 ≤ c.length ∧ c.length ≤ 255) : codeTableWf (ct ++ [(b, c)]) = true := by
  obtain ⟨hnodup, hlen⟩ := (codeTableWf_iff ct).1 h
  refine (codeTableWf_iff _).2 ⟨?_, fun e he => ?_⟩
  · rw [List.map_append, List.map_singleton, ← List.concat_eq_append, List.nodup_concat]
    exact ⟨(lookup_eq_none_iff ct b).1 hb, hnodup⟩
  · obtain he | he := List.mem_append.1 he
    · exact hlen e he
    · obtain rfl := List.mem_singleton.1 he
      exact hc

/-- The entry loop keeps the table legal: each accepted entry has a byte the table lacks and as many code bits as its length
byte says. -/
theorem parseEntries_wf {fuel : Nat} {bs : Bytes} {ct ct' : CodeTable} (hct : codeTableWf ct = true)
    (h : parseEntries fuel bs ct = .ok ct') : codeTableWf ct' = true := by
  fun_induction parseEntries fuel bs ct with
  | case1 => cases h; exact hct
  | case2 => cases h
  | case3 => cases h
  | case4 => cases h
  | case5 => cases h
  | case6 => cases h
  | case7 => cases h
  | case8 fuel b n rest ct hn hlen hchars hnew ih =>
    refine ih (codeTableWf_append_entry hct (by simpa using hnew) ?_) h
    have hpos : n.toNat ≠ 0 := fun h0 => hn (BitVec.eq_of_toNat_eq h0)
    have hbyte : n.toNat < 256 := n.isLt
    rw [List.length_map, List.length_take, Nat.min_eq_left (by omega)]
    omega

/-- The deserializer on four length bytes and the bytes after them. -/
theorem deserialize_cons4_ok_iff (b3 b2 b1 b0 : Byte) (rest : Bytes) (ct : CodeTable) (off : Nat) :
    deserialize (b3 :: b2 :: b1 :: b0 :: rest) = .ok (ct, off) ↔
      be32Value b3 b2 b1 b0 ≤ rest.length ∧ off = 4 + be32Value b3 b2 b1 b0 ∧
        parseEntries (be32Value b3 b2 b1 b0) (rest.take (be32Value b3 b2 b1 b0)) [] = .ok ct := by
  unfold deserialize
  dsimp only
  split
  · next hlt => exact ⟨nofun, fun ⟨hle, _⟩ => absurd hle (by omega)⟩
  · next hle =>
    split
    · next hk => simp [hk]
    · next ct' hct => simp [hct, Nat.le_of_not_lt hle]; tauto

/-- One to three bytes are too short for the length. -/
theorem deserialize_short {src : Bytes} (hpos : 1 ≤ src.length) (hshort : src.length ≤ 3) :
    deserialize src = .error .corruptTable := by
  match src with
  | [_] | [_, _] | [_, _, _] => rfl
  | [] => simp at hpos
  | _ :: _ :: _ :: _ :: _ => simp only [List.length_cons] at hshort; omega

/-- A declared length beyond the bytes there are. -/
theorem deserialize_overlong {b3 b2 b1 b0 : Byte} {rest : Bytes} (h : rest.length < be32Value b3 b2 b1 b0) :
    deserialize (b3 :: b2 :: b1 :: b0 :: rest) = .error .corruptTable := by
  simp [deserialize, h]

/-- A table comes from the empty source, or from four length bytes and a section of that length. -/
theorem deserialize_ok {src : Bytes} {ct : CodeTable} {off : Nat} (h : deserialize src = .ok (ct, off)) :
    (src = [] ∧ ct = [] ∧ off = 0) ∨
    ∃ b3 b2 b1 b0 rest, src = b3 :: b2 :: b1 :: b0 :: rest ∧ be32Value b3 b2 b1 b0 ≤ rest.length ∧
      off = 4 + be32Value b3 b2 b1 b0 ∧
      parseEntries (be32Value b3 b2 b1 b0) (rest.take (be32Value b3 b2 b1 b0)) [] = .ok ct := by
  match src with
  | [] => cases h; exact .inl ⟨rfl, rfl, rfl⟩
  | b3 :: b2 :: b1 :: b0 :: rest =>
    exact .inr ⟨b3, b2, b1, b0, rest, rfl, (deserialize_cons4_ok_iff ..).1 h⟩
  | [_] | [_, _] | [_, _, _] => cases h

/-- R39: a table read from a blob is legal. -/
theorem deserialize_wf {src : Bytes} {ct : CodeTable} {off : Nat} (h : deserialize src = .ok (ct, off)) :
    codeTableWf ct = true := by
  obtain ⟨-, rfl, -⟩ | ⟨b3, b2, b1, b0, rest, -, -, -, hparse⟩ := deserialize_ok h
  · rfl
  · exact parseEntries_wf rfl hparse

/-- Cutting behind the four length bytes cuts the section only. -/
theorem take_four_add_append (b3 b2 b1 b0 : Byte) (rest t : Bytes) (n : Nat) :
    (b3 :: b2 :: b1 :: b0 :: rest).take (4 + n) ++ t = b3 :: b2 :: b1 :: b0 :: (rest.take n ++ t) := by
  simp only [Nat.add_comm 4, List.take_succ_cons, List.cons_append]

/-- The blob of a table read from a non-empty source lies inside it, and the bytes after it may be replaced. -/
theorem deserialize_prefix {src : Bytes} {ct : CodeTable} {off : Nat} (hne : src ≠ [])
    (h : deserialize src = .ok (ct, off)) :
    off ≤ src.length ∧ ∀ t, deserialize (src.take off ++ t) = .ok (ct, off) := by
  obtain ⟨rfl, -, -⟩ | ⟨b3, b2, b1, b0, rest, rfl, hlen, rfl, hparse⟩ := deserialize_ok h
  · exact absurd rfl hne
  · refine ⟨by simp only [List.length_cons]; omega, fun t => ?_⟩
    have hsection : (rest.take (be32Value b3 b2 b1 b0)).length = be32Value b3 b2 b1 b0 :=
      List.length_take_of_le hlen
    rw [take_four_add_append, deserialize_cons4_ok_iff, List.length_append, hsection, List.take_left' hsection]
    exact ⟨Nat.le_add_right .., rfl, hparse⟩

/-- Settles O44: by the shape of an accepted source, and the kinds `deserialize_error` allows. -/
theorem deserializeLooksOnlyAtTheBlob : Obligations.DeserializeLooksOnlyAtTheBlob :=
  ⟨fun _ _ _ hne h => ⟨deserialize_wf h, deserialize_prefix hne h⟩, fun _ => deserialize_short,
    fun _ _ _ _ _ => deserialize_overlong, fun _ _ => deserialize_error⟩

end Sys2Proof.Machine
end

section
/-! PROOFS. The node store (10_state.md R38): its invariant as a proposition, and the lists it is stated with. -/

namespace Sys2Proof.Machine

/-! ### Children and leaves of a store -/

@[simp] theorem childrenOf_nil : childrenOf [] = [] := rfl
@[simp] theorem childrenOf_leaf_cons (b : Byte) (f : Word) (ns : List TreeNode) :
    childrenOf (.leaf b f :: ns) = childrenOf ns := rfl
@[simp] theorem childrenOf_internal_cons (l r : Nat) (f : Word) (ns : List TreeNode) :
    childrenOf (.internal l r f :: ns) = l :: r :: childrenOf ns := rfl

@[simp] theorem leafBytes_nil : leafBytes [] = [] := rfl
@[simp] theorem leafBytes_leaf_cons (b : Byte) (f : Word) (ns : List TreeNode) :
    leafBytes (.leaf b f :: ns) = b :: leafBytes ns := rfl
@[simp] theorem leafBytes_internal_cons (l r : Nat) (f : Word) (ns : List TreeNode) :
    leafBytes (.internal l r f :: ns) = leafBytes ns := rfl

@[simp] theorem childrenOf_append (ms ns : List TreeNode) : childrenOf (ms ++ ns) = childrenOf ms ++ childrenOf ns := by
  induction ms with
  | nil => rfl
  | cons n ms ih => cases n <;> simp [ih]

@[simp] theorem leafBytes_append (ms ns : List TreeNode) : leafBytes (ms ++ ns) = leafBytes ms ++ leafBytes ns := by
  induction ms with
  | nil => rfl
  | cons n ms ih => cases n <;> simp [ih]

theorem exists_parent {j : Nat} {nodes : List TreeNode} (h : j ∈ childrenOf nodes) :
    ∃ l r f, TreeNode.internal l r f ∈ nodes ∧ (j = l ∨ j = r) := by
  induction nodes with
  | nil => cases h
  | cons n ns ih =>
    have hrest : j ∈ childrenOf ns → ∃ l r f, TreeNode.internal l r f ∈ n :: ns ∧ (j = l ∨ j = r) := fun h =>
      have ⟨l, r, f, hmem, hj⟩ := ih h
      ⟨l, r, f, List.mem_cons_of_mem n hmem, hj⟩
    cases n with
    | leaf b f => exact hrest h
    | internal l r f =>
      obtain rfl | h := List.mem_cons.1 h
      · exact ⟨j, r, f, List.mem_cons_self, .inl rfl⟩
      · obtain rfl | h := List.mem_cons.1 h
        · exact ⟨l, j, f, List.mem_cons_self, .inr rfl⟩
        · exact hrest h

theorem exists_leaf_of_mem_leafBytes {b : Byte} {nodes : List TreeNode} (h : b ∈ leafBytes nodes) :
    ∃ f, TreeNode.leaf b f ∈ nodes := by
  induction nodes with
  | nil => cases h
  | cons n ns ih =>
    cases n with
    | leaf c f =>
      obtain rfl | h := List.mem_cons.1 h
      · exact ⟨f, List.mem_cons_self⟩
      · exact (ih h).imp fun _ => List.mem_cons_of_mem _
    | internal l r f => exact (ih h).imp fun _ => List.mem_cons_of_mem _

/-! ### The invariant -/

@[simp] theorem nodeFits_leaf (nodes : List TreeNode) (i : Nat) (b : Byte) (f : Word) :
    nodeFits nodes i (.leaf b f) = true := rfl

theorem nodeFits_internal_iff {nodes : List TreeNode} {i l r : Nat} {f : Word} :
    nodeFits nodes i (.internal l r f) = true ↔
      ∃ x y, nodes[l]? = some x ∧ nodes[r]? = some y ∧ l < i ∧ r < i ∧ f = x.freq + y.freq := by
  constructor
  · intro h
    simp only [nodeFits] at h
    split at h
    · next x y hx hy => exact ⟨x, y, hx, hy, by simpa [and_assoc] using h⟩
    · cases h
  · rintro ⟨x, y, hx, hy, hl, hr, hf⟩
    simp [nodeFits, hx, hy, hl, hr, hf]

/-- Every node of a store fits its place (R38). -/
def nodesFit (nodes : List TreeNode) : Prop := ∀ i n, nodes[i]? = some n → nodeFits nodes i n = true

/-- R38 as a proposition. -/
theorem treeWf_iff (nodes : List TreeNode) :
    treeWf nodes = true ↔
      (nodes = [] ∨ (nodes.length % 2 = 1 ∧ nodes.length ≤ 511)) ∧ nodesFit nodes ∧ (childrenOf nodes).Nodup ∧
      (∀ j < nodes.length - 1, j ∈ childrenOf nodes) ∧ (leafBytes nodes).Nodup := by
  have hfit : (nodes.zipIdx.all fun (n, i) => nodeFits nodes i n) = true ↔ nodesFit nodes := by
    simp only [List.all_eq_true, Prod.forall, List.mem_zipIdx_iff_getElem?, nodesFit]
    exact forall_comm
  simp only [treeWf, Bool.and_eq_true, hfit, Bool.or_eq_true, List.isEmpty_iff, decide_eq_true_eq, List.all_eq_true,
    List.mem_range, List.contains_iff_mem, and_assoc]

/-- The children of a node that fits come before it. -/
theorem nodesFit_children_lt {nodes : List TreeNode} (h : nodesFit nodes) {i l r : Nat} {f : Word}
    (hi : nodes[i]? = some (.internal l r f)) : l < i ∧ r < i := by
  obtain ⟨x, y, -, -, hl, hr, -⟩ := nodeFits_internal_iff.1 (h i _ hi)
  exact ⟨hl, hr⟩

/-- No node is the child of an earlier node, so the last one is nobody's child. -/
theorem childrenOf_lt {nodes : List TreeNode} (h : nodesFit nodes) {j : Nat} (hj : j ∈ childrenOf nodes) :
    j < nodes.length - 1 := by
  obtain ⟨l, r, f, hmem, hj⟩ := exists_parent hj
  obtain ⟨i, hi⟩ := List.mem_iff_getElem?.1 hmem
  obtain ⟨hl, hr⟩ := nodesFit_children_lt h hi
  have hlt : i < nodes.length := (List.getElem?_eq_some_iff.1 hi).1
  omega

theorem getElem?_append_of_eq_some {nodes : List TreeNode} (more : List TreeNode) {i : Nat} {n : TreeNode}
    (h : nodes[i]? = some n) : (nodes ++ more)[i]? = some n := by
  rwa [List.getElem?_append_left (List.getElem?_eq_some_iff.1 h).1]

/-- A node that fits still fits when the store grows. -/
theorem nodeFits_append {nodes : List TreeNode} (more : List TreeNode) {i : Nat} {n : TreeNode}
    (h : nodeFits nodes i n = true) : nodeFits (nodes ++ more) i n = true := by
  cases n with
  | leaf b f => rfl
  | internal l r f =>
    obtain ⟨x, y, hx, hy, hlt⟩ := nodeFits_internal_iff.1 h
    exact nodeFits_internal_iff.2
      ⟨x, y, getElem?_append_of_eq_some more hx, getElem?_append_of_eq_some more hy, hlt⟩

/-- A store whose nodes fit grows by a node that fits. -/
theorem nodesFit_concat {nodes : List TreeNode} {n : TreeNode} (h : nodesFit nodes)
    (hn : nodeFits nodes nodes.length n = true) : nodesFit (nodes ++ [n]) := by
  intro i m hi
  rw [List.getElem?_append] at hi
  split at hi
  · exact nodeFits_append [n] (h i m hi)
  · next hge =>
    have hlt : i - nodes.length < 1 := (List.getElem?_eq_some_iff.1 hi).1
    obtain rfl : i = nodes.length := by omega
    obtain rfl : n = m := by simpa using hi
    exact nodeFits_append [n] hn

end Sys2Proof.Machine
end

section
/-! PROOFS. The tree builder (41_huffman_encoder.md R84): what every round of the merge loop keeps, and the store it ends in. -/

namespace Sys2Proof.Machine

/-! ### The leaves -/

/-- The leaf of one entry of the frequency table, if its byte occurs. -/
def leafAt (p : Word × Nat) : Option TreeNode := if p.1 = 0 then none else some (.leaf (BitVec.ofNat 8 p.2) p.1)

theorem leavesOf_eq (f : Vector Word 256) : leavesOf f = f.toList.zipIdx.filterMap leafAt := rfl

theorem leafAt_eq_some {p : Word × Nat} {n : TreeNode} :
    leafAt p = some n ↔ p.1 ≠ 0 ∧ n = .leaf (BitVec.ofNat 8 p.2) p.1 := by
  unfold leafAt
  split
  · next h => simp [h]
  · next h => exact ⟨fun hn => ⟨h, (Option.some.inj hn).symm⟩, fun ⟨_, hn⟩ => by rw [hn]⟩

theorem leavesOf_length_le (f : Vector Word 256) : (leavesOf f).length ≤ 256 := by
  rw [leavesOf_eq]
  exact (List.length_filterMap_le ..).trans (by simp)

theorem eq_leaf_of_mem_leavesOf {f : Vector Word 256} {n : TreeNode} (h : n ∈ leavesOf f) : ∃ b c, n = .leaf b c := by
  obtain ⟨p, -, hp⟩ := List.mem_filterMap.1 h
  exact ⟨_, _, (leafAt_eq_some.1 hp).2⟩

/-- The leaves stand in ascending byte value. -/
theorem leavesOf_pairwise (f : Vector Word 256) :
    (leavesOf f).Pairwise fun x y => ∃ b c fb fc, x = .leaf b fb ∧ y = .leaf c fc ∧ b.toNat < c.toNat := by
  have hidx : f.toList.zipIdx.Pairwise fun p q => p.2 < q.2 := by
    rw [← List.pairwise_map (f := Prod.snd) (R := (· < ·)), List.zipIdx_map_snd]
    exact List.pairwise_lt_range'
  have hlt : ∀ p ∈ f.toList.zipIdx, p.2 < 256 := fun p hp => by simpa using List.snd_lt_of_mem_zipIdx hp
  rw [leavesOf_eq, List.pairwise_filterMap]
  refine hidx.imp_of_mem fun {p q} hp hq hpq x hx y hy => ?_
  obtain ⟨-, rfl⟩ := leafAt_eq_some.1 hx
  obtain ⟨-, rfl⟩ := leafAt_eq_some.1 hy
  refine ⟨_, _, _, _, rfl, rfl, ?_⟩
  have := hlt q hq
  rw [BitVec.toNat_ofNat, BitVec.toNat_ofNat, Nat.mod_eq_of_lt (by omega), Nat.mod_eq_of_lt (by omega)]
  exact hpq

theorem leafBytes_leavesOf_nodup (f : Vector Word 256) : (leafBytes (leavesOf f)).Nodup := by
  have h := leavesOf_pairwise f
  generalize leavesOf f = leaves at h
  induction h with
  | nil => simp
  | @cons x xs hx _ ih =>
    cases x with
    | internal l r c => exact ih
    | leaf b c =>
      refine List.nodup_cons.2 ⟨fun hb => ?_, ih⟩
      obtain ⟨d, hd⟩ := exists_leaf_of_mem_leafBytes hb
      obtain ⟨b', c', fb, fc, hb', hc', hlt⟩ := hx _ hd
      cases hb'
      cases hc'
      exact lt_irrefl _ hlt

/-- Leaving out the zero counts leaves the sum. -/
theorem sum_freq_filterMap_leafAt (ps : List (Word × Nat)) :
    ((ps.filterMap leafAt).map TreeNode.freq).sum = (ps.map Prod.fst).sum := by
  induction ps with
  | nil => rfl
  | cons p ps ih =>
    by_cases hp : p.1 = 0
    · simp [leafAt, hp, ih]
    · rw [List.filterMap_cons_some (leafAt_eq_some.2 ⟨hp, rfl⟩)]
      simp [ih, TreeNode.freq]

/-- A sum of words is the sum of their values, cut to 32 bits. -/
theorem sum_eq_ofNat_sum_toNat (ws : List Word) : ws.sum = BitVec.ofNat 32 (ws.map BitVec.toNat).sum := by
  induction ws with
  | nil => rfl
  | cons w ws ih => simp [ih, BitVec.ofNat_add]

theorem sum_freq_leavesOf (f : Vector Word 256) :
    ((leavesOf f).map TreeNode.freq).sum = BitVec.ofNat 32 (countTotal f) := by
  rw [leavesOf_eq, sum_freq_filterMap_leafAt, List.zipIdx_map_fst, sum_eq_ofNat_sum_toNat, countTotal]

/-! ### The keys -/

theorem keysOf_map_index (nodes : List TreeNode) : (keysOf nodes).map NodeKey.index = List.range nodes.length := by
  rw [keysOf, List.map_map, List.range_eq_range', ← List.zipIdx_map_snd]
  rfl

theorem keysOf_map_freq (nodes : List TreeNode) : (keysOf nodes).map NodeKey.freq = nodes.map TreeNode.freq := by
  rw [keysOf, List.map_map, ← List.zipIdx_map_fst 0 nodes, List.map_map]
  simp [Function.comp_def]

theorem freq_of_mem_keysOf {nodes : List TreeNode} {k : NodeKey} (h : k ∈ keysOf nodes) :
    ∃ n, nodes[k.index]? = some n ∧ n.freq = k.freq := by
  obtain ⟨⟨n, i⟩, hmem, rfl⟩ := List.mem_map.1 h
  exact ⟨n, List.mem_zipIdx_iff_getElem?.1 hmem, rfl⟩

theorem smallestKey_mem (k : NodeKey) (ks : List NodeKey) : smallestKey k ks ∈ k :: ks := by
  induction ks generalizing k with
  | nil => simp [smallestKey]
  | cons x xs ih =>
    unfold smallestKey
    split
    · exact List.mem_cons_of_mem k (ih x)
    · obtain h | h := List.mem_cons.1 (ih k)
      · rw [h]
        exact List.mem_cons_self
      · exact List.mem_cons_of_mem k (List.mem_cons_of_mem x h)

/-- The two keys a round takes, and the keys it leaves. -/
theorem perm_two_smallest {x z : NodeKey} {xs zs : List NodeKey} (h : (x :: xs).erase (smallestKey x xs) = z :: zs) :
    (x :: xs).Perm (smallestKey x xs :: smallestKey z zs :: (z :: zs).erase (smallestKey z zs)) :=
  calc (x :: xs).Perm (smallestKey x xs :: (x :: xs).erase (smallestKey x xs)) :=
        List.perm_cons_erase (smallestKey_mem x xs)
    _ = smallestKey x xs :: z :: zs := by rw [h]
    List.Perm _ _ := .cons _ (List.perm_cons_erase (smallestKey_mem z zs))

/-! ### The loop -/

/-- What every round keeps of store and live keys, the loop ends with, having at most one live key left. -/
theorem mergeLoop_induction {P : List TreeNode → List NodeKey → Prop}
    (round : ∀ nodes x xs z zs, (x :: xs).erase (smallestKey x xs) = z :: zs → P nodes (x :: xs) →
      P (nodes ++ [.internal (smallestKey x xs).index (smallestKey z zs).index
          ((smallestKey x xs).freq + (smallestKey z zs).freq)])
        ((z :: zs).erase (smallestKey z zs) ++ [⟨(smallestKey x xs).freq + (smallestKey z zs).freq, nodes.length⟩]))
    {fuel : Nat} {nodes : List TreeNode} {keys : List NodeKey} (hfuel : keys.length ≤ fuel) (h : P nodes keys) :
    ∃ keys', keys'.length ≤ 1 ∧ P (mergeLoop fuel nodes keys) keys' := by
  induction fuel generalizing nodes keys with
  | zero => exact ⟨keys, by omega, h⟩
  | succ fuel ih =>
    match keys with
    | [] => exact ⟨[], by simp, h⟩
    | [x] => exact ⟨[x], by simp, h⟩
    | x :: y :: rest =>
      have hlen : ((x :: y :: rest).erase (smallestKey x (y :: rest))).length = rest.length + 1 :=
        List.length_erase_of_mem (smallestKey_mem x (y :: rest))
      unfold mergeLoop
      dsimp only
      split
      · next hnil => simp [hnil] at hlen
      · next z zs hz =>
        refine ih ?_ (round nodes x (y :: rest) z zs hz h)
        rw [hz] at hlen
        rw [List.length_append, List.length_erase_of_mem (smallestKey_mem z zs), hlen]
        simpa using hfuel

/-- What holds of the store and the live keys after every round, begun with `leaves`: the nodes fit; a node is live exactly
when it is no child, and a child exactly once; a live key has its node's frequency; the newest node is live and last; no leaf
is added; each round trades a key for a node; the live frequencies add up to the leaves'. -/
structure MergeInv (leaves nodes : List TreeNode) (keys : List NodeKey) : Prop where
  fits   : nodesFit nodes
  perm   : (childrenOf nodes ++ keys.map NodeKey.index).Perm (List.range nodes.length)
  freqs  : ∀ k ∈ keys, ∃ n, nodes[k.index]? = some n ∧ n.freq = k.freq
  newest : ∀ j, (keys.map NodeKey.index).getLast? = some j → j + 1 = nodes.length
  empty  : keys = [] → nodes = []
  bytes  : leafBytes nodes = leafBytes leaves
  length : nodes.length + keys.length = 2 * leaves.length
  total  : (keys.map NodeKey.freq).sum = (leaves.map TreeNode.freq).sum

theorem childrenOf_eq_nil_of_leaves {ns : List TreeNode} (h : ∀ n ∈ ns, ∃ b c, n = .leaf b c) : childrenOf ns = [] :=
  List.eq_nil_iff_forall_not_mem.2 fun j hj => by
    obtain ⟨l, r, f, hmem, -⟩ := exists_parent hj
    obtain ⟨b, c, hleaf⟩ := h _ hmem
    cases hleaf

theorem mergeInv_leaves {leaves : List TreeNode} (h : ∀ n ∈ leaves, ∃ b c, n = .leaf b c) :
    MergeInv leaves leaves (keysOf leaves) where
  fits i n hi := by
    obtain ⟨b, c, rfl⟩ := h n (List.mem_of_getElem? hi)
    rfl
  perm := by rw [childrenOf_eq_nil_of_leaves h, keysOf_map_index, List.nil_append]
  freqs _ hk := freq_of_mem_keysOf hk
  newest j hj := by
    rw [keysOf_map_index, List.getLast?_range] at hj
    split at hj
    · cases hj
    · cases hj; omega
  empty := by simp [keysOf]
  bytes := rfl
  length := by simp [keysOf, two_mul]
  total := by rw [keysOf_map_freq]

/-- One round: two live keys make way for their parent's. -/
theorem MergeInv.merge {leaves nodes : List TreeNode} {keys rest : List NodeKey} {a c : NodeKey}
    (h : MergeInv leaves nodes keys) (hperm : keys.Perm (a :: c :: rest)) :
    MergeInv leaves (nodes ++ [.internal a.index c.index (a.freq + c.freq)])
      (rest ++ [⟨a.freq + c.freq, nodes.length⟩]) where
  fits := by
    obtain ⟨x, hx, hxf⟩ := h.freqs a (hperm.mem_iff.2 (by simp))
    obtain ⟨y, hy, hyf⟩ := h.freqs c (hperm.mem_iff.2 (by simp))
    exact nodesFit_concat h.fits (nodeFits_internal_iff.2
      ⟨x, y, hx, hy, (List.getElem?_eq_some_iff.1 hx).1, (List.getElem?_eq_some_iff.1 hy).1, by rw [hxf, hyf]⟩)
  perm := by
    have hlive := ((hperm.map NodeKey.index).append_left (childrenOf nodes)).symm.trans h.perm
    simpa [List.range_succ] using hlive.append_right [nodes.length]
  freqs k hk := by
    obtain hk | hk := List.mem_append.1 hk
    · obtain ⟨n, hn, hf⟩ := h.freqs k (hperm.mem_iff.2 (by simp [hk]))
      exact ⟨n, getElem?_append_of_eq_some _ hn, hf⟩
    · obtain rfl := List.mem_singleton.1 hk
      exact ⟨_, List.getElem?_concat_length, rfl⟩
  newest j hj := by
    rw [List.map_append, List.map_singleton, List.getLast?_concat] at hj
    obtain rfl := Option.some.inj hj
    simp
  empty := by simp
  bytes := by simp [h.bytes]
  length := by
    have hlen := hperm.length_eq
    have := h.length
    simp only [List.length_append, List.length_cons, List.length_nil] at hlen ⊢
    omega
  total := by
    rw [← h.total, (hperm.map NodeKey.freq).sum_eq]
    simp [add_comm, add_assoc]

/-- The tree builder ends with at most one live key. -/
theorem buildTree_mergeInv (f : Vector Word 256) :
    ∃ keys, keys.length ≤ 1 ∧ MergeInv (leavesOf f) (buildTree f) keys :=
  mergeLoop_induction (P := MergeInv (leavesOf f)) (fun _ _ _ _ _ hz h => h.merge (perm_two_smallest hz))
    (by simp [keysOf]) (mergeInv_leaves fun _ => eq_leaf_of_mem_leavesOf)

/-- With one live key left the store is a strict tree under it. -/
theorem MergeInv.childrenOf_perm {leaves nodes : List TreeNode} {k : NodeKey} (h : MergeInv leaves nodes [k]) :
    (childrenOf nodes).Perm (List.range (nodes.length - 1)) := by
  have hlast : k.index + 1 = nodes.length := h.newest k.index rfl
  have hperm := h.perm
  rw [← hlast, List.range_succ, List.map_singleton, List.perm_append_right_iff] at hperm
  rwa [← hlast]

theorem MergeInv.treeWf {leaves nodes : List TreeNode} {keys : List NodeKey} (h : MergeInv leaves nodes keys)
    (hkeys : keys.length ≤ 1) (hleaves : leaves.length ≤ 256) (hbytes : (leafBytes leaves).Nodup) :
    treeWf nodes = true := by
  match keys with
  | [] =>
    obtain rfl := h.empty rfl
    rfl
  | [k] =>
    have hlen := h.length
    rw [List.length_singleton] at hlen
    refine (treeWf_iff nodes).2 ⟨.inr ⟨by omega, by omega⟩, h.fits, ?_, fun j hj => ?_, by rwa [h.bytes]⟩
    · exact h.childrenOf_perm.nodup_iff.2 List.nodup_range
    · exact h.childrenOf_perm.mem_iff.2 (List.mem_range.2 hj)

theorem buildTree_treeWf (f : Vector Word 256) : treeWf (buildTree f) = true := by
  obtain ⟨keys, hkeys, h⟩ := buildTree_mergeInv f
  exact h.treeWf hkeys (leavesOf_length_le f) (leafBytes_leavesOf_nodup f)

/-- The root has the sum of the counts, cut to 32 bits. -/
theorem buildTree_root_freq {f : Vector Word 256} {n : TreeNode} (hn : (buildTree f).getLast? = some n) :
    n.freq = BitVec.ofNat 32 (countTotal f) := by
  obtain ⟨keys, hkeys, h⟩ := buildTree_mergeInv f
  match keys with
  | [] => simp [h.empty rfl] at hn
  | [k] =>
    obtain ⟨m, hm, hmf⟩ := h.freqs k (by simp)
    have hlast : k.index + 1 = (buildTree f).length := h.newest k.index rfl
    rw [List.getLast?_eq_getElem?, ← hlast, Nat.add_sub_cancel, hm] at hn
    obtain rfl := Option.some.inj hn
    rw [hmf, ← sum_freq_leavesOf, ← h.total]
    simp

/-- Settles O40: by the invariant of the merge loop. -/
theorem builtTreeMeetsTheStoreInvariant : Obligations.BuiltTreeMeetsTheStoreInvariant :=
  fun f => ⟨buildTree_treeWf f, fun n hsum hn => by
    rw [buildTree_root_freq hn, BitVec.toNat_ofNat, Nat.mod_eq_of_lt hsum]⟩

end Sys2Proof.Machine
end

section
/-! PROOFS. The code generator (41_huffman_encoder.md R86, R87) over the node stores R38 allows: the walk without its fuel, the
codes it gives, and the leaves it meets. -/

namespace Sys2Proof.Machine

/-! ### The walk without its fuel -/

/-- The walk from node `i` with the fuel R38 makes enough. -/
def walkFrom (nodes : List TreeNode) (i : Nat) (p : Bits) : CodeTable := walk nodes (i + 1) i p

section
variable {nodes : List TreeNode} (hfit : nodesFit nodes)
include hfit

/-- Children stand before their parent, so any fuel beyond the index is as good. -/
theorem walk_eq_walkFrom {fuel i : Nat} (p : Bits) (hi : i < fuel) : walk nodes fuel i p = walkFrom nodes i p := by
  induction fuel using Nat.strong_induction_on generalizing i p with
  | _ fuel ih =>
    obtain ⟨fuel, rfl⟩ : ∃ m, fuel = m + 1 := ⟨fuel - 1, by omega⟩
    unfold walkFrom walk
    split
    · rfl
    · rfl
    · next l r f hn =>
      obtain ⟨hl, hr⟩ := nodesFit_children_lt hfit hn
      have hchild : ∀ j < i, ∀ q, walk nodes fuel j q = walk nodes i j q := fun j hj q =>
        (ih fuel (by omega) q (by omega)).trans (ih i (by omega) q hj).symm
      rw [hchild l hl, hchild r hr]

omit hfit in
theorem walkFrom_leaf {i : Nat} {b : Byte} {f : Word} (hn : nodes[i]? = some (.leaf b f)) (p : Bits) :
    walkFrom nodes i p = [(b, p)] := by
  simp [walkFrom, walk, hn]

theorem walkFrom_internal {i l r : Nat} {f : Word} (hn : nodes[i]? = some (.internal l r f)) (p : Bits) :
    walkFrom nodes i p = walkFrom nodes l (p ++ [false]) ++ walkFrom nodes r (p ++ [true]) := by
  obtain ⟨hl, hr⟩ := nodesFit_children_lt hfit hn
  rw [← walk_eq_walkFrom hfit _ hl, ← walk_eq_walkFrom hfit _ hr]
  simp [walkFrom, walk, hn]

/-- Induction from the leaves of a store upwards. -/
theorem node_induction {motive : ∀ i, i < nodes.length → Prop}
    (leaf : ∀ i hi b f, nodes[i]? = some (.leaf b f) → motive i hi)
    (internal : ∀ i hi l r f hl hr, nodes[i]? = some (.internal l r f) → motive l hl → motive r hr → motive i hi)
    (i : Nat) (hi : i < nodes.length) : motive i hi := by
  induction i using Nat.strong_induction_on with
  | _ i ih =>
    cases hn : nodes[i] with
    | leaf b f => exact leaf i hi b f (List.getElem?_eq_some_iff.2 ⟨hi, hn⟩)
    | internal l r f =>
      have hsome := List.getElem?_eq_some_iff.2 ⟨hi, hn⟩
      obtain ⟨hl, hr⟩ := nodesFit_children_lt hfit hsome
      exact internal i hi l r f _ _ hsome (ih l hl (hl.trans hi)) (ih r hr (hr.trans hi))

/-! ### The codes -/

/-- Every code continues the path walked so far. -/
theorem prefix_of_mem_walkFrom {i : Nat} (hi : i < nodes.length) {p : Bits} {e : Byte × Bits}
    (he : e ∈ walkFrom nodes i p) : p <+: e.2 := by
  induction i, hi using node_induction hfit generalizing p with
  | leaf i hi b f hn =>
    rw [walkFrom_leaf hn, List.mem_singleton] at he
    rw [he]
  | internal i hi l r f hl hr hn ihl ihr =>
    rw [walkFrom_internal hfit hn, List.mem_append] at he
    obtain he | he := he
    · exact (List.prefix_append p [false]).trans (ihl he)
    · exact (List.prefix_append p [true]).trans (ihr he)

/-- Two paths part at some node, the first to the left. -/
def partsLeftOf (c d : Bits) : Prop := ∃ p cs ds, c = p ++ false :: cs ∧ d = p ++ true :: ds

/-- Each code parts to the left from every later one. -/
theorem walkFrom_pairwise {i : Nat} (hi : i < nodes.length) (p : Bits) :
    (walkFrom nodes i p).Pairwise fun e f => partsLeftOf e.2 f.2 := by
  induction i, hi using node_induction hfit generalizing p with
  | leaf i hi b f hn =>
    rw [walkFrom_leaf hn]
    exact List.pairwise_singleton ..
  | internal i hi l r f hl hr hn ihl ihr =>
    rw [walkFrom_internal hfit hn, List.pairwise_append]
    refine ⟨ihl _, ihr _, fun e he g hg => ?_⟩
    obtain ⟨cs, hcs⟩ := prefix_of_mem_walkFrom hfit hl he
    obtain ⟨ds, hds⟩ := prefix_of_mem_walkFrom hfit hr hg
    exact ⟨p, cs, ds, by simp [← hcs], by simp [← hds]⟩

omit hfit in
theorem childrenOf_take_length_le {m n : Nat} (h : m ≤ n) :
    (childrenOf (nodes.take m)).length ≤ (childrenOf (nodes.take n)).length := by
  rw [← List.take_append_drop m (nodes.take n), List.take_take, Nat.min_eq_left h, childrenOf_append,
    List.length_append]
  exact Nat.le_add_right ..

omit hfit in
theorem childrenOf_take_succ {i l r : Nat} {f : Word} (hn : nodes[i]? = some (.internal l r f)) :
    childrenOf (nodes.take (i + 1)) = childrenOf (nodes.take i) ++ [l, r] := by
  simp [List.take_add_one, hn]

/-- A path meets one internal node a bit, each with two children of its own, and none of them twice. -/
theorem length_of_mem_walkFrom {i : Nat} (hi : i < nodes.length) {p : Bits} {e : Byte × Bits}
    (he : e ∈ walkFrom nodes i p) : 2 * e.2.length ≤ 2 * p.length + (childrenOf (nodes.take (i + 1))).length := by
  induction i, hi using node_induction hfit generalizing p with
  | leaf i hi b f hn =>
    rw [walkFrom_leaf hn, List.mem_singleton] at he
    rw [he]
    exact Nat.le_add_right ..
  | internal i hi l r f hl hr hn ihl ihr =>
    obtain ⟨hli, hri⟩ := nodesFit_children_lt hfit hn
    have hchild : ∀ j < i, ∀ q : Bits, q.length = p.length + 1 →
        2 * e.2.length ≤ 2 * q.length + (childrenOf (nodes.take (j + 1))).length →
        2 * e.2.length ≤ 2 * p.length + (childrenOf (nodes.take (i + 1))).length := fun j hj q hq h => by
      have hmono := childrenOf_take_length_le (nodes := nodes) (show j + 1 ≤ i from hj)
      rw [childrenOf_take_succ hn, List.length_append]
      simp only [List.length_cons, List.length_nil]
      omega
    rw [walkFrom_internal hfit hn, List.mem_append] at he
    obtain he | he := he
    · exact hchild l hli _ (by simp) (ihl he)
    · exact hchild r hri _ (by simp) (ihr he)

/-! ### The leaves met -/

/-- The leaves' bytes under a node, from left to right. -/
def bytesUnder (nodes : List TreeNode) (i : Nat) : List Byte := (walkFrom nodes i []).map Prod.fst

/-- The path walked so far does not matter to the bytes. -/
theorem walkFrom_map_fst {i : Nat} (hi : i < nodes.length) (p : Bits) :
    (walkFrom nodes i p).map Prod.fst = bytesUnder nodes i := by
  induction i, hi using node_induction hfit generalizing p with
  | leaf i hi b f hn =>
    rw [bytesUnder, walkFrom_leaf hn, walkFrom_leaf hn]
    rfl
  | internal i hi l r f hl hr hn ihl ihr =>
    rw [bytesUnder, walkFrom_internal hfit hn, walkFrom_internal hfit hn, List.map_append, List.map_append, ihl, ihl,
      ihr, ihr]

omit hfit in
theorem bytesUnder_leaf {i : Nat} {b : Byte} {f : Word} (hn : nodes[i]? = some (.leaf b f)) :
    bytesUnder nodes i = [b] := by
  rw [bytesUnder, walkFrom_leaf hn]
  rfl

theorem bytesUnder_internal {i l r : Nat} {f : Word} (hn : nodes[i]? = some (.internal l r f)) :
    bytesUnder nodes i = bytesUnder nodes l ++ bytesUnder nodes r := by
  obtain ⟨hl, hr⟩ := nodesFit_children_lt hfit hn
  have hlt : i < nodes.length := (List.getElem?_eq_some_iff.1 hn).1
  rw [bytesUnder, walkFrom_internal hfit hn, List.map_append, walkFrom_map_fst hfit (hl.trans hlt),
    walkFrom_map_fst hfit (hr.trans hlt)]

/-- The nodes among the first `k` that are no child of one of them are roots of subtrees that hold the leaves among the first
`k` once each. -/
theorem exists_roots (hnodup : (childrenOf nodes).Nodup) {k : Nat} (hk : k ≤ nodes.length) :
    ∃ roots, (childrenOf (nodes.take k) ++ roots).Perm (List.range k) ∧
      (roots.flatMap (bytesUnder nodes)).Perm (leafBytes (nodes.take k)) := by
  induction k with
  | zero => exact ⟨[], by simp, by simp⟩
  | succ k ih =>
    obtain ⟨roots, hroots, hbytes⟩ := ih (by omega)
    have hsome := List.getElem?_eq_getElem (show k < nodes.length by omega)
    cases hn : nodes[k] with
    | leaf b f =>
      rw [hn] at hsome
      refine ⟨roots ++ [k], ?_, ?_⟩
      · simpa [List.take_add_one, hsome, List.range_succ] using hroots.append_right [k]
      · simpa [List.take_add_one, hsome, bytesUnder_leaf hsome] using hbytes.append_right [b]
    | internal l r f =>
      rw [hn] at hsome
      obtain ⟨hl, hr⟩ := nodesFit_children_lt hfit hsome
      have hdistinct : (childrenOf (nodes.take k) ++ [l, r]).Nodup := by
        rw [← childrenOf_take_succ hsome]
        rw [← List.take_append_drop (k + 1) nodes, childrenOf_append] at hnodup
        exact (List.nodup_append.1 hnodup).1
      obtain ⟨-, hne, hdisjoint⟩ := List.nodup_append.1 hdistinct
      have hroot : ∀ j ∈ [l, r], j < k → j ∈ roots := fun j hj hlt => by
        have hmem := hroots.mem_iff.2 (List.mem_range.2 hlt)
        obtain hmem | hmem := List.mem_append.1 hmem
        · exact absurd rfl (hdisjoint j hmem j hj)
        · exact hmem
      have hsub : roots.Perm (l :: r :: (roots.erase l).erase r) :=
        (List.perm_cons_erase (hroot l (by simp) hl)).trans
          (.cons l (List.perm_cons_erase ((List.mem_erase_of_ne (by simpa [eq_comm] using hne)).2
            (hroot r (by simp) hr))))
      refine ⟨(roots.erase l).erase r ++ [k], ?_, ?_⟩
      · have := ((hsub.append_left (childrenOf (nodes.take k))).symm.trans hroots).append_right [k]
        simpa [childrenOf_take_succ hsome, List.range_succ] using this
      · have hmoved := (hsub.flatMap_right (bytesUnder nodes)).symm.trans hbytes
        simp only [List.flatMap_cons, ← List.append_assoc, ← bytesUnder_internal hfit hsome] at hmoved
        simpa [List.take_add_one, hsome] using List.perm_append_comm.trans hmoved

/-- Under the root of a strict tree stand all leaves, once each. -/
theorem bytesUnder_root_perm (hnodup : (childrenOf nodes).Nodup) (hcover : ∀ j < nodes.length - 1, j ∈ childrenOf nodes)
    (hne : nodes ≠ []) : (bytesUnder nodes (nodes.length - 1)).Perm (leafBytes nodes) := by
  obtain ⟨roots, hroots, hbytes⟩ := exists_roots hfit hnodup le_rfl
  have hlen : nodes.length = nodes.length - 1 + 1 := by
    have := List.length_pos_iff.2 hne
    omega
  have hchildren : (childrenOf nodes).Perm (List.range (nodes.length - 1)) :=
    (List.perm_ext_iff_of_nodup hnodup List.nodup_range).2 fun j =>
      ⟨fun hj => List.mem_range.2 (childrenOf_lt hfit hj), fun hj => hcover j (List.mem_range.1 hj)⟩
  rw [List.take_length] at hroots hbytes
  have hroot : roots.Perm [nodes.length - 1] := by
    rw [hlen, List.range_succ] at hroots
    exact (List.perm_append_left_iff _).1 (hroots.trans (hchildren.symm.append_right _))
  rw [List.perm_singleton.1 hroot] at hbytes
  simpa using hbytes

end

/-! ### The generated table -/

/-- Codes that part from each other are not prefixes of each other. -/
theorem not_prefix_of_partsLeftOf {c d : Bits} (h : partsLeftOf c d) : ¬ c <+: d ∧ ¬ d <+: c := by
  obtain ⟨p, cs, ds, rfl, rfl⟩ := h
  simp [List.prefix_append_right_inj, List.cons_prefix_cons]

/-- A store whose root is a leaf has no other node. -/
theorem eq_singleton_of_root_leaf {nodes : List TreeNode} (h : treeWf nodes = true) {b : Byte} {f : Word}
    (hroot : nodes.getLast? = some (.leaf b f)) : nodes = [.leaf b f] := by
  obtain ⟨hlen, hfit, -, hcover, -⟩ := (treeWf_iff nodes).1 h
  rw [List.getLast?_eq_getElem?] at hroot
  have hlt : nodes.length - 1 < nodes.length := (List.getElem?_eq_some_iff.1 hroot).1
  have hone : nodes.length = 1 := by
    by_contra hne
    -- Of three nodes or more, the last but one needs a parent after it, and there is only the leaf.
    have hodd : nodes.length % 2 = 1 := hlen.elim (fun h0 => by simp [h0] at hlt) And.left
    obtain ⟨l, r, g, hmem, hj⟩ := exists_parent (hcover (nodes.length - 2) (by omega))
    obtain ⟨i, hi⟩ := List.mem_iff_getElem?.1 hmem
    obtain ⟨hl, hr⟩ := nodesFit_children_lt hfit hi
    have hilt : i < nodes.length := (List.getElem?_eq_some_iff.1 hi).1
    obtain rfl : i = nodes.length - 1 := by omega
    rw [hroot] at hi
    cases hi
  obtain ⟨n, rfl⟩ := List.length_eq_one_iff.1 hone
  simpa using hroot

/-- What the walk from an internal root gives: parted codes of 1 to 255 bits, and the leaves' bytes. -/
theorem walkFrom_root {nodes : List TreeNode} (h : treeWf nodes = true) {l r : Nat} {f : Word}
    (hroot : nodes.getLast? = some (.internal l r f)) :
    ((walkFrom nodes (nodes.length - 1) []).Pairwise fun e g => partsLeftOf e.2 g.2) ∧
    (∀ e ∈ walkFrom nodes (nodes.length - 1) [], 1 ≤ e.2.length ∧ e.2.length ≤ 255) ∧
    ((walkFrom nodes (nodes.length - 1) []).map Prod.fst).Perm (leafBytes nodes) := by
  obtain ⟨hlen, hfit, hnodup, hcover, -⟩ := (treeWf_iff nodes).1 h
  have hne : nodes ≠ [] := by rintro rfl; cases hroot
  rw [List.getLast?_eq_getElem?] at hroot
  have hlt : nodes.length - 1 < nodes.length := (List.getElem?_eq_some_iff.1 hroot).1
  refine ⟨walkFrom_pairwise hfit hlt [], fun e he => ⟨?_, ?_⟩, bytesUnder_root_perm hfit hnodup hcover hne⟩
  · obtain ⟨hl, hr⟩ := nodesFit_children_lt hfit hroot
    rw [walkFrom_internal hfit hroot, List.mem_append] at he
    obtain he | he := he
    · exact (prefix_of_mem_walkFrom hfit (hl.trans hlt) he).length_le
    · exact (prefix_of_mem_walkFrom hfit (hr.trans hlt) he).length_le
  · have hdepth := length_of_mem_walkFrom hfit hlt he
    have hchildren : (childrenOf nodes).length ≤ nodes.length - 1 := by
      have := (hnodup.subperm fun j hj => List.mem_range.2 (childrenOf_lt hfit hj)).length_le
      rwa [List.length_range] at this
    have hmax : nodes.length ≤ 511 := hlen.elim (fun h0 => absurd h0 hne) And.right
    rw [Nat.sub_add_cancel (by omega), List.take_length] at hdepth
    simp only [List.length_nil] at hdepth
    omega

/-- R87: over an internal root the code generator gives the walk's table; its length check does not fire. -/
theorem genCodes_eq_walkFrom {nodes : List TreeNode} (h : treeWf nodes = true) {l r : Nat} {f : Word}
    (hroot : nodes.getLast? = some (.internal l r f)) :
    genCodes nodes = .ok (walkFrom nodes (nodes.length - 1) []) := by
  obtain ⟨-, hlen, -⟩ := walkFrom_root h hroot
  obtain ⟨-, hfit, -⟩ := (treeWf_iff nodes).1 h
  have hne : nodes ≠ [] := by rintro rfl; cases hroot
  have hwalk : walk nodes nodes.length (nodes.length - 1) [] = walkFrom nodes (nodes.length - 1) [] :=
    walk_eq_walkFrom hfit [] (Nat.sub_lt (List.length_pos_iff.2 hne) one_pos)
  have hcheck : ((walkFrom nodes (nodes.length - 1) []).any fun e => decide (255 < e.2.length)) = false :=
    List.any_eq_false.2 fun e he => by simpa using (hlen e he).2
  simp [genCodes, hroot, hwalk, hcheck]

/-- Settles O42: the absent tree, the root-only tree, and the walk from an internal root. -/
theorem generatedTableIsPrefixFree : Obligations.GeneratedTableIsPrefixFree := by
  intro nodes h
  cases hroot : nodes.getLast? with
  | none =>
    obtain rfl := List.getLast?_eq_none_iff.1 hroot
    exact ⟨[], rfl, .nil, rfl, .nil, nofun, fun _ => rfl⟩
  | some n =>
    cases n with
    | leaf b f =>
      obtain rfl := eq_singleton_of_root_leaf h hroot
      exact ⟨[(b, [false])], rfl, List.pairwise_singleton .., rfl, .refl _, fun c g hc => by cases hc; rfl, nofun⟩
    | internal l r f =>
      obtain ⟨hparts, hlen, hbytes⟩ := walkFrom_root h hroot
      obtain ⟨-, -, -, -, hnodup⟩ := (treeWf_iff nodes).1 h
      refine ⟨_, genCodes_eq_walkFrom h hroot, hparts.imp not_prefix_of_partsLeftOf,
        (codeTableWf_iff _).2 ⟨hbytes.nodup_iff.2 hnodup, hlen⟩, hbytes, ?_, ?_⟩
      · rintro b g rfl; cases hroot
      · rintro rfl; cases hroot

end Sys2Proof.Machine
end

section
/-! PROOFS. The unit tables after every step (10_state.md R37 to R39), and the runs of a host that uses the register window
only (20_memory.md R43, R53; 70_reset_and_hazards.md R133). -/

namespace Sys2Proof.Machine

/-! ### The frequency analyzer's total (R37) -/

/-- One more occurrence adds at most one to the sum of the values. -/
theorem sum_toNat_set_succ_le (ws : List Word) (i : Nat) (h : i < ws.length) :
    ((ws.set i (ws[i] + 1)).map BitVec.toNat).sum ≤ (ws.map BitVec.toNat).sum + 1 := by
  induction ws generalizing i with
  | nil => cases h
  | cons w ws ih =>
    cases i with
    | zero =>
      have hw : (w + 1).toNat ≤ w.toNat + 1 := by
        rw [BitVec.toNat_add]
        exact Nat.mod_le ..
      simp only [List.getElem_cons_zero, List.set_cons_zero, List.map_cons, List.sum_cons]
      omega
    | succ i =>
      have := ih i (Nat.lt_of_succ_lt_succ h)
      simp only [List.getElem_cons_succ, List.set_cons_succ, List.map_cons, List.sum_cons]
      omega

theorem countTotal_bumpCount_le (f : Vector Word 256) (b : Byte) : countTotal (bumpCount f b) ≤ countTotal f + 1 := by
  have := sum_toNat_set_succ_le f.toList b.toNat (by simpa using b.isLt)
  simpa [countTotal, bumpCount, Vector.toList_set] using this

/-- The counts of a buffer sum to at most its length. -/
theorem countTotal_analyze_le (d : Bytes) : countTotal (analyze d) ≤ d.length := by
  have hfold : ∀ f, countTotal (d.foldl bumpCount f) ≤ countTotal f + d.length := by
    induction d with
    | nil => exact fun f => le_rfl
    | cons b d ih =>
      intro f
      have := ih (bumpCount f b)
      have := countTotal_bumpCount_le f b
      simp only [List.foldl_cons, List.length_cons]
      omega
  have := hfold (Vector.replicate 256 0)
  rwa [countTotal_replicate_zero, Nat.zero_add] at this

/-! ### The tables -/

/-- R39: over a legal node store the code generator gives a legal table. -/
theorem genCodes_wf {nodes : List TreeNode} {ct : CodeTable} (h : treeWf nodes = true) (hct : genCodes nodes = .ok ct) :
    codeTableWf ct = true := by
  obtain ⟨ct', hct', -, hwf, -⟩ := generatedTableIsPrefixFree nodes h
  rw [hct] at hct'
  cases hct'
  exact hwf

/-- A command keeps the tables legal: each of the four that write one writes a legal one. -/
theorem exec_keeps_tablesLegal {i : Instr} {s t : State} (hs : tablesLegal s) (h : exec i s = .next t) :
    tablesLegal t := by
  obtain ⟨hfreq, htree, hcodes⟩ := hs
  obtain ⟨k, rfl⟩ | ⟨r, hr, hb, -, rfl⟩ := exec_next h
  · exact ⟨hfreq, htree, hcodes⟩
  · obtain ⟨rfl, rfl⟩ | ⟨rfl, rfl⟩ | ⟨rfl, ct, hct, rfl⟩ | ⟨rfl, ct, off, hct, rfl⟩ | ⟨out, aux, used, rfl, -, -⟩ :=
      bodyOf_ok hr
    · refine ⟨(countTotal_analyze_le _).trans ?_, htree, hcodes⟩
      rw [sourceBytes_of_reads s rfl, sourceOf_length]
      exact (lengths_le_of_not_badRange hb).1 rfl
    · exact ⟨hfreq, buildTree_treeWf s.freq, hcodes⟩
    · exact ⟨hfreq, htree, genCodes_wf htree hct⟩
    · exact ⟨hfreq, htree, deserialize_wf hct⟩
    · exact ⟨hfreq, htree, hcodes⟩

theorem engineTurn_keeps_tablesLegal {s t : State} (hs : tablesLegal s) (h : engineTurn s = .next t) :
    tablesLegal t := by
  obtain ⟨-, rfl⟩ | ⟨w, -, ⟨-, rfl⟩ | ⟨i, -, hx⟩⟩ := engineTurn_next h
  · exact hs
  · exact hs
  · exact exec_keeps_tablesLegal hs hx

theorem hostCsrWrite_keeps_tablesLegal {s : State} (addr : Nat) (size : AccessSize) (v : Word) (hs : tablesLegal s) :
    tablesLegal (hostCsrWrite addr size v s) := by
  obtain h | ⟨-, h | h | h | h | h⟩ := hostCsrWrite_cases addr size v s <;> rw [h] <;> exact hs

/-- Reset empties the tables. -/
theorem resetEngine_tablesLegal (s : State) : tablesLegal (resetEngine s) :=
  ⟨countTotal_replicate_zero.trans_le (Nat.zero_le _), rfl, rfl⟩

/-- Settles O58, one kind of step at a time: only the engine's turn and reset touch a table. -/
theorem stepKeepsTheUnitTablesLegal : Obligations.StepKeepsTheUnitTablesLegal := by
  intro s t hs h
  obtain ⟨u, hu, hstep⟩ := step_next h
  have htu : tablesLegal u := by
    obtain rfl | ⟨e, rest, -, rfl⟩ := hu
    · exact hs
    · exact hs
  obtain hturn | ⟨addr, size, v, rfl⟩ | ⟨v, rfl⟩ | ⟨a, b, -, rfl⟩ | ⟨-, rfl⟩ := hstep
  · exact engineTurn_keeps_tablesLegal htu hturn
  · exact hostCsrWrite_keeps_tablesLegal addr size v htu
  · exact htu
  · exact htu
  · exact resetEngine_tablesLegal u

/-! ### Runs over ordinary memory -/

/-- What every state of a run by register accesses and resets over ordinary memory meets. -/
structure RegisterOnly (s : State) : Prop where
  tables  : tablesLegal s
  devices : s.params.devices = []
  events  : ∀ e ∈ s.inbox, (∀ a b, e ≠ .memWrite a b) ∧ (∀ a, e ≠ .memRead a)

theorem RegisterOnly.step {s t : State} (hs : RegisterOnly s) (h : step s = .next t) : RegisterOnly t := by
  obtain ⟨hparams, hinbox⟩ := step_frame h
  exact ⟨stepKeepsTheUnitTablesLegal s t hs.tables h, hparams ▸ hs.devices, fun e he => hs.events e (hinbox he)⟩

theorem RegisterOnly.reaches {s t : State} (hs : RegisterOnly s) (h : Reaches s t) : RegisterOnly t := by
  induction h with
  | start => exact hs
  | next _ hstep ih => exact ih.step hstep

/-- R131: over ordinary memory and a legal node store the engine's turn answers a next state. -/
theorem engineTurn_runs {s : State} (hd : s.params.devices = []) (ht : treeWf s.tree = true) :
    ∃ t, engineTurn s = .next t := by
  cases hp : s.phase with
  | idle => exact ⟨s, engineTurn_idle hp⟩
  | busy w => exact (everyAcceptedCommandCompletes s w hp hd ht).imp fun _ => And.left

theorem inFlightUsesDevice_of_no_devices {s : State} (hd : s.params.devices = []) : inFlightUsesDevice s = false := by
  unfold inFlightUsesDevice
  split
  · rfl
  · split
    · rfl
    · rw [usesDevice_of_no_devices hd, Bool.and_false]

/-- Only a memory access of the host could stop the machine. -/
theorem RegisterOnly.not_fault {s : State} (hs : RegisterOnly s) (f : Fault) : Machine.step s ≠ .fault f := by
  intro h
  obtain ⟨-, htree, -⟩ := hs.tables
  cases hi : s.inbox with
  | nil =>
    obtain ⟨t, ht⟩ := engineTurn_runs hs.devices htree
    rw [step_of_nil hi, ht] at h
    cases h
  | cons e rest =>
    rw [step_of_cons hi] at h
    obtain ⟨hwrite, hread⟩ := hs.events e (hi ▸ List.mem_cons_self)
    cases e with
    | csrWrite addr size v => cases h
    | csrRead addr size => cases h
    | memWrite a b => exact hwrite a b rfl
    | memRead a => exact hread a rfl
    | reset =>
      have hnone := inFlightUsesDevice_of_no_devices (s := { s with inbox := rest }) hs.devices
      simp [takeEvent, assertReset, hnone] at h
    | engineTurn =>
      obtain ⟨t, ht⟩ := engineTurn_runs (s := { s with inbox := rest }) hs.devices htree
      rw [takeEvent, ht] at h
      cases h

/-- Settles O60: the invariant holds along the run, and no state that meets it has a step that faults. -/
theorem registerOnlyProgramsAreSafe : Obligations.RegisterOnlyProgramsAreSafe :=
  fun _ hinv hd hevents _ ht => RegisterOnly.not_fault (RegisterOnly.reaches ⟨hinv.tables, hd, hevents⟩ ht)

end Sys2Proof.Machine
end

section
/-! PROOFS. The host's accesses (10_state.md R20 to R35, 20_memory.md R43), the reset values (R42), and the step that runs a
command (30_encoding.md R69). -/

namespace Sys2Proof.Machine

/-! ### The window -/

theorem inWindow_csrBase_add {p : Params} {off : Nat} (h : off < 256) : inWindow p (p.csrBase + off) = true := by
  simp [inWindow, h]

theorem inWindow_of_outside {p : Params} {addr : Nat} (h : addr < p.csrBase ∨ p.csrBase + 256 ≤ addr) :
    inWindow p addr = false := by
  unfold inWindow
  by_contra hin
  simp only [Bool.not_eq_false, Bool.and_eq_true, decide_eq_true_eq] at hin
  omega

/-- R31: another size or a misaligned offset selects no register. -/
theorem csrSelected_bad {p : Params} {off : Nat} {size : AccessSize} (h : size ≠ .word ∨ off % 4 ≠ 0) :
    csrSelected p (p.csrBase + off) size = none := by
  rw [csrSelected, Nat.add_sub_cancel_left, if_neg (not_and_or.2 h)]

/-- R31: a well-formed access selects the register at its offset. -/
theorem csrSelected_word {p : Params} {off : Nat} (h : off % 4 = 0) :
    csrSelected p (p.csrBase + off) .word = csrAt off := by
  rw [csrSelected, Nat.add_sub_cancel_left, if_pos ⟨rfl, h⟩]

theorem csrSelected_offset (p : Params) (n : CsrName) : csrSelected p (p.csrBase + n.offset) .word = some n := by
  rw [csrSelected_word (by cases n <;> rfl), csrAt_of_offset]

theorem CsrName.offset_le (n : CsrName) : n.offset ≤ 0x2C := by cases n <;> decide

/-- R30: no register stands beyond MEM_LAST. -/
theorem csrAt_reserved {off : Nat} (h : 0x30 ≤ off) : csrAt off = none := by
  cases hn : csrAt off with
  | none => rfl
  | some n =>
    have := csrAt_offset hn
    have := n.offset_le
    omega

/-! ### Writes -/

theorem hostCsrWrite_offset (n : CsrName) (v : Word) (s : State) :
    hostCsrWrite (s.params.csrBase + n.offset) .word v s = csrWrite n v s := by
  have := n.offset_le
  simp [hostCsrWrite, inWindow_csrBase_add (show n.offset < 256 by omega), csrSelected_offset]

theorem hostCsrWrite_unselected {addr : Nat} {size : AccessSize} (v : Word) {s : State}
    (h : csrSelected s.params addr size = none) : hostCsrWrite addr size v s = s := by
  simp [hostCsrWrite, h]

theorem hostCsrWrite_outside {addr : Nat} (size : AccessSize) (v : Word) {s : State}
    (h : inWindow s.params addr = false) : hostCsrWrite addr size v s = s := by
  simp [hostCsrWrite, h]

/-- R35: in BUSY every write is ignored. -/
theorem hostCsrWrite_busy (addr : Nat) (size : AccessSize) (v : Word) {s : State} (h : s.phase ≠ .idle) :
    hostCsrWrite addr size v s = s := by
  obtain heq | ⟨hidle, -⟩ := hostCsrWrite_cases addr size v s
  · exact heq
  · exact absurd hidle h

/-! ### Reads -/

theorem hostCsrRead_offset (n : CsrName) (s : State) :
    hostCsrRead (s.params.csrBase + n.offset) .word s = { s with readData := csrValue n s } := by
  have := n.offset_le
  simp [hostCsrRead, inWindow_csrBase_add (show n.offset < 256 by omega), csrSelected_offset]

theorem hostCsrRead_unselected {off : Nat} {size : AccessSize} {s : State} (hoff : off < 256)
    (h : csrSelected s.params (s.params.csrBase + off) size = none) :
    hostCsrRead (s.params.csrBase + off) size s = { s with readData := 0 } := by
  simp [hostCsrRead, inWindow_csrBase_add hoff, h]

theorem hostCsrRead_outside {addr : Nat} (size : AccessSize) {s : State} (h : inWindow s.params addr = false) :
    hostCsrRead addr size s = s := by
  simp [hostCsrRead, h]

/-! ### A step with a host access next -/

section
variable {s : State} {rest : List BusEvent}

theorem step_csrWrite {addr : Nat} {size : AccessSize} {v : Word} (h : s.inbox = .csrWrite addr size v :: rest) :
    step s = .next (hostCsrWrite addr size v { s with inbox := rest }) := step_of_cons h

theorem step_csrRead {addr : Nat} {size : AccessSize} (h : s.inbox = .csrRead addr size :: rest) :
    step s = .next (hostCsrRead addr size { s with inbox := rest }) := step_of_cons h

/-- R33, R34: a 32-bit write at a register's offset in IDLE. -/
theorem step_csrWrite_offset {n : CsrName} {v : Word} (hp : s.phase = .idle)
    (h : s.inbox = .csrWrite (s.params.csrBase + n.offset) .word v :: rest) :
    step s = .next (csrWriteIdle n v { s with inbox := rest }) := by
  rw [step_csrWrite h, hostCsrWrite_offset n v { s with inbox := rest }, csrWrite_idle (s := { s with inbox := rest }) hp]

/-- R32: a 32-bit read at a register's offset. -/
theorem step_csrRead_offset {n : CsrName} (h : s.inbox = .csrRead (s.params.csrBase + n.offset) .word :: rest) :
    step s = .next { s with inbox := rest, readData := csrValue n s } := by
  rw [step_csrRead h, hostCsrRead_offset n { s with inbox := rest }]
  cases n <;> rfl

end

/-! ### The statements about the window -/

/-- Settles O7: the accepted command, at CMD's offset. -/
theorem cmdWriteInIdleIssuesTheCommand : Obligations.CmdWriteInIdleIssuesTheCommand :=
  fun _ _ _ hp hi => step_csrWrite_offset (n := .cmd) hp hi

/-- The registers R33 lists as read-only. -/
def CsrName.readOnly : List CsrName := [.id, .version, .status, .outLen, .aux, .maxLen, .memLast]

theorem csrWrite_readOnly {n : CsrName} (h : n ∈ CsrName.readOnly) (v : Word) (s : State) : csrWrite n v s = s := by
  unfold csrWrite
  split
  · fin_cases h <;> rfl
  · rfl

/-- R30, R33: a write at a read-only or reserved word offset changes nothing. -/
theorem hostCsrWrite_ignored {off : Nat}
    (h : off ∈ [0x00, 0x04, 0x0C, 0x20, 0x24, 0x28, 0x2C] ∨ (0x30 ≤ off ∧ off ≤ 0xFC ∧ off % 4 = 0)) (v : Word) (s : State) :
    hostCsrWrite (s.params.csrBase + off) .word v s = s := by
  obtain h | ⟨hlo, -, halign⟩ := h
  · have hmap : off ∈ CsrName.readOnly.map CsrName.offset := h
    obtain ⟨n, hn, rfl⟩ := List.mem_map.1 hmap
    rw [hostCsrWrite_offset, csrWrite_readOnly hn]
  · exact hostCsrWrite_unselected v (by rw [csrSelected_word halign, csrAt_reserved hlo])

/-- Settles O8, per operand register, and by the offsets that select no register a write changes. -/
theorem operandRegistersStoreAndReadOnlyOnesIgnore : Obligations.OperandRegistersStoreAndReadOnlyOnesIgnore := by
  refine ⟨fun s v rest hp => ⟨?_, ?_, ?_, ?_⟩, fun s off v rest hoff hi => ?_⟩
  · exact step_csrWrite_offset (n := .srcAddr) hp
  · exact step_csrWrite_offset (n := .srcLen) hp
  · exact step_csrWrite_offset (n := .dstAddr) hp
  · exact step_csrWrite_offset (n := .dstCap) hp
  · rw [step_csrWrite hi, hostCsrWrite_ignored hoff v { s with inbox := rest }]

/-- R29: MEM_LAST = MEM_SIZE - 1. -/
theorem memLast_eq (p : Params) : BitVec.ofNat 32 (p.memSize - 1) = p.memLast := by
  simp [Params.memSize]

/-- The twelve registers with their offsets. -/
theorem registers_eq_map (s : State) :
    [(0x00, (0x48554646 : Word)), (0x04, 0x00010007), (0x08, s.cmd), (0x0C, s.status), (0x10, s.srcAddr),
      (0x14, s.srcLen), (0x18, s.dstAddr), (0x1C, s.dstCap), (0x20, s.outLen), (0x24, s.aux), (0x28, s.params.maxLen),
      (0x2C, BitVec.ofNat 32 (s.params.memSize - 1))] = CsrName.all.map fun n => (n.offset, csrValue n s) := by
  rw [memLast_eq]
  rfl

/-- Settles O9: by R20's map, and no register beyond it. -/
theorem registerReadsReturnTheirValues : Obligations.RegisterReadsReturnTheirValues := by
  refine ⟨fun s off v rest hoff hi => ?_, fun s off rest hlo hhi halign hi => ?_⟩
  · rw [registers_eq_map, List.mem_map] at hoff
    obtain ⟨n, -, hn⟩ := hoff
    cases hn
    exact step_csrRead_offset hi
  · rw [step_csrRead hi, hostCsrRead_unselected (s := { s with inbox := rest }) (by omega)
      (by rw [csrSelected_word halign, csrAt_reserved hlo])]

/-- Settles O10: such an access selects no register. -/
theorem badAccessesAreIgnoredAndReadZero : Obligations.BadAccessesAreIgnoredAndReadZero := by
  refine fun s off size rest hoff hbad => ⟨fun hi => ?_, fun v hi => ?_⟩
  · rw [step_csrRead hi, hostCsrRead_unselected (s := { s with inbox := rest }) hoff (csrSelected_bad hbad)]
  · rw [step_csrWrite hi, hostCsrWrite_unselected (s := { s with inbox := rest }) v (csrSelected_bad hbad)]

/-- Settles O11: writes by the phase, reads by R20's map, and what R24 says of a register block in BUSY. -/
theorem busyIgnoresEveryRegisterWrite : Obligations.BusyIgnoresEveryRegisterWrite := by
  intro s w rest hp
  refine ⟨fun off size v _ hi => ?_, fun n hi => step_csrRead_offset hi, fun hc => ?_⟩
  · rw [step_csrWrite hi, hostCsrWrite_busy (s := { s with inbox := rest }) _ size v (by simp [hp])]
  · obtain ⟨-, hstatus, hout, haux⟩ : s.cmd = w ∧ s.status = statusBusy (lastOpOf w) ∧ s.outLen = 0 ∧ s.aux = 0 := by
      simpa [csrLegal, hp] using hc
    refine ⟨fun hi => ⟨_, step_csrRead_offset (n := .status) hi, rfl, ?_⟩, fun hi => ?_, fun hi => ?_⟩
    · show s.status.getLsbD 0 = true
      rw [hstatus, statusBusy_busyBit]
    · rw [step_csrRead_offset (n := .outLen) hi, csrValue, hout]
    · rw [step_csrRead_offset (n := .aux) hi, csrValue, haux]

/-! ### The data memory and the bus outside the window -/

/-- R43: a host access beyond the memory stops the machine. -/
theorem hostMem_noSuchAddress {a : Nat} {s : State} (h : s.params.memSize ≤ a) (b : Byte) :
    hostMemWrite a b s = .fault .noSuchAddress ∧ hostMemRead a s = .fault .noSuchAddress := by
  simp [hostMemWrite, hostMemRead, h]

/-- R43: in IDLE an existing ordinary byte is written and read. -/
theorem hostMem_idle {a : Nat} {s : State} (hp : s.phase = .idle) (ha : a < s.params.memSize)
    (hd : meetsDevice s.params a 1 = false) (b : Byte) :
    hostMemWrite a b s = .next { s with mem := s.mem.write a b } ∧
    hostMemRead a s = .next { s with readData := (s.mem.read a).setWidth 32 } := by
  simp [hostMemWrite, hostMemRead, ha, hd, holdsAsSource, holdsAsDest, hp]

/-- Settles O54: by the address in the data memory, and by the window on the register bus. -/
theorem hostReachesExistingBytesAndTheWindowOnly : Obligations.HostReachesExistingBytesAndTheWindowOnly := by
  refine ⟨fun s a b rest hp hd => ⟨fun hi => ?_, fun hi => ?_⟩, fun s addr size rest hout => ⟨fun v hi => ?_, fun hi => ?_⟩⟩
  · rw [step_of_cons hi]
    exact ⟨fun ha => (hostMem_idle (s := { s with inbox := rest }) hp ha hd b).1,
      fun ha => (hostMem_noSuchAddress (s := { s with inbox := rest }) ha b).1⟩
  · rw [step_of_cons hi]
    exact ⟨fun ha => (hostMem_idle (s := { s with inbox := rest }) hp ha hd b).2,
      fun ha => (hostMem_noSuchAddress (s := { s with inbox := rest }) ha b).2⟩
  · rw [step_csrWrite hi, hostCsrWrite_outside (s := { s with inbox := rest }) size v (inWindow_of_outside hout)]
  · rw [step_csrRead hi, hostCsrRead_outside (s := { s with inbox := rest }) size (inWindow_of_outside hout)]

/-! ### Reset values -/

theorem countOf_replicate_zero (b : Byte) : countOf (Vector.replicate 256 0) b = 0 := by
  simp [countOf]

/-- Settles O12, one value at a time. -/
theorem resetStateHoldsTheSpecsValues : Obligations.ResetStateHoldsTheSpecsValues :=
  ⟨rfl, rfl, rfl, rfl, rfl, rfl, rfl, rfl, rfl, countOf_replicate_zero, rfl, rfl, rfl, rfl⟩

/-! ### The step that runs a command -/

/-- A command's word decodes to it (R66, R67). -/
theorem decode_encode (i : Instr) : decode (encode i) = .ok i := by
  cases i with
  | decode r => cases r <;> rfl
  | encode | rleEnc | rleDec | freq | buildTree | genCodes | serialize | deserialize | pack | buildTrie | unpack => rfl

/-- The engine's turn of a legal word in flight is that command's meaning. -/
theorem engineTurn_legal {s : State} {w : Word} {i : Instr} (hp : s.phase = .busy w) (hd : decode w = .ok i) :
    engineTurn s = exec i s := by
  rw [engineTurn_busy hp, completeWord_legal hd]

theorem withFetchWord_word (s : State) (w : Word) : s.withFetchWord 32 w.toNat = placeCommand w s := by
  rw [State.withFetchWord, Nat.mod_eq_of_lt w.isLt, BitVec.ofNat_toNat, BitVec.setWidth_eq]

/-- Settles O4: with no event left, with the engine's turn next, and after `withFetchWord`, the step is the engine's turn. -/
theorem stepRunsTheCommandInFlight : Obligations.StepRunsTheCommandInFlight := by
  refine ⟨fun s w i hp hd => ⟨fun hi => ?_, fun rest hi => ?_⟩, fun s i => ?_, fun s hp => engineTurn_idle hp⟩
  · rw [step_of_nil hi, engineTurn_legal hp hd]
  · rw [step_of_cons hi]
    exact engineTurn_legal (s := { s with inbox := rest }) hp hd
  · rw [withFetchWord_word, step_of_cons (placeCommand_inbox _ s)]
    exact engineTurn_legal (s := acceptCommand (encode i) s) rfl (decode_encode i)

end Sys2Proof.Machine
end

section
/-! PROOFS. The data memory (20_memory.md R43 to R45, R47, R53): what a transfer changes, the canonical form after every step,
what a command writes and reads of the memory, and the stops over memory that is not ordinary. -/

namespace Sys2Proof.Machine

/-! ### Reading after a transfer (R44, R45) -/

/-- A transfer leaves every byte outside it. -/
theorem Memory.read_writeBytes_outside {m : Memory} (h : m.wf = true) {a x : Nat} (bs : Bytes)
    (hx : x < a ∨ a + bs.length ≤ x) : (m.writeBytes a bs).read x = m.read x := by
  induction bs generalizing m a with
  | nil => rfl
  | cons b bs ih =>
    rw [List.length_cons] at hx
    rw [Memory.writeBytes_cons, ih (Memory.write_wf a b h) (by omega), Memory.read_write h, if_neg (by omega)]

/-- A transferred byte reads back. -/
theorem Memory.read_writeBytes_getElem {m : Memory} (h : m.wf = true) (a : Nat) {bs : Bytes} {k : Nat}
    (hk : k < bs.length) : (m.writeBytes a bs).read (a + k) = bs[k] := by
  induction bs generalizing m a k with
  | nil => cases hk
  | cons b bs ih =>
    have hwf := Memory.write_wf a b h
    rw [Memory.writeBytes_cons]
    cases k with
    | zero =>
      rw [Memory.read_writeBytes_outside hwf bs (by omega), Memory.read_write h]
      exact if_pos rfl
    | succ k => simpa [Nat.add_right_comm, Nat.add_assoc] using ih hwf (a + 1) (Nat.lt_of_succ_lt_succ hk)

theorem Memory.readBytes_writeBytes {m : Memory} (h : m.wf = true) (a : Nat) (bs : Bytes) :
    (m.writeBytes a bs).readBytes a bs.length = bs := by
  refine List.ext_getElem (Memory.readBytes_length ..) fun k _ hk => ?_
  rw [Memory.readBytes_getElem, Memory.read_writeBytes_getElem h]

/-- Memories that agree on a range give the same bytes of it. -/
theorem Memory.readBytes_congr {m m' : Memory} {a n : Nat} (h : ∀ k < n, m'.read (a + k) = m.read (a + k)) :
    m'.readBytes a n = m.readBytes a n :=
  List.map_congr_left fun k hk => h k (List.mem_range.1 hk)

/-! ### The canonical form after every step (R43, R47) -/

/-- A state whose memory is a legal one's after a transfer inside it is legal. -/
theorem memoryLegal_of_writeBytes {s t : State} {a : Nat} {bs : Bytes} (hs : memoryLegal s) (hp : t.params = s.params)
    (hm : t.mem = s.mem.writeBytes a bs) (hfit : bs = [] ∨ a + bs.length ≤ s.params.memSize) : memoryLegal t := by
  obtain ⟨hwf, hin⟩ := hs
  rw [memoryLegal, hp, hm]
  refine ⟨Memory.writeBytes_wf a bs hwf, ?_⟩
  obtain rfl | hfit := hfit
  · exact hin
  · exact Memory.writeBytes_within a bs hfit hin

/-- R70 (b): the destination of an accepted command ends inside the memory. -/
theorem dest_le_memSize_of_not_badRange {i : Instr} {s : State} (hb : badRange i s = false) (hw : writesDest i = true) :
    s.dstAddr.toNat + s.dstCap.toNat ≤ s.params.memSize := by
  have h := (badRange_iff i s).not.1 (by simp [hb])
  simp only [outOfRange_iff, not_or, not_and, not_lt] at h
  exact (h.2 hw).2

/-- A committed output is empty or ends inside the memory. -/
theorem bodyOf_out_fits {i : Instr} {s : State} {src : Bytes} {r : Result} (hr : bodyOf i s src = .ok r)
    (hb : badRange i s = false) (hc : writesDest i = true → r.out.length ≤ s.dstCap.toNat) :
    r.out = [] ∨ s.dstAddr.toNat + r.out.length ≤ s.params.memSize := by
  cases hw : writesDest i with
  | false => exact .inl (bodyOf_out_of_no_dest hr hw)
  | true =>
    have := dest_le_memSize_of_not_badRange hb hw
    have := hc hw
    exact .inr (by omega)

theorem exec_keeps_memoryLegal {i : Instr} {s t : State} (hs : memoryLegal s) (h : exec i s = .next t) :
    memoryLegal t := by
  obtain ⟨k, rfl⟩ | ⟨r, hr, hb, hc, rfl⟩ := exec_next h
  · exact hs
  · exact memoryLegal_of_writeBytes hs rfl rfl (bodyOf_out_fits hr hb hc)

theorem engineTurn_keeps_memoryLegal {s t : State} (hs : memoryLegal s) (h : engineTurn s = .next t) :
    memoryLegal t := by
  obtain ⟨-, rfl⟩ | ⟨w, -, ⟨-, rfl⟩ | ⟨i, -, hx⟩⟩ := engineTurn_next h
  · exact hs
  · exact hs
  · exact exec_keeps_memoryLegal hs hx

theorem hostCsrWrite_keeps_memoryLegal {s : State} (addr : Nat) (size : AccessSize) (v : Word) (hs : memoryLegal s) :
    memoryLegal (hostCsrWrite addr size v s) := by
  obtain h | ⟨-, h | h | h | h | h⟩ := hostCsrWrite_cases addr size v s <;> rw [h] <;> exact hs

/-- R129: the abandoned bytes are cut at the end of the memory. -/
theorem abandonedLength_le (s : State) : abandonedLength s ≤ s.params.memSize - s.dstAddr.toNat := by
  unfold abandonedLength
  split
  · exact Nat.zero_le _
  · split
    · exact Nat.zero_le _
    · split
      · exact Nat.min_le_right ..
      · exact Nat.zero_le _

@[simp] theorem abandonedBytes_length (s : State) : (abandonedBytes s).length = abandonedLength s := by
  simp [abandonedBytes]

theorem resetEngine_keeps_memoryLegal {s : State} (hs : memoryLegal s) : memoryLegal (resetEngine s) := by
  refine memoryLegal_of_writeBytes hs rfl rfl ?_
  have := abandonedLength_le s
  rw [← List.length_eq_zero_iff, abandonedBytes_length]
  omega

/-- Settles O59, one kind of step at a time: a command's commit, a host write and a reset each write inside the memory. -/
theorem stepKeepsTheDataMemoryLegal : Obligations.StepKeepsTheDataMemoryLegal := by
  intro s t hs h
  obtain ⟨u, hu, hstep⟩ := step_next h
  have hmu : memoryLegal u := by
    obtain rfl | ⟨e, rest, -, rfl⟩ := hu
    · exact hs
    · exact hs
  obtain hturn | ⟨addr, size, v, rfl⟩ | ⟨v, rfl⟩ | ⟨a, b, ha, rfl⟩ | ⟨-, rfl⟩ := hstep
  · exact engineTurn_keeps_memoryLegal hmu hturn
  · exact hostCsrWrite_keeps_memoryLegal addr size v hmu
  · exact hmu
  · exact memoryLegal_of_writeBytes (bs := [b]) hmu rfl rfl (.inr ha)
  · exact resetEngine_keeps_memoryLegal hmu

/-! ### What a command writes (R45) -/

/-- A committed output, empty or in a destination, is at most DST_CAP long. -/
theorem bodyOf_out_le_dstCap {i : Instr} {s : State} {src : Bytes} {r : Result} (hr : bodyOf i s src = .ok r)
    (hc : writesDest i = true → r.out.length ≤ s.dstCap.toNat) : r.out.length ≤ s.dstCap.toNat := by
  cases hw : writesDest i with
  | false => simp [bodyOf_out_of_no_dest hr hw]
  | true => exact hc hw

/-- Settles O21, by reading after a transfer: a failure transfers nothing, a commit the OUT_LEN bytes of its output. -/
theorem memoryChangesOnlyInTheReportedOutput : Obligations.MemoryChangesOnlyInTheReportedOutput := by
  refine ⟨fun m a bs hwf => ⟨Memory.readBytes_writeBytes hwf a bs, fun x => Memory.read_writeBytes_outside hwf bs⟩,
    fun i s t hwf h => ?_⟩
  obtain ⟨k, rfl⟩ | ⟨r, hr, -, hc, rfl⟩ := exec_next h
  · exact ⟨fun _ _ => rfl, fun _ _ => rfl⟩
  · rw [commitCommand_outLen_toNat (bodyOf_out_le_dstCap hr hc), commitCommand_mem]
    refine ⟨fun a => Memory.read_writeBytes_outside hwf r.out, fun hor a => ?_⟩
    have hw : writesDest i = false := by simpa using hor
    rw [bodyOf_out_of_no_dest hr hw, Memory.writeBytes_nil]

/-! ### What a command reads (R44) -/

/-- No body looks at the memory: it has only the source bytes. -/
theorem bodyOf_withMem (i : Instr) (s : State) (m : Memory) : bodyOf i { s with mem := m } = bodyOf i s := by
  cases i <;> rfl

section
variable {i : Instr} {s t : State} {m : Memory}

/-- The source bytes are those of the source range. -/
theorem sourceBytes_withMem (h : readsSource i = true → ∀ k < s.srcLen.toNat,
    m.read (s.srcAddr.toNat + k) = s.mem.read (s.srcAddr.toNat + k)) :
    sourceBytes i { s with mem := m } = sourceBytes i s := by
  cases hr : readsSource i with
  | false => simp [sourceBytes, hr]
  | true =>
    rw [sourceBytes_of_reads _ hr, sourceBytes_of_reads _ hr]
    exact Memory.readBytes_congr (h hr)

/-- A GEN_CODES that answers a next state ran over a legal node store. -/
theorem treeWf_of_exec_next (h : exec i s = .next t) : i = .genCodes → treeWf s.tree = true := by
  rintro rfl
  by_contra hw
  rw [exec_genCodes_malformed s (by simpa using hw)] at h
  cases h

/-- Over another memory with the same source bytes a command fails with the same kind, or commits the same result. -/
theorem exec_next_withMem (h : exec i s = .next t) (hsrc : sourceBytes i { s with mem := m } = sourceBytes i s) :
    (∃ k, t = failCommand i.opcode k s ∧
      exec i { s with mem := m } = .next (failCommand i.opcode k { s with mem := m })) ∨
    ∃ r, r.out.length ≤ s.dstCap.toNat ∧ t = commitCommand i.opcode r s ∧
      exec i { s with mem := m } = .next (commitCommand i.opcode r { s with mem := m }) := by
  have hguard : i = .genCodes → treeWf s.tree = true := treeWf_of_exec_next h
  rw [exec_eq_complete i { s with mem := m } hguard, bodyOf_withMem]
  obtain ⟨hb, ht⟩ | ⟨hb, hd, ⟨k, hk, ht⟩ | ⟨r, hr, ⟨hw, ho, ht⟩ | ⟨hc, ht⟩⟩⟩ :=
    completeCommand_next (exec_next_complete h)
  · exact .inl ⟨_, ht, completeCommand_badRange hb⟩
  · exact .inl ⟨k, ht, completeCommand_error hb hd (hsrc ▸ hk)⟩
  · exact .inl ⟨_, ht, completeCommand_overflow hb hd (hsrc ▸ hr) hw ho⟩
  · exact .inr ⟨r, bodyOf_out_le_dstCap hr hc, ht, completeCommand_commit hb hd (hsrc ▸ hr) hc⟩

end

/-- Settles O23: the same failure has no output, and the same result is read back from either memory. -/
theorem commandsReadOnlyTheirSourceRange : Obligations.CommandsReadOnlyTheirSourceRange := by
  intro i s t m hwf hm h hsrc
  obtain ⟨k, rfl, hu⟩ | ⟨r, hlen, rfl, hu⟩ := exec_next_withMem h (sourceBytes_withMem hsrc)
  · exact ⟨_, hu, rfl, rfl, rfl, rfl, rfl, rfl, nofun⟩
  · refine ⟨_, hu, rfl, rfl, rfl, rfl, rfl, rfl, fun k hk => ?_⟩
    rw [commitCommand_outLen_toNat hlen] at hk
    rw [commitCommand_mem, commitCommand_mem, Memory.read_writeBytes_getElem hm _ hk,
      Memory.read_writeBytes_getElem hwf _ hk]

/-! ### Memory that is not ordinary (R53) -/

theorem usesDevice_iff (i : Instr) (s : State) :
    usesDevice i s = true ↔
      (readsSource i = true ∧ meetsDevice s.params s.srcAddr.toNat s.srcLen.toNat = true) ∨
      (writesDest i = true ∧ meetsDevice s.params s.dstAddr.toNat s.dstCap.toNat = true) := by
  simp [usesDevice]

/-- GEN_CODES uses no range. -/
theorem ne_genCodes_of_usesDevice {i : Instr} {s : State} (h : usesDevice i s = true) : i ≠ .genCodes := by
  rintro rfl
  cases h

theorem exec_of_usesDevice {i : Instr} {s : State} (hb : badRange i s = false) (hd : usesDevice i s = true) :
    exec i s = .fault .notOrdinaryMemory := by
  rw [exec_eq_complete i s fun hg => absurd hg (ne_genCodes_of_usesDevice hd)]
  simp [completeCommand, hb, hd]

theorem hostMem_of_meetsDevice {s : State} {a : Nat} (ha : a < s.params.memSize) (hd : meetsDevice s.params a 1 = true)
    (b : Byte) : hostMemWrite a b s = .fault .notOrdinaryMemory ∧ hostMemRead a s = .fault .notOrdinaryMemory := by
  simp [hostMemWrite, hostMemRead, ha, hd]

theorem assertReset_of_usesDevice {s : State} {w : Word} {i : Instr} (hp : s.phase = .busy w) (hdec : decode w = .ok i)
    (hb : badRange i s = false) (hd : usesDevice i s = true) : assertReset s = .fault .notOrdinaryMemory := by
  have hfl : inFlightUsesDevice s = true := by
    simp [inFlightUsesDevice, hp, decode?, hdec, Except.toOption, hb, hd]
  rw [assertReset, if_pos hfl]

/-- Settles O55: by the framework's check, the host accesses' check, and the check a reset makes of the command in flight. -/
theorem memoryThatIsNotOrdinaryStopsByName : Obligations.MemoryThatIsNotOrdinaryStopsByName := by
  refine ⟨fun i s hb hd => exec_of_usesDevice hb ((usesDevice_iff i s).2 hd), fun s a b rest ha hd => ?_,
    fun s w i rest hp hdec hb hd hi => ?_⟩
  · obtain ⟨hwrite, hread⟩ := hostMem_of_meetsDevice (s := { s with inbox := rest }) ha hd b
    exact ⟨fun hi => (step_of_cons hi).trans hwrite, fun hi => (step_of_cons hi).trans hread⟩
  · rw [step_of_cons hi]
    exact assertReset_of_usesDevice (s := { s with inbox := rest }) hp hdec hb ((usesDevice_iff i s).2 hd)

end Sys2Proof.Machine
end

section
/-! PROOFS. The command words (30_encoding.md R62 to R68): a word is its three fields, it decodes to the command whose
fields they are, and it is illegal exactly as R67 says. -/

namespace Sys2Proof.Machine

/-! ### Words and their fields -/

/-- R62: no bit of a word is outside its three fields. -/
theorem wordOf_fieldsOf (w : Word) : wordOf (fieldsOf w) = w := by
  refine BitVec.eq_of_getLsbD_eq fun k hk => ?_
  simp only [wordOf, fieldsOf, BitVec.getLsbD_append, BitVec.getLsbD_extractLsb', BitVec.getLsbD_ofBool]
  obtain h | rfl | h := Nat.lt_trichotomy k 8
  · simp [h]
  · simp
  · simp [show ¬ k < 8 by omega, show ¬ k - 8 < 1 by omega, show k - 8 - 1 < 23 by omega,
      show 9 + (k - 8 - 1) = k by omega]

/-- A word that decodes to a command has the command's fields. -/
theorem fieldsOf_of_decode {w : Word} {i : Instr} (h : decode w = .ok i) : fieldsOf w = i.fields := by
  obtain ⟨hop, hres, hflag⟩ := decode_ok h
  simp only [Instr.fields, hop, hflag]
  simp only [fieldsOf, hres, lastOpOf]

/-- A word decodes to a command exactly when it is that command's word. -/
theorem decode_eq_ok_iff (w : Word) (i : Instr) : decode w = .ok i ↔ w = Sys2Proof.encode i := by
  constructor
  · intro h
    rw [← wordOf_fieldsOf w, fieldsOf_of_decode h, Sys2Proof.encode]
  · rintro rfl
    exact decode_encode i

/-! ### Legal words -/

/-- R67's three clauses, each denied. -/
theorem fieldsOf_wf_iff (w : Word) :
    (fieldsOf w).wf = true ↔ w.extractLsb' 0 8 ∈ assignedOpcodes ∧ w.extractLsb' 9 23 = 0 ∧
      (w.getLsbD 8 = true → w.extractLsb' 0 8 = (0x02 : Byte)) := by
  simp [CommandFields.wf, CommandFields.opcodeAssigned, CommandFields.reservedClear, CommandFields.flagAllowed,
    fieldsOf, and_assoc, imp_iff_not_or]

/-- Legal fields select a command: the opcode map is defined, and no check of R67 fails. -/
theorem exists_decodeFields_of_wf {f : CommandFields} (h : f.wf = true) : ∃ i, decodeFields f = .ok i := by
  simp only [CommandFields.wf, Bool.and_eq_true] at h
  obtain ⟨⟨hop, hres⟩, hflag⟩ := h
  rw [CommandFields.opcodeAssigned, ← commandOf_isSome f.opcode f.r] at hop
  obtain ⟨i, hi⟩ := Option.isSome_iff_exists.1 hop
  have hres' : f.reserved = 0 := by simpa [CommandFields.reservedClear] using hres
  have hflag' : ¬ (f.r = true ∧ f.opcode ≠ 0x02) := by
    simpa [CommandFields.flagAllowed, imp_iff_not_or] using hflag
  refine ⟨i, ?_⟩
  rw [decodeFields, hi]
  exact (if_neg (not_not.2 hres')).trans (if_neg hflag')

/-- A word decodes to some command exactly when its fields are legal. -/
theorem exists_decode_iff_wf (w : Word) : (∃ i, decode w = .ok i) ↔ (fieldsOf w).wf = true := by
  constructor
  · rintro ⟨i, hi⟩
    by_contra hwf
    obtain ⟨e, he⟩ := decode_error (Bool.eq_false_of_not_eq_true hwf)
    rw [hi] at he
    cases he
  · exact exists_decodeFields_of_wf

/-- Settles O1, by the fields of a word and the clauses of R67. -/
theorem decodeAcceptsExactlyTheEncodings : Obligations.DecodeAcceptsExactlyTheEncodings :=
  ⟨decode_eq_ok_iff, fun w => (exists_decode_iff_wf w).trans (fieldsOf_wf_iff w)⟩

/-- Settles O2: each word is its command's. -/
theorem opcodeMapWordsDecode : Obligations.OpcodeMapWordsDecode :=
  ⟨decode_encode .encode, decode_encode (.decode false), decode_encode (.decode true), decode_encode .rleEnc,
    decode_encode .rleDec, decode_encode .freq, decode_encode .buildTree, decode_encode .genCodes,
    decode_encode .serialize, decode_encode .deserialize, decode_encode .pack, decode_encode .buildTrie,
    decode_encode .unpack⟩

/-! ### Illegal words -/

/-- R115, with LAST_OP apart from the rest of STATUS, which is one constant per kind. -/
theorem failCommand_eq (op : Byte) (k : ErrKind) (s : State) :
    failCommand op k s = { s with
      outLen := 0, aux := 0, phase := .idle,
      status := (op.setWidth 32 <<< 16) ||| ((k.code.setWidth 32 <<< 8) ||| 0x6) } := by
  rw [failCommand, statusFail, BitVec.or_assoc]

/-- Settles O3: a word that R67 rules out has no legal fields, and its completion is the Fail branch. -/
theorem illegalWordFailsAndChangesNothingElse : Obligations.IllegalWordFailsAndChangesNothingElse := by
  intro s w hp hill
  have hwf : ¬ (fieldsOf w).wf = true := by
    rw [fieldsOf_wf_iff]
    rintro ⟨hop, hres, hflag⟩
    obtain h | h | ⟨hr, h⟩ := hill
    · exact h hop
    · exact h hres
    · exact h (hflag hr)
  obtain ⟨e, he⟩ := decode_error (Bool.eq_false_of_not_eq_true hwf)
  rw [engineTurn_busy hp, completeWord_illegal he, failCommand_eq]
  rfl

end Sys2Proof.Machine
end

section
/-! PROOFS. The bodies as their units' answers, the kinds they raise, and the bad ranges (30_encoding.md R69, R70). -/

namespace Sys2Proof.Machine

/-! ### The bodies over their units -/

/-- A result made of a unit's answer fails exactly as the unit does. -/
theorem map_eq_error_iff {α β : Type} {f : α → β} {x : Except ErrKind α} {k : ErrKind} :
    x.map f = .error k ↔ x = .error k := by
  cases x <;> simp [Except.map]

section
variable (s : State) (src : Bytes)

theorem bodyOf_encode : bodyOf .encode s src = (encodeFn src).map fun e => resultOf s e.blob e.tlen e.used := by
  rw [bodyOf, encodeBody]
  cases encodeFn src <;> rfl

theorem bodyOf_decode (r : Bool) :
    bodyOf (.decode r) s src = (decodeFn src r).map fun p => resultOf s p.1 p.2 false := by
  rw [bodyOf, decodeBody]
  cases decodeFn src r <;> rfl

theorem bodyOf_rleEnc :
    bodyOf .rleEnc s src = (Except.ok (rleEncode src)).map fun e => resultOf s e.out e.naive e.used := rfl

theorem bodyOf_rleDec :
    bodyOf .rleDec s src = (rleDecode src).map fun out => resultOf s out (src.length / 2) false := by
  rw [bodyOf, rleDecBody]
  cases rleDecode src <;> rfl

theorem bodyOf_genCodes :
    bodyOf .genCodes s src =
      (genCodes s.tree).map fun ct => { resultOf s [] ct.length false with codeTable := ct } := by
  rw [bodyOf, genCodesBody]
  cases genCodes s.tree <;> rfl

theorem bodyOf_serialize :
    bodyOf .serialize s src = (serialize s.codeTable).map fun out => resultOf s out s.codeTable.length false := by
  rw [bodyOf, serializeBody]
  cases serialize s.codeTable <;> rfl

theorem bodyOf_deserialize :
    bodyOf .deserialize s src = (deserialize src).map fun p => { resultOf s [] p.2 false with codeTable := p.1 } := by
  rw [bodyOf, deserializeBody]
  cases deserialize src <;> rfl

theorem bodyOf_pack : bodyOf .pack s src = (pack src s.codeTable).map fun p => resultOf s p.1 p.2 false := by
  rw [bodyOf, packBody]
  cases pack src s.codeTable <;> rfl

theorem bodyOf_buildTrie :
    bodyOf .buildTrie s src = (buildTrie s.codeTable).map fun t => resultOf s [] t.size false := by
  rw [bodyOf, buildTrieBody]
  cases buildTrie s.codeTable <;> rfl

theorem bodyOf_unpack : bodyOf .unpack s src = (unpack src s.codeTable).map fun p => resultOf s p.1 p.2 false := by
  rw [bodyOf, unpackBody]
  cases unpack src s.codeTable <;> rfl

end

/-! ### The errors of the bodies -/

/-- The Huffman half of the encoder raises its stages' kinds (R106). -/
theorem huffmanBlob_error {p : Bytes} {k : ErrKind} (h : huffmanBlob p = .error k) :
    k = .unrepresentableCode ∨ k = .symbolNotInTable := by
  unfold huffmanBlob at h
  split at h
  · next hk => cases h; exact .inl (genCodes_error hk)
  · split at h
    · next hk => cases h; exact .inr (pack_error hk)
    · split at h
      · next hk => cases h; exact .inl (serialize_error hk)
      · cases h

theorem encodeFn_error {d : Bytes} {k : ErrKind} (h : encodeFn d = .error k) :
    k = .unrepresentableCode ∨ k = .symbolNotInTable := by
  unfold encodeFn at h
  split at h
  · cases h
  · split at h
    · next hk => cases h; exact huffmanBlob_error hk
    · cases h

/-- A body raises what its unit raises: no kind of the framework (R69 to R71). -/
theorem bodyOf_error {i : Instr} {s : State} {src : Bytes} {k : ErrKind} (h : bodyOf i s src = .error k) :
    k ≠ .illegalCommand ∧ k ≠ .badRange ∧ k ≠ .dstOverflow := by
  cases i with
  | rleEnc | freq | buildTree => cases h
  | encode =>
    rw [bodyOf_encode, map_eq_error_iff] at h
    obtain rfl | rfl := encodeFn_error h <;> decide
  | decode r =>
    rw [bodyOf_decode, map_eq_error_iff] at h
    obtain rfl | rfl | ⟨rfl, -⟩ := decodeFn_error h <;> decide
  | rleDec =>
    rw [bodyOf_rleDec, map_eq_error_iff] at h
    obtain rfl := rleDecode_error h
    decide
  | genCodes =>
    rw [bodyOf_genCodes, map_eq_error_iff] at h
    obtain rfl := genCodes_error h
    decide
  | serialize =>
    rw [bodyOf_serialize, map_eq_error_iff] at h
    obtain rfl := serialize_error h
    decide
  | deserialize =>
    rw [bodyOf_deserialize, map_eq_error_iff] at h
    obtain rfl := deserialize_error h
    decide
  | pack =>
    rw [bodyOf_pack, map_eq_error_iff] at h
    obtain rfl := pack_error h
    decide
  | buildTrie =>
    rw [bodyOf_buildTrie, map_eq_error_iff] at h
    obtain rfl := buildTrie_error h
    decide
  | unpack =>
    rw [bodyOf_unpack, map_eq_error_iff] at h
    obtain rfl | rfl := unpack_error h <;> decide

/-! ### Bad ranges (R70) -/

/-- R70 in words: a range the command uses is longer than MAX_LEN or leaves the memory. -/
theorem badRange_iff_lt (i : Instr) (s : State) :
    badRange i s = true ↔
      (readsSource i = true ∧
        (s.params.maxLen.toNat < s.srcLen.toNat ∨ s.params.memSize < s.srcAddr.toNat + s.srcLen.toNat)) ∨
      (writesDest i = true ∧
        (s.params.maxLen.toNat < s.dstCap.toNat ∨ s.params.memSize < s.dstAddr.toNat + s.dstCap.toNat)) := by
  rw [badRange_iff, outOfRange_iff, outOfRange_iff]

/-- GEN_CODES uses no range, so its guard does not come before the range check. -/
theorem exec_of_badRange {i : Instr} {s : State} (h : badRange i s = true) :
    exec i s = .next (failCommand i.opcode .badRange s) := by
  rw [exec_eq_complete i s (by rintro rfl; cases h), completeCommand_badRange h]

/-- Settles O17: a bad range ends in BAD_RANGE, and no other branch of the completion reports its code. -/
theorem badRangeIsReportedExactlyWhenARangeIsBad : Obligations.BadRangeIsReportedExactlyWhenARangeIsBad := by
  intro i s
  rw [← badRange_iff_lt]
  refine ⟨fun hb => ?_, fun t h herr hcode => ?_⟩
  · rw [exec_of_badRange hb, failCommand_eq]
    rfl
  · obtain ⟨hb, -⟩ | ⟨-, -, ⟨k, hk, rfl⟩ | ⟨r, -, ⟨-, -, rfl⟩ | ⟨-, rfl⟩⟩⟩ :=
      completeCommand_next (exec_next_complete h)
    · exact hb
    · rw [failCommand_errCode] at hcode
      obtain ⟨-, hne, -⟩ := bodyOf_error hk
      exact absurd (ErrKind.code_injective k .badRange hcode) hne
    · rw [failCommand_errCode] at hcode
      cases hcode
    · rw [commitCommand_errBit] at herr
      cases herr

end Sys2Proof.Machine
end

section
/-! PROOFS. The commands with a destination over usable ranges (30_encoding.md R69, R71): each writes its unit's output, or
reports that it does not fit, or the unit's error. -/

namespace Sys2Proof.Machine

/-! ### The completion over usable ranges -/

/-- STATUS after a success, by the used flag. -/
theorem statusDone_ite (op : Byte) (used : Bool) :
    statusDone op used = if used then statusDone op true else statusDone op false := by
  cases used <;> rfl

/-- Over usable ranges a command with a destination writes what its unit gives, reports DST_OVERFLOW when that does not
fit, and the unit's error when there is one (R69, R71, R115). -/
theorem exec_dest_command {i : Instr} {s : State} (hw : writesDest i = true) (hs : readsSource i = true → sourceReady s)
    (hd : destReady s) {α : Type} {x : Except ErrKind α} {out : α → Bytes} {aux : α → Nat} {used : α → Bool}
    (hbody : bodyOf i s (sourceBytes i s) = x.map fun a => resultOf s (out a) (aux a) (used a)) :
    (∀ a, x = .ok a → (out a).length ≤ s.dstCap.toNat →
      exec i s = .next { s with
        mem := s.mem.writeBytes s.dstAddr.toNat (out a), phase := .idle, outLen := BitVec.ofNat 32 (out a).length,
        aux := BitVec.ofNat 32 (aux a), status := statusDone i.opcode (used a) }) ∧
    (∀ a, x = .ok a → s.dstCap.toNat < (out a).length →
      exec i s = .next { s with
        outLen := 0, aux := 0, phase := .idle, status := statusFail i.opcode .dstOverflow }) ∧
    (∀ k, x = .error k →
      exec i s = .next { s with outLen := 0, aux := 0, phase := .idle, status := statusFail i.opcode k }) := by
  have hb : badRange i s = false := badRange_of_ready hs fun _ => hd
  have hdev : usesDevice i s = false := usesDevice_of_ready hs fun _ => hd
  rw [exec_eq_complete i s (by rintro rfl; cases hw)]
  refine ⟨?_, ?_, ?_⟩
  · rintro a rfl hfit
    exact completeCommand_commit (r := resultOf s (out a) (aux a) (used a)) hb hdev hbody fun _ => hfit
  · rintro a rfl hover
    exact completeCommand_overflow (r := resultOf s (out a) (aux a) (used a)) hb hdev hbody hw hover
  · rintro k rfl
    exact completeCommand_error hb hdev hbody

/-! ### The commands -/

/-- Settles O24: the RLE encoder has no error. -/
theorem rleEncWritesTheRunEncoding : Obligations.RleEncWritesTheRunEncoding := by
  intro s hs hd
  obtain ⟨hfit, hover, -⟩ := exec_dest_command (i := .rleEnc) rfl (fun _ => hs) hd (bodyOf_rleEnc s (sourceOf s))
  replace hfit := hfit _ rfl
  rw [statusDone_ite] at hfit
  exact ⟨hfit, hover _ rfl⟩

/-- Settles O25: CORRUPT_RLE is the RLE decoder's only error. -/
theorem rleDecWritesTheExpansion : Obligations.RleDecWritesTheExpansion := by
  intro s hs hd
  obtain ⟨hfit, hover, herr⟩ := exec_dest_command (i := .rleDec) rfl (fun _ => hs) hd (bodyOf_rleDec s (sourceOf s))
  rw [sourceOf_length] at hfit
  refine ⟨hfit, hover, fun k hk => ?_⟩
  obtain rfl := rleDecode_error hk
  exact herr _ hk

/-- Settles O31: SYMBOL_NOT_IN_TABLE is the packer's only error. -/
theorem packWritesThePayload : Obligations.PackWritesThePayload := by
  intro s hs hd
  obtain ⟨hfit, hover, herr⟩ := exec_dest_command (i := .pack) rfl (fun _ => hs) hd (bodyOf_pack s (sourceOf s))
  refine ⟨fun out nb => hfit (out, nb), fun out nb => hover (out, nb), fun k hk => ?_⟩
  obtain rfl := pack_error hk
  exact herr _ hk

/-- Settles O33, with the unpacker's two errors. -/
theorem unpackWritesTheDecodedBytes : Obligations.UnpackWritesTheDecodedBytes := by
  intro s hs hd
  obtain ⟨hfit, hover, herr⟩ := exec_dest_command (i := .unpack) rfl (fun _ => hs) hd (bodyOf_unpack s (sourceOf s))
  refine ⟨fun out n => hfit (out, n), fun out n => hover (out, n), fun k hk => ⟨unpack_error hk, ?_⟩⟩
  obtain rfl | rfl := unpack_error hk
  · exact herr _ hk
  · exact herr _ hk

/-- Settles O35, with the errors of the three units DECODE runs. -/
theorem decodeWritesTheDecodedBytes : Obligations.DecodeWritesTheDecodedBytes := by
  intro s r hs hd
  obtain ⟨hfit, hover, herr⟩ := exec_dest_command (i := .decode r) rfl (fun _ => hs) hd (bodyOf_decode s (sourceOf s) r)
  rw [show (Instr.decode r).opcode = 0x02 from rfl] at hfit hover herr
  refine ⟨fun out m => hfit (out, m), fun out m => hover (out, m), fun k hk => ⟨decodeFn_error hk, ?_⟩⟩
  obtain rfl | rfl | ⟨rfl, -⟩ := decodeFn_error hk
  · exact herr _ hk
  · exact herr _ hk
  · exact herr _ hk

/-! ### The serializer over legal tables (R93) -/

/-- No code of a legal table is too long for its length byte. -/
theorem exists_entriesSection {ct : CodeTable} (h : ∀ e ∈ ct, e.2.length ≤ 255) :
    ∃ bs, entriesSection ct = .ok bs := by
  induction ct with
  | nil => exact ⟨[], rfl⟩
  | cons e ct ih =>
    obtain ⟨b, c⟩ := e
    obtain ⟨rest, hrest⟩ := ih fun e he => h e (List.mem_cons_of_mem _ he)
    have hc : ¬ 255 < c.length := not_lt.2 (h (b, c) List.mem_cons_self)
    exact ⟨b :: BitVec.ofNat 8 c.length :: c.map chr ++ rest, by simp [entriesSection, hc, hrest]⟩

theorem exists_serialize {ct : CodeTable} (h : codeTableWf ct = true) : ∃ blob, serialize ct = .ok blob := by
  obtain ⟨-, hlen⟩ := (codeTableWf_iff ct).1 h
  obtain ⟨bs, hbs⟩ := exists_entriesSection fun e he => (hlen e he).2
  exact ⟨be32 bs.length ++ bs, by rw [serialize, hbs]⟩

/-- Settles O29: over a legal table the serializer has no error. -/
theorem serializeWritesTheTableBlob : Obligations.SerializeWritesTheTableBlob := by
  intro s hd hwf
  obtain ⟨blob, hblob⟩ := exists_serialize hwf
  obtain ⟨hfit, hover, -⟩ := exec_dest_command (i := .serialize) rfl nofun hd (bodyOf_serialize s [])
  exact ⟨blob, hblob, hfit blob hblob, hover blob hblob⟩

end Sys2Proof.Machine
end

section
/-! PROOFS. The encoder never fails (41_huffman_encoder.md R83 to R87; 44_pipeline.md R106): every byte of the buffer it
packs has a leaf in the buffer's tree, so it has a code. -/

namespace Sys2Proof.Machine

/-- R83: one more occurrence of a byte is counted for that byte only. -/
theorem countOf_bumpCount (f : Vector Word 256) (b c : Byte) :
    countOf (bumpCount f b) c = if b = c then countOf f c + 1 else countOf f c := by
  split
  · next h =>
    subst h
    simp [countOf, bumpCount]
  · next h =>
    have hne : b.toNat ≠ c.toNat := fun he => h (BitVec.eq_of_toNat_eq he)
    simp [countOf, bumpCount, hne]

/-- R83: the analyzer counts the occurrences of each byte, cut to 32 bits. -/
theorem countOf_analyze (d : Bytes) (b : Byte) : countOf (analyze d) b = BitVec.ofNat 32 (d.count b) := by
  have hfold : ∀ f, countOf (d.foldl bumpCount f) b = countOf f b + BitVec.ofNat 32 (d.count b) := by
    induction d with
    | nil => simp
    | cons c d ih =>
      intro f
      rw [List.foldl_cons, ih, countOf_bumpCount, List.count_cons]
      by_cases h : c = b
      · simp [h, BitVec.ofNat_add, add_assoc, add_comm (1#32)]
      · simp [h]
  rw [analyze, hfold, countOf_replicate_zero, zero_add]

theorem mem_leafBytes_of_leaf_mem {b : Byte} {c : Word} {nodes : List TreeNode} (h : TreeNode.leaf b c ∈ nodes) :
    b ∈ leafBytes nodes := by
  obtain ⟨xs, ys, rfl⟩ := List.append_of_mem h
  simp

/-- R84: a byte that occurs has a leaf. -/
theorem leaf_mem_leavesOf {f : Vector Word 256} {b : Byte} (h : countOf f b ≠ 0) :
    .leaf b (countOf f b) ∈ leavesOf f := by
  rw [leavesOf_eq]
  refine List.mem_filterMap.2 ⟨(countOf f b, b.toNat), ?_, leafAt_eq_some.2 ⟨h, by simp⟩⟩
  exact List.mem_zipIdx_iff_getElem?.2 (by simp [countOf])

theorem leafBytes_buildTree (f : Vector Word 256) : leafBytes (buildTree f) = leafBytes (leavesOf f) := by
  obtain ⟨keys, -, h⟩ := buildTree_mergeInv f
  exact h.bytes

/-- Every byte of a buffer has a leaf in the buffer's tree, as no count of it is cut to 0. -/
theorem mem_leafBytes_buildTree {d : Bytes} (hlen : d.length < 2 ^ 32) {b : Byte} (hb : b ∈ d) :
    b ∈ leafBytes (buildTree (analyze d)) := by
  have hpos : 0 < d.count b := List.count_pos_iff.2 hb
  have hlt : d.count b < 2 ^ 32 := List.count_le_length.trans_lt hlen
  have hcount : countOf (analyze d) b ≠ 0 := fun h => by
    have := congrArg BitVec.toNat h
    rw [countOf_analyze, BitVec.toNat_ofNat, Nat.mod_eq_of_lt hlt] at this
    exact hpos.ne' this
  rw [leafBytes_buildTree]
  exact mem_leafBytes_of_leaf_mem (leaf_mem_leavesOf hcount)

/-- R99: a buffer whose bytes have codes is packed. -/
theorem exists_codeBits {ct : CodeTable} {d : Bytes} (h : ∀ b ∈ d, b ∈ ct.map Prod.fst) :
    ∃ bits, codeBits ct d = .ok bits := by
  induction d with
  | nil => exact ⟨[], rfl⟩
  | cons b d ih =>
    obtain ⟨rest, hrest⟩ := ih fun c hc => h c (List.mem_cons_of_mem _ hc)
    cases hb : lookup ct b with
    | none => exact absurd (h b List.mem_cons_self) ((lookup_eq_none_iff ct b).1 hb)
    | some c => exact ⟨c ++ rest, by simp [codeBits_cons, hb, hrest]⟩

/-- R87, R106: the generated table has a code for every byte, and none too long to serialize. -/
theorem exists_huffmanBlob {p : Bytes} (hlen : p.length < 2 ^ 32) :
    ∃ tb payload, huffmanBlob p = .ok (tb, payload) := by
  obtain ⟨ct, hct, -, hwf, hperm, -, -⟩ := generatedTableIsPrefixFree _ (buildTree_treeWf (analyze p))
  obtain ⟨bits, hbits⟩ := exists_codeBits fun b hb => hperm.mem_iff.2 (mem_leafBytes_buildTree hlen hb)
  obtain ⟨tb, htb⟩ := exists_serialize hwf
  exact ⟨tb, payloadOf bits, by simp [huffmanBlob, pack, hct, hbits, htb]⟩

/-- R79: the RLE stage never lengthens a buffer. -/
theorem rleEncode_out_length_le (d : Bytes) : (rleEncode d).out.length ≤ d.length := by
  unfold rleEncode
  split
  · exact Nat.zero_le _
  · split
    · exact le_rfl
    · next h => exact not_lt.1 h

theorem exists_encodeFn {d : Bytes} (hlen : d.length < 2 ^ 32) : ∃ e, encodeFn d = .ok e := by
  obtain ⟨tb, payload, h⟩ := exists_huffmanBlob ((rleEncode_out_length_le d).trans_lt hlen)
  rw [encodeFn, h]
  split <;> exact ⟨_, rfl⟩

/-- Settles O34: a source of a 32-bit length is encoded without an error. -/
theorem encodeWritesTheBlob : Obligations.EncodeWritesTheBlob := by
  intro s hs hd
  obtain ⟨e, he⟩ := exists_encodeFn (d := sourceOf s) (by rw [sourceOf_length]; exact s.srcLen.isLt)
  obtain ⟨hfit, hover, -⟩ := exec_dest_command (i := .encode) rfl (fun _ => hs) hd (bodyOf_encode s (sourceOf s))
  replace hfit := hfit e he
  rw [statusDone_ite] at hfit
  exact ⟨e, he, hfit, hover e he⟩

end Sys2Proof.Machine
end

section
/-! PROOFS. The run-length codec (40_rle.md R78 to R80): the runs of a buffer as a list, their two-byte form, and the
expansion that undoes it. -/

namespace Sys2Proof.Machine

/-! ### The runs of a buffer (R78) -/

/-- The runs `runsFrom` writes, as pairs of a byte and an uncut length (R78, R79). -/
def runListFrom (b : Byte) (n : Nat) : Bytes → List (Byte × Nat)
  | [] => [(b, n)]
  | c :: cs => if c = b ∧ n < 255 then runListFrom b (n + 1) cs else (b, n) :: runListFrom c 1 cs

/-- The runs of a buffer; `runEncoding_eq` ties them to the model's run encoding. -/
def runList : Bytes → List (Byte × Nat)
  | [] => []
  | b :: bs => runListFrom b 1 bs

/-- The stored form of a list of runs, `[byteValue][runLength]` for each (R78). -/
def runPairs (runs : List (Byte × Nat)) : Bytes := runs.flatMap fun p => [p.1, BitVec.ofNat 8 p.2]

/-- The bytes a list of runs stands for. -/
def expandRuns (runs : List (Byte × Nat)) : Bytes := runs.flatMap fun p => List.replicate p.2 p.1

@[simp] theorem runPairs_cons (b : Byte) (n : Nat) (runs : List (Byte × Nat)) :
    runPairs ((b, n) :: runs) = b :: BitVec.ofNat 8 n :: runPairs runs := rfl

@[simp] theorem expandRuns_nil : expandRuns [] = [] := rfl

@[simp] theorem expandRuns_cons (b : Byte) (n : Nat) (runs : List (Byte × Nat)) :
    expandRuns ((b, n) :: runs) = List.replicate n b ++ expandRuns runs := rfl

theorem runPairs_length (runs : List (Byte × Nat)) : (runPairs runs).length = 2 * runs.length := by
  induction runs with
  | nil => rfl
  | cons p runs ih => rw [runPairs_cons, List.length_cons, List.length_cons, List.length_cons, ih]; omega

theorem runsFrom_eq (b : Byte) (n : Nat) (d : Bytes) : runsFrom b n d = runPairs (runListFrom b n d) := by
  fun_induction runListFrom b n d with
  | case1 => rfl
  | case2 b n c cs hgrow ih => rw [runsFrom, if_pos hgrow, ih]
  | case3 b n c cs hstop ih => rw [runsFrom, if_neg hstop, ih, runPairs_cons]

theorem runEncoding_eq (d : Bytes) : runEncoding d = runPairs (runList d) := by
  cases d with
  | nil => rfl
  | cons b bs => exact runsFrom_eq b 1 bs

/-- A run begun with `n` bytes expands to those bytes and what follows them. -/
theorem expandRuns_runListFrom (b : Byte) (n : Nat) (d : Bytes) :
    expandRuns (runListFrom b n d) = List.replicate n b ++ d := by
  fun_induction runListFrom b n d with
  | case1 => simp
  | case2 b n c cs hgrow ih => rw [ih, hgrow.1, List.replicate_succ', List.append_assoc]; rfl
  | case3 b n c cs hstop ih => rw [expandRuns_cons, ih]; rfl

theorem expandRuns_runList (d : Bytes) : expandRuns (runList d) = d := by
  cases d with
  | nil => rfl
  | cons b bs => exact expandRuns_runListFrom b 1 bs

theorem runListFrom_bounds {b : Byte} {n : Nat} (d : Bytes) (hpos : 1 ≤ n) (hle : n ≤ 255) :
    ∀ p ∈ runListFrom b n d, 1 ≤ p.2 ∧ p.2 ≤ 255 := by
  fun_induction runListFrom b n d with
  | case1 => simpa using ⟨hpos, hle⟩
  | case2 b n c cs hgrow ih => exact ih (by omega) (by omega)
  | case3 b n c cs hstop ih => exact List.forall_mem_cons.2 ⟨⟨hpos, hle⟩, ih le_rfl (by decide)⟩

/-- R78: a run has 1 to 255 bytes. -/
theorem runList_bounds (d : Bytes) : ∀ p ∈ runList d, 1 ≤ p.2 ∧ p.2 ≤ 255 := by
  cases d with
  | nil => nofun
  | cons b bs => exact runListFrom_bounds bs le_rfl (by decide)

/-- The first run is of the byte it was begun with. -/
theorem fst_of_mem_head?_runListFrom {b : Byte} {n : Nat} (d : Bytes) :
    ∀ p ∈ (runListFrom b n d).head?, p.1 = b := by
  fun_induction runListFrom b n d with
  | case1 => simp
  | case2 b n c cs hgrow ih => exact ih
  | case3 => simp

/-- A run stops only at the limit or where the byte changes, so the next run of the same byte means the limit. -/
theorem runListFrom_isChain {b : Byte} {n : Nat} (d : Bytes) (hle : n ≤ 255) :
    (runListFrom b n d).IsChain fun p q => p.1 = q.1 → p.2 = 255 := by
  fun_induction runListFrom b n d with
  | case1 => exact List.isChain_singleton _
  | case2 b n c cs hgrow ih => exact ih (by omega)
  | case3 b n c cs hstop ih =>
    refine List.isChain_cons.2 ⟨fun q hq hbq => ?_, ih (by decide)⟩
    have hcb : c = b := (fst_of_mem_head?_runListFrom cs q hq).symm.trans hbq.symm
    exact le_antisymm hle (not_lt.1 fun hlt => hstop ⟨hcb, hlt⟩)

/-- R78, R79: the runs are maximal. -/
theorem runList_isChain (d : Bytes) : (runList d).IsChain fun p q => p.1 = q.1 → p.2 = 255 := by
  cases d with
  | nil => exact List.isChain_nil
  | cons b bs => exact runListFrom_isChain bs (by decide)

/-! ### The encoder (R79) -/

/-- R79: the run encoding is used exactly when it is no longer than a non-empty buffer. -/
theorem rleEncode_eq (d : Bytes) :
    rleEncode d = ⟨if d ≠ [] ∧ (runEncoding d).length ≤ d.length then runEncoding d else d,
      decide (d ≠ [] ∧ (runEncoding d).length ≤ d.length), (runEncoding d).length⟩ := by
  unfold rleEncode
  split
  · next hnil => subst hnil; rfl
  · next hne =>
    split
    · next hlonger => simp [hlonger]
    · next hfits => simp [hne, not_lt.1 hfits]

theorem rleEncode_used_iff (d : Bytes) :
    (rleEncode d).used = true ↔ d ≠ [] ∧ (runEncoding d).length ≤ d.length := by
  rw [rleEncode_eq, decide_eq_true_iff]

theorem rleEncode_out_of_used {d : Bytes} (h : (rleEncode d).used = true) : (rleEncode d).out = runEncoding d := by
  rw [rleEncode_eq]
  exact if_pos ((rleEncode_used_iff d).1 h)

theorem rleEncode_out_of_not_used {d : Bytes} (h : (rleEncode d).used = false) : (rleEncode d).out = d := by
  rw [rleEncode_eq]
  exact if_neg fun hfits => by simp [(rleEncode_used_iff d).2 hfits] at h

theorem rleEncode_naive (d : Bytes) : (rleEncode d).naive = (runEncoding d).length := by
  rw [rleEncode_eq]

/-- Settles O36: the runs are those of `runList`. -/
theorem rleEncodingIsTheMaximalRunsOrTheData : Obligations.RleEncodingIsTheMaximalRunsOrTheData := fun d =>
  ⟨⟨runList d, runEncoding_eq d, runList_bounds d, expandRuns_runList d, runList_isChain d⟩, rleEncode_used_iff d,
    rleEncode_out_of_used, rleEncode_out_of_not_used, rleEncode_naive d⟩

/-! ### The decoder (R80) -/

/-- Runs of 1 to 255 bytes survive their two-byte form: no stored length is cut, and none is 0. -/
theorem expandPairs_runPairs {runs : List (Byte × Nat)} (h : ∀ p ∈ runs, 1 ≤ p.2 ∧ p.2 ≤ 255) :
    expandPairs (runPairs runs) = .ok (expandRuns runs) := by
  induction runs with
  | nil => rfl
  | cons p runs ih =>
    obtain ⟨b, n⟩ := p
    obtain ⟨⟨hpos, hle⟩, hruns⟩ := List.forall_mem_cons.1 h
    have hn : (BitVec.ofNat 8 n).toNat = n := Nat.mod_eq_of_lt (Nat.lt_succ_of_le hle)
    have hne : BitVec.ofNat 8 n ≠ 0 := fun h0 => by
      rw [h0] at hn
      exact Nat.ne_of_gt hpos hn.symm
    rw [runPairs_cons, expandPairs, if_neg hne, ih hruns, hn, expandRuns_cons]

theorem rleDecode_runEncoding (d : Bytes) : rleDecode (runEncoding d) = .ok d := by
  have heven : ¬ (runPairs (runList d)).length % 2 = 1 := by rw [runPairs_length]; omega
  rw [runEncoding_eq, rleDecode, if_neg heven, expandPairs_runPairs (runList_bounds d), expandRuns_runList]

/-- R80: what RLE encoding used, RLE decoding turns back into the buffer. -/
theorem rleDecode_rleEncode {d : Bytes} (h : (rleEncode d).used = true) : rleDecode (rleEncode d).out = .ok d := by
  rw [rleEncode_out_of_used h, rleDecode_runEncoding]

/-- The run length bytes of a buffer that begins with a pair are that pair's and those of the rest. -/
theorem exists_zeroLength_cons_iff (b n : Byte) (rest : Bytes) :
    (∃ j, (b :: n :: rest)[2 * j + 1]? = some 0) ↔ n = 0 ∨ ∃ j, rest[2 * j + 1]? = some 0 := by
  constructor
  · rintro ⟨j, hj⟩
    cases j with
    | zero => exact .inl (Option.some.inj hj)
    | succ j => exact .inr ⟨j, hj⟩
  · rintro (rfl | ⟨j, hj⟩)
    · exact ⟨0, rfl⟩
    · exact ⟨j + 1, hj⟩

/-- D17: the expander fails exactly on a run length 0. -/
theorem expandPairs_corruptRle_iff (e : Bytes) :
    expandPairs e = .error .corruptRle ↔ ∃ j, e[2 * j + 1]? = some 0 := by
  fun_induction expandPairs e with
  | case1 => exact iff_of_true rfl ⟨0, rfl⟩
  | case2 b n rest hn k hk ih => rw [exists_zeroLength_cons_iff, or_iff_right hn, ← ih, hk]
  | case3 b n rest hn out hout ih =>
    rw [exists_zeroLength_cons_iff, or_iff_right hn, ← ih, hout]
    exact iff_of_false nofun nofun
  | case4 e hshort =>
    have hlen : e.length ≤ 1 := by
      match e with
      | [] => exact Nat.zero_le 1
      | [b] => exact le_rfl
      | b :: n :: rest => exact (hshort b n rest rfl).elim
    have hnone (j : Nat) : e[2 * j + 1]? = none := List.getElem?_eq_none (by omega)
    simp [hnone]

/-- R80: the check of the length comes before the pairs. -/
theorem rleDecode_corruptRle_iff (e : Bytes) :
    rleDecode e = .error .corruptRle ↔ e.length % 2 = 1 ∨ ∃ j, e[2 * j + 1]? = some 0 := by
  rw [rleDecode]
  split
  · next hodd => simp [hodd]
  · next heven => rw [expandPairs_corruptRle_iff, or_iff_right heven]

/-- Settles O37: the decoder reads back the runs, and its one error is CORRUPT_RLE. -/
theorem rleDecodeUndoesRleEncode : Obligations.RleDecodeUndoesRleEncode := by
  refine ⟨fun d => rleDecode_rleEncode, fun e k => ⟨fun h => ?_, ?_⟩⟩
  · obtain rfl := rleDecode_error h
    exact ⟨rfl, (rleDecode_corruptRle_iff e).1 h⟩
  · rintro ⟨rfl, h⟩
    exact (rleDecode_corruptRle_iff e).2 h

end Sys2Proof.Machine
end

section
/-! PROOFS. The analyzer and the tree builder (41_huffman_encoder.md R83 to R85): the exact counts, the leaves of the bytes
that occur, and the order in which the merge loop takes the live nodes. -/

namespace Sys2Proof.Machine

/-! ### The counts (R83) -/

/-- Settles O38: no count of a buffer below 2^32 bytes is cut. -/
theorem analyzeCountsEachByte : Obligations.AnalyzeCountsEachByte := by
  intro d b hlen
  rw [countOf_analyze, BitVec.toNat_ofNat, Nat.mod_eq_of_lt (List.count_le_length.trans_lt hlen)]

/-- A byte of a buffer below 2^32 bytes occurs exactly when its count is not 0. -/
theorem countOf_analyze_ne_zero_iff {d : Bytes} (hlen : d.length < 2 ^ 32) (b : Byte) :
    countOf (analyze d) b ≠ 0 ↔ b ∈ d := by
  rw [← List.count_pos_iff, ← analyzeCountsEachByte d b hlen, Nat.pos_iff_ne_zero]
  exact BitVec.toNat_eq.not

/-! ### The leaves (R84) -/

theorem leavesOf_length (f : Vector Word 256) : (leavesOf f).length = distinctCount f := by
  have hsome : (fun p : Word × Nat => (leafAt p).isSome) = (fun c => c != 0) ∘ Prod.fst := by
    funext p
    simp only [leafAt, Function.comp_apply]
    split
    · next h => simp [h]
    · next h => exact (bne_iff_ne.2 h).symm
  rw [leavesOf_eq, List.length_filterMap_eq_countP, hsome, ← List.countP_map, List.zipIdx_map_fst, distinctCount]

/-- The leaves are those of the bytes that occur, with their counts. -/
theorem leaf_mem_leavesOf_iff {f : Vector Word 256} {b : Byte} {c : Word} :
    TreeNode.leaf b c ∈ leavesOf f ↔ c = countOf f b ∧ c ≠ 0 := by
  constructor
  · intro h
    obtain ⟨⟨w, i⟩, hmem, hleaf⟩ := List.mem_filterMap.1 (leavesOf_eq f ▸ h)
    obtain ⟨hne, heq⟩ := leafAt_eq_some.1 hleaf
    cases heq
    have hi : i < 256 := by simpa using List.snd_lt_of_mem_zipIdx hmem
    have hget : f.toList[i]? = some w := List.mem_zipIdx_iff_getElem?.1 hmem
    refine ⟨?_, hne⟩
    simpa [countOf, Nat.mod_eq_of_lt hi, hi] using hget.symm
  · rintro ⟨rfl, hne⟩
    exact leaf_mem_leavesOf hne

/-- A byte has a leaf exactly when it occurs. -/
theorem mem_leafBytes_leavesOf_iff {f : Vector Word 256} {b : Byte} :
    b ∈ leafBytes (leavesOf f) ↔ countOf f b ≠ 0 := by
  constructor
  · intro h
    obtain ⟨c, hc⟩ := exists_leaf_of_mem_leafBytes h
    obtain ⟨rfl, hne⟩ := leaf_mem_leavesOf_iff.1 hc
    exact hne
  · exact fun h => mem_leafBytes_of_leaf_mem (leaf_mem_leavesOf h)

theorem leafBytes_length_of_leaves {ns : List TreeNode} (h : ∀ n ∈ ns, ∃ b c, n = .leaf b c) :
    (leafBytes ns).length = ns.length := by
  induction ns with
  | nil => rfl
  | cons n ns ih =>
    obtain ⟨b, c, rfl⟩ := h n List.mem_cons_self
    simp [ih fun m hm => h m (List.mem_cons_of_mem _ hm)]

/-- R89: the number of leaves is the number of different bytes of the buffer. -/
theorem distinctCount_analyze {d : Bytes} (hlen : d.length < 2 ^ 32) :
    distinctCount (analyze d) = d.dedup.length := by
  rw [← leavesOf_length, ← leafBytes_length_of_leaves fun _ => eq_leaf_of_mem_leavesOf]
  refine List.Perm.length_eq
    ((List.perm_ext_iff_of_nodup (leafBytes_leavesOf_nodup _) (List.nodup_dedup d)).2 fun b => ?_)
  rw [mem_leafBytes_leavesOf_iff, countOf_analyze_ne_zero_iff hlen, List.mem_dedup]

/-! ### The order of the keys (R84) -/

theorem NodeKey.less_iff (x y : NodeKey) :
    x.less y = true ↔ x.freq.toNat < y.freq.toNat ∨ (x.freq.toNat = y.freq.toNat ∧ x.index < y.index) := by
  simp [NodeKey.less, BitVec.toNat_eq]

/-- Of two different keys one is below the other. -/
theorem NodeKey.less_of_not_less {x y : NodeKey} (h : ¬ x.less y = true) (hne : x.index ≠ y.index) :
    y.less x = true := by
  rw [NodeKey.less_iff] at *
  omega

theorem NodeKey.not_less_trans {x y z : NodeKey} (hxy : ¬ x.less y = true) (hyz : ¬ y.less z = true) :
    ¬ x.less z = true := by
  rw [NodeKey.less_iff] at *
  omega

/-- No key is below the smallest. -/
theorem not_less_smallestKey {k x : NodeKey} {ks : List NodeKey} (hx : x ∈ k :: ks) :
    ¬ x.less (smallestKey k ks) = true := by
  induction ks generalizing k x with
  | nil =>
    obtain rfl := List.mem_singleton.1 hx
    simp [smallestKey, NodeKey.less_iff]
  | cons y ys ih =>
    rw [smallestKey]
    -- `m`, the smaller of `k` and `y`, is in the place of both.
    generalize hm : (if y.less k = true then y else k) = m
    have hsmaller : ¬ k.less m = true ∧ ¬ y.less m = true := by
      simp only [NodeKey.less_iff] at hm ⊢
      split at hm <;> subst hm <;> omega
    obtain ⟨hk, hy⟩ := hsmaller
    obtain rfl | hx := List.mem_cons.1 hx
    · exact NodeKey.not_less_trans hk (ih List.mem_cons_self)
    · obtain rfl | hx := List.mem_cons.1 hx
      · exact NodeKey.not_less_trans hy (ih List.mem_cons_self)
      · exact ih (List.mem_cons_of_mem m hx)

/-! ### The order of the merges (R84) -/

/-- Node `k` of a store merges the two live nodes with the smallest keys, the smaller on the left. -/
def mergesSmallest (nodes : List TreeNode) (k : Nat) : Prop :=
  ∃ l r, nodes[k]? = some (.internal l r ((keyAt nodes l).freq + (keyAt nodes r).freq)) ∧
    l ∈ liveAt nodes k ∧ r ∈ liveAt nodes k ∧ (keyAt nodes l).less (keyAt nodes r) = true ∧
    ∀ j ∈ liveAt nodes k, j ≠ l → j ≠ r → (keyAt nodes r).less (keyAt nodes j) = true

theorem mem_liveAt {nodes : List TreeNode} {j k : Nat} :
    j ∈ liveAt nodes k ↔ j < k ∧ j ∉ childrenOf (nodes.take k) := by
  simp [liveAt]

@[simp] theorem keyAt_index (nodes : List TreeNode) (i : Nat) : (keyAt nodes i).index = i := rfl

theorem keyAt_append {nodes : List TreeNode} (more : List TreeNode) {i : Nat} (h : i < nodes.length) :
    keyAt (nodes ++ more) i = keyAt nodes i := by
  rw [keyAt, keyAt, List.getElem?_append_left h]

theorem liveAt_append {nodes : List TreeNode} (more : List TreeNode) {k : Nat} (h : k ≤ nodes.length) :
    liveAt (nodes ++ more) k = liveAt nodes k := by
  rw [liveAt, liveAt, List.take_append_of_le_length h]

/-- A later node does not matter to a merge. -/
theorem mergesSmallest_append {nodes : List TreeNode} (more : List TreeNode) {k : Nat} (hk : k < nodes.length)
    (h : mergesSmallest nodes k) : mergesSmallest (nodes ++ more) k := by
  obtain ⟨l, r, hnode, hl, hr, hless, hrest⟩ := h
  have hkey : ∀ j ∈ liveAt nodes k, keyAt (nodes ++ more) j = keyAt nodes j := fun j hj =>
    keyAt_append more ((mem_liveAt.1 hj).1.trans hk)
  refine ⟨l, r, ?_⟩
  rw [liveAt_append more hk.le, hkey l hl, hkey r hr]
  exact ⟨getElem?_append_of_eq_some more hnode, hl, hr, hless, fun j hj => hkey j hj ▸ hrest j hj⟩

section
variable {leaves nodes : List TreeNode} {keys : List NodeKey} (h : MergeInv leaves nodes keys)
include h

/-- A live key is its node's. -/
theorem MergeInv.keyAt_of_mem {k : NodeKey} (hk : k ∈ keys) : keyAt nodes k.index = k := by
  obtain ⟨n, hn, hf⟩ := h.freqs k hk
  simp [keyAt, hn, hf]

theorem MergeInv.nodup : (childrenOf nodes ++ keys.map NodeKey.index).Nodup :=
  h.perm.nodup_iff.2 List.nodup_range

/-- The live keys are those of the live nodes. -/
theorem MergeInv.mem_liveAt_iff {j : Nat} : j ∈ liveAt nodes nodes.length ↔ j ∈ keys.map NodeKey.index := by
  obtain ⟨-, -, hdisjoint⟩ := List.nodup_append.1 h.nodup
  have hmem := h.perm.mem_iff (a := j)
  rw [List.mem_append, List.mem_range] at hmem
  rw [mem_liveAt, List.take_length, ← hmem]
  exact ⟨fun ⟨hj, hchild⟩ => hj.resolve_left hchild, fun hj => ⟨.inr hj, fun hchild => hdisjoint j hchild j hj rfl⟩⟩

/-- A round that takes the smallest live key and the smallest of the others makes such a merge. -/
theorem MergeInv.mergesSmallest_round {a c : NodeKey} {rest : List NodeKey} (hperm : keys.Perm (a :: c :: rest))
    (hfirst : ∀ k ∈ keys, ¬ k.less a = true) (hsecond : ∀ k ∈ rest, ¬ k.less c = true) :
    mergesSmallest (nodes ++ [.internal a.index c.index (a.freq + c.freq)]) nodes.length := by
  have ha : a ∈ keys := hperm.mem_iff.2 (by simp)
  have hc : c ∈ keys := hperm.mem_iff.2 (by simp)
  have hlive : ∀ k ∈ keys, k.index ∈ liveAt nodes nodes.length := fun k hk =>
    h.mem_liveAt_iff.2 (List.mem_map_of_mem hk)
  have hkey : ∀ k ∈ keys, keyAt (nodes ++ [.internal a.index c.index (a.freq + c.freq)]) k.index = k := by
    intro k hk
    rw [keyAt_append _ (mem_liveAt.1 (hlive k hk)).1, h.keyAt_of_mem hk]
  have hindex : a.index ≠ c.index := by
    obtain ⟨-, hnodup, -⟩ := List.nodup_append.1 h.nodup
    have hdistinct := (hperm.map NodeKey.index).nodup_iff.1 hnodup
    rw [List.map_cons, List.map_cons] at hdistinct
    exact fun heq => (List.nodup_cons.1 hdistinct).1 (heq ▸ List.mem_cons_self)
  refine ⟨a.index, c.index, ?_⟩
  rw [liveAt_append _ le_rfl, hkey a ha, hkey c hc]
  refine ⟨List.getElem?_concat_length, hlive a ha, hlive c hc,
    NodeKey.less_of_not_less (hfirst c hc) hindex.symm, fun j hj hja hjc => ?_⟩
  obtain ⟨k, hk, rfl⟩ := List.mem_map.1 (h.mem_liveAt_iff.1 hj)
  have hrest : k ∈ rest := by
    obtain rfl | hmem := List.mem_cons.1 (hperm.mem_iff.1 hk)
    · exact absurd rfl hja
    · exact (List.mem_cons.1 hmem).resolve_left (by rintro rfl; exact hjc rfl)
  rw [hkey k hk]
  exact NodeKey.less_of_not_less (hsecond k hrest) hjc

end

/-- What the rounds keep, begun with `leaves`: the store starts with the leaves, and every later node is a merge of the two
smallest live keys. -/
structure MergeOrder (leaves nodes : List TreeNode) (keys : List NodeKey) : Prop where
  inv    : MergeInv leaves nodes keys
  starts : leaves <+: nodes
  merges : ∀ k, leaves.length ≤ k → k < nodes.length → mergesSmallest nodes k

theorem MergeOrder.round {leaves nodes : List TreeNode} {x z : NodeKey} {xs zs : List NodeKey}
    (hz : (x :: xs).erase (smallestKey x xs) = z :: zs) (h : MergeOrder leaves nodes (x :: xs)) :
    MergeOrder leaves
      (nodes ++ [.internal (smallestKey x xs).index (smallestKey z zs).index
        ((smallestKey x xs).freq + (smallestKey z zs).freq)])
      ((z :: zs).erase (smallestKey z zs) ++ [⟨(smallestKey x xs).freq + (smallestKey z zs).freq, nodes.length⟩]) where
  inv := h.inv.merge (perm_two_smallest hz)
  starts := h.starts.trans (List.prefix_append ..)
  merges k hleaves hk := by
    obtain hlt | rfl : k < nodes.length ∨ k = nodes.length := by
      rw [List.length_append, List.length_singleton] at hk
      omega
    · exact mergesSmallest_append _ hlt (h.merges k hleaves hlt)
    · exact h.inv.mergesSmallest_round (perm_two_smallest hz) (fun _ => not_less_smallestKey)
        fun _ hk => not_less_smallestKey (List.mem_of_mem_erase hk)

theorem buildTree_mergeOrder (f : Vector Word 256) :
    ∃ keys, keys.length ≤ 1 ∧ MergeOrder (leavesOf f) (buildTree f) keys :=
  mergeLoop_induction (P := MergeOrder (leavesOf f)) (fun _ _ _ _ _ hz h => h.round hz) (by simp [keysOf])
    { inv := mergeInv_leaves fun _ => eq_leaf_of_mem_leavesOf
      starts := List.prefix_rfl
      merges := fun _ hleaves hk => absurd hk hleaves.not_gt }

/-- A strict tree has one internal node fewer than leaves. -/
theorem MergeInv.length_eq {leaves nodes : List TreeNode} {keys : List NodeKey} (h : MergeInv leaves nodes keys)
    (hkeys : keys.length ≤ 1) : nodes.length = 2 * leaves.length - 1 := by
  have hlen := h.length
  match keys with
  | [] =>
    obtain rfl := h.empty rfl
    rw [List.length_nil] at hlen
    omega
  | [k] =>
    rw [List.length_singleton] at hlen
    omega

/-- Settles O39: by the order the rounds of the merge loop keep. -/
theorem treeMergesTheTwoSmallestKeys : Obligations.TreeMergesTheTwoSmallestKeys := by
  intro f
  obtain ⟨keys, hkeys, h⟩ := buildTree_mergeOrder f
  rw [← leavesOf_length]
  exact ⟨⟨leavesOf f, h.starts, rfl, leavesOf_pairwise f, fun _ _ => leaf_mem_leavesOf_iff⟩, h.inv.length_eq hkeys,
    h.merges⟩

end Sys2Proof.Machine
end

section
/-! PROOFS. The codes as paths of the tree (41_huffman_encoder.md R86): the walk meets exactly the leaves that the paths
from its node lead to. -/

namespace Sys2Proof.Machine

theorem followPath_nil (nodes : List TreeNode) (i : Nat) : followPath nodes i [] = nodes[i]? := rfl

theorem followPath_leaf_cons {nodes : List TreeNode} {i : Nat} {b : Byte} {f : Word}
    (hn : nodes[i]? = some (.leaf b f)) (bit : Bool) (c : Bits) : followPath nodes i (bit :: c) = none := by
  simp [followPath, hn]

theorem followPath_internal_cons {nodes : List TreeNode} {i l r : Nat} {f : Word}
    (hn : nodes[i]? = some (.internal l r f)) (bit : Bool) (c : Bits) :
    followPath nodes i (bit :: c) = followPath nodes (if bit then r else l) c := by
  simp [followPath, hn]

/-- From any node, the walk's codes continue its path by the paths to the leaves under the node. -/
theorem mem_walkFrom_iff {nodes : List TreeNode} (hfit : nodesFit nodes) {i : Nat} (hi : i < nodes.length) (p : Bits)
    (b : Byte) (d : Bits) :
    (b, d) ∈ walkFrom nodes i p ↔ ∃ c fr, d = p ++ c ∧ followPath nodes i c = some (.leaf b fr) := by
  induction i, hi using node_induction hfit generalizing p with
  | leaf i hi b' f hn =>
    rw [walkFrom_leaf hn, List.mem_singleton]
    constructor
    · intro h
      cases h
      exact ⟨[], f, (List.append_nil _).symm, hn⟩
    · rintro ⟨c, fr, rfl, hc⟩
      cases c with
      | nil =>
        rw [followPath_nil, hn] at hc
        cases hc
        rw [List.append_nil]
      | cons bit c =>
        rw [followPath_leaf_cons hn] at hc
        cases hc
  | internal i hi l r f hl hr hn ihl ihr =>
    rw [walkFrom_internal hfit hn, List.mem_append, ihl, ihr]
    constructor
    · rintro (⟨c, fr, rfl, hc⟩ | ⟨c, fr, rfl, hc⟩)
      · exact ⟨false :: c, fr, by simp, (followPath_internal_cons hn false c).trans hc⟩
      · exact ⟨true :: c, fr, by simp, (followPath_internal_cons hn true c).trans hc⟩
    · rintro ⟨c, fr, rfl, hc⟩
      cases c with
      | nil =>
        rw [followPath_nil, hn] at hc
        cases hc
      | cons bit c =>
        rw [followPath_internal_cons hn] at hc
        cases bit with
        | false => exact .inl ⟨c, fr, by simp, hc⟩
        | true => exact .inr ⟨c, fr, by simp, hc⟩

/-- Settles O41: the table is the walk from the root. -/
theorem codesAreTheTreePathsLeftToRight : Obligations.CodesAreTheTreePathsLeftToRight := by
  intro nodes ct l r f h hroot hct
  rw [genCodes_eq_walkFrom h hroot] at hct
  cases hct
  obtain ⟨hparts, -, -⟩ := walkFrom_root h hroot
  obtain ⟨-, hfit, -⟩ := (treeWf_iff nodes).1 h
  have hne : nodes ≠ [] := by rintro rfl; cases hroot
  refine ⟨fun b c => ?_, List.pairwise_map.2 hparts⟩
  rw [mem_walkFrom_iff hfit (Nat.sub_lt (List.length_pos_iff.2 hne) one_pos)]
  simp

end Sys2Proof.Machine
end

section
/-! PROOFS. FREQ, BUILD_TREE and GEN_CODES (41_huffman_encoder.md R89 to R91): the commands of the Huffman encoder write a
table each, and no output. -/

namespace Sys2Proof.Machine

/-- The used flag is set only by commands with a destination (R41). -/
theorem bodyOf_used_of_no_dest {i : Instr} {s : State} {src : Bytes} {r : Result} (h : bodyOf i s src = .ok r)
    (hw : writesDest i = false) : r.used = false :=
  Bool.eq_false_iff.2 fun hu => by obtain rfl | rfl := bodyOf_used h hu <;> cases hw

/-- A commit without output and used flag writes the tables and the report, and no byte of the memory. -/
theorem commitCommand_of_no_out {op : Byte} {r : Result} {s : State} (hout : r.out = []) (hused : r.used = false) :
    commitCommand op r s = { s with
      freq := r.freq, tree := r.tree, codeTable := r.codeTable, outLen := 0, aux := BitVec.ofNat 32 r.aux,
      status := statusDone op false, phase := .idle } := by
  rw [commitCommand, hout, hused]
  rfl

/-- Over a usable source a command without a destination commits its body's tables. -/
theorem exec_table_command {i : Instr} {s : State} {r : Result} (hw : writesDest i = false)
    (hs : readsSource i = true → sourceReady s) (ht : i = .genCodes → treeWf s.tree = true)
    (hbody : bodyOf i s (sourceBytes i s) = .ok r) :
    exec i s = .next { s with
      freq := r.freq, tree := r.tree, codeTable := r.codeTable, outLen := 0, aux := BitVec.ofNat 32 r.aux,
      status := statusDone i.opcode false, phase := .idle } := by
  have hdest : ¬ writesDest i = true := by simp [hw]
  have hb := badRange_of_ready hs fun h => absurd h hdest
  have hd := usesDevice_of_ready hs fun h => absurd h hdest
  rw [exec_eq_complete i s ht, completeCommand_commit hb hd hbody fun h => absurd h hdest,
    commitCommand_of_no_out (bodyOf_out_of_no_dest hbody hw) (bodyOf_used_of_no_dest hbody hw)]

/-- Settles O26: the leaves stand for the different bytes of the source. -/
theorem freqWritesTheCounts : Obligations.FreqWritesTheCounts := by
  intro s hs
  have hlen : (sourceOf s).length < 2 ^ 32 := by
    rw [sourceOf_length]
    exact s.srcLen.isLt
  rw [← distinctCount_analyze hlen]
  exact exec_table_command (i := .freq) rfl (fun _ => hs) nofun rfl

/-- Settles O27: the command has no range to check and its body no error. -/
theorem buildTreeWritesTheNodeStore : Obligations.BuildTreeWritesTheNodeStore := fun _ =>
  exec_table_command (i := .buildTree) rfl nofun nofun rfl

/-- Settles O28: over a legal store the code generator has no error. -/
theorem genCodesWritesTheCodeTable : Obligations.GenCodesWritesTheCodeTable := by
  refine ⟨fun s h => ?_, exec_genCodes_malformed⟩
  obtain ⟨ct, hct, -⟩ := generatedTableIsPrefixFree s.tree h
  refine ⟨ct, hct, ?_⟩
  exact exec_table_command (i := .genCodes) (r := { resultOf s [] ct.length false with codeTable := ct }) rfl nofun
    (fun _ => h) (by rw [bodyOf_genCodes, hct]; rfl)

end Sys2Proof.Machine
end

section
/-! PROOFS. The errors of each command (60_exceptions.md R113, R114): where a failure comes from, and the kinds it can be. -/

namespace Sys2Proof.Machine

/-- A command that fails reports a bad range, an error of its body, or an output that does not fit. -/
theorem exec_next_failed {i : Instr} {s t : State} (h : exec i s = .next t) (herr : t.errBit = true) :
    ∃ k, t = failCommand i.opcode k s ∧
      ((k = .badRange ∧ badRange i s = true) ∨ (k = .dstOverflow ∧ writesDest i = true) ∨
        bodyOf i s (sourceBytes i s) = .error k) := by
  obtain ⟨hb, rfl⟩ | ⟨-, -, ⟨k, hk, rfl⟩ | ⟨r, -, ⟨hw, -, rfl⟩ | ⟨-, rfl⟩⟩⟩ :=
    completeCommand_next (exec_next_complete h)
  · exact ⟨_, rfl, .inl ⟨rfl, hb⟩⟩
  · exact ⟨k, rfl, .inr (.inr hk)⟩
  · exact ⟨_, rfl, .inr (.inl ⟨rfl, hw⟩)⟩
  · rw [commitCommand_errBit] at herr
    cases herr

theorem sourceBytes_length_lt (i : Instr) (s : State) : (sourceBytes i s).length < 2 ^ 32 := by
  cases h : readsSource i with
  | true => rw [sourceBytes_of_reads s h, sourceOf_length]; exact s.srcLen.isLt
  | false => simp [sourceBytes, h]

/-- ENCODE's body has no error: every byte it packs has a code. -/
theorem bodyOf_encode_ne_error {s : State} {src : Bytes} (hlen : src.length < 2 ^ 32) (k : ErrKind) :
    bodyOf .encode s src ≠ .error k := by
  obtain ⟨e, he⟩ := exists_encodeFn hlen
  rw [bodyOf_encode, ne_eq, map_eq_error_iff, he]
  nofun

/-- The kinds of the bodies stand in their rows of R113. -/
theorem bodyOf_error_reportable {i : Instr} {s : State} {src : Bytes} {k : ErrKind} (hlen : src.length < 2 ^ 32)
    (h : bodyOf i s src = .error k) : k.code ∈ reportable i := by
  cases i with
  | rleEnc | freq | buildTree => cases h
  | encode => exact absurd h (bodyOf_encode_ne_error hlen k)
  | decode r =>
    rw [bodyOf_decode, map_eq_error_iff] at h
    obtain rfl | rfl | ⟨rfl, rfl⟩ := decodeFn_error h
    · cases r <;> decide
    · cases r <;> decide
    · decide
  | rleDec =>
    rw [bodyOf_rleDec, map_eq_error_iff] at h
    obtain rfl := rleDecode_error h
    decide
  | genCodes =>
    rw [bodyOf_genCodes, map_eq_error_iff] at h
    obtain rfl := genCodes_error h
    decide
  | serialize =>
    rw [bodyOf_serialize, map_eq_error_iff] at h
    obtain rfl := serialize_error h
    decide
  | deserialize =>
    rw [bodyOf_deserialize, map_eq_error_iff] at h
    obtain rfl := deserialize_error h
    decide
  | pack =>
    rw [bodyOf_pack, map_eq_error_iff] at h
    obtain rfl := pack_error h
    decide
  | buildTrie =>
    rw [bodyOf_buildTrie, map_eq_error_iff] at h
    obtain rfl := buildTrie_error h
    decide
  | unpack =>
    rw [bodyOf_unpack, map_eq_error_iff] at h
    obtain rfl | rfl := unpack_error h <;> decide

/-- A command that uses a range has BAD_RANGE in its row. -/
theorem badRange_reportable {i : Instr} {s : State} (h : badRange i s = true) :
    ErrKind.badRange.code ∈ reportable i := by
  have hrange : readsSource i = true ∨ writesDest i = true := ((badRange_iff i s).1 h).imp And.left And.left
  clear h
  cases i with
  | decode r => cases r <;> decide
  | _ => revert hrange; decide

/-- A command that writes a destination has DST_OVERFLOW in its row. -/
theorem dstOverflow_reportable {i : Instr} (h : writesDest i = true) : ErrKind.dstOverflow.code ∈ reportable i := by
  cases i with
  | decode r => cases r <;> decide
  | _ => revert h; decide

/-- UNREPRESENTABLE_CODE is in the rows of ENCODE, GEN_CODES and SERIALIZE only. -/
theorem eq_of_unrepresentableCode_reportable {i : Instr} (h : ErrKind.unrepresentableCode.code ∈ reportable i) :
    i = .encode ∨ i = .genCodes ∨ i = .serialize := by
  cases i with
  | encode => exact .inl rfl
  | genCodes => exact .inr (.inl rfl)
  | serialize => exact .inr (.inr rfl)
  | decode r => cases r <;> exact absurd h (by decide)
  | _ => exact absurd h (by decide)

/-- Over legal tables no body raises UNREPRESENTABLE_CODE (R87, R93). -/
theorem bodyOf_ne_unrepresentableCode {i : Instr} {s : State} {src : Bytes} (hlen : src.length < 2 ^ 32)
    (htree : treeWf s.tree = true) (htable : codeTableWf s.codeTable = true) :
    bodyOf i s src ≠ .error .unrepresentableCode := by
  intro h
  obtain rfl | rfl | rfl := eq_of_unrepresentableCode_reportable (bodyOf_error_reportable hlen h)
  · exact bodyOf_encode_ne_error hlen _ h
  · obtain ⟨ct, hct, -⟩ := generatedTableIsPrefixFree s.tree htree
    rw [bodyOf_genCodes, map_eq_error_iff, hct] at h
    cases h
  · obtain ⟨blob, hblob⟩ := exists_serialize htable
    rw [bodyOf_serialize, map_eq_error_iff, hblob] at h
    cases h

/-- Settles O16, by where a failure comes from. -/
theorem errorsStayInTheirCommandsRow : Obligations.ErrorsStayInTheirCommandsRow := by
  refine ⟨fun i s t h herr => ?_, fun i s t htree htable h ⟨herr, hcode⟩ => ?_⟩
  · obtain ⟨k, rfl, ⟨rfl, hb⟩ | ⟨rfl, hw⟩ | hk⟩ := exec_next_failed h herr <;> rw [failCommand_errCode]
    · exact badRange_reportable hb
    · exact dstOverflow_reportable hw
    · exact bodyOf_error_reportable (sourceBytes_length_lt i s) hk
  · obtain ⟨k, rfl, hk⟩ := exec_next_failed h herr
    rw [failCommand_errCode] at hcode
    obtain rfl := ErrKind.code_injective k .unrepresentableCode hcode
    obtain ⟨hne, -⟩ | ⟨hne, -⟩ | hk := hk
    · cases hne
    · cases hne
    · exact bodyOf_ne_unrepresentableCode (sourceBytes_length_lt i s) htree htable hk

end Sys2Proof.Machine
end

section
/-! PROOFS. The table blob (42_code_table.md R92 to R95): over legal tables the serializer is the concatenation of the
entries' bytes, and the entry loop reads them back one at a time; and the command DESERIALIZE (R97). -/

namespace Sys2Proof.Machine

/-! ### The length bytes (R13) -/

/-- R13: four big-endian bytes hold a number below 2^32. -/
theorem exists_be32_eq {n : Nat} (h : n < 2 ^ 32) :
    ∃ b3 b2 b1 b0, be32 n = [b3, b2, b1, b0] ∧ be32Value b3 b2 b1 b0 = n := by
  refine ⟨_, _, _, _, rfl, ?_⟩
  simp only [be32Value, BitVec.toNat_ofNat]
  omega

/-! ### The entries section (R92, R93) -/

/-- R92: the stored form of one entry; `entriesSection_eq` ties it to the serializer. -/
def entryBytes (e : Byte × Bits) : Bytes := e.1 :: BitVec.ofNat 8 e.2.length :: e.2.map chr

@[simp] theorem entryBytes_length (e : Byte × Bits) : (entryBytes e).length = 2 + e.2.length := by
  simp [entryBytes]
  omega

/-- R93: with no code too long, the section is the entries' bytes in table order. -/
theorem entriesSection_eq {ct : CodeTable} (h : ∀ e ∈ ct, e.2.length ≤ 255) :
    entriesSection ct = .ok (ct.flatMap entryBytes) := by
  induction ct with
  | nil => rfl
  | cons e ct ih =>
    obtain ⟨b, c⟩ := e
    obtain ⟨hc, hct⟩ := List.forall_mem_cons.1 h
    simp [entriesSection, ih hct, entryBytes, not_lt.2 hc]

theorem length_flatMap_entryBytes (ct : CodeTable) :
    (ct.flatMap entryBytes).length = 2 * ct.length + (ct.map fun e => e.2.length).sum := by
  simp only [List.length_flatMap, entryBytes_length, List.sum_map_add, List.map_const', List.sum_replicate, smul_eq_mul,
    Nat.mul_comm]

/-- R39: distinct bytes are at most 256. -/
theorem length_le_of_codeTableWf {ct : CodeTable} (h : codeTableWf ct = true) : ct.length ≤ 256 := by
  obtain ⟨hnodup, -⟩ := (codeTableWf_iff ct).1 h
  calc ct.length = (ct.map Prod.fst).length := (List.length_map _).symm
    _ ≤ Fintype.card Byte := hnodup.length_le_card
    _ = 256 := FinEnum.card_eq_fintypeCard.symm

/-- The section of a legal table is far below the 2^32 bytes its length field can count. -/
theorem length_flatMap_entryBytes_lt {ct : CodeTable} (h : codeTableWf ct = true) :
    (ct.flatMap entryBytes).length < 2 ^ 32 := by
  obtain ⟨-, hlen⟩ := (codeTableWf_iff ct).1 h
  have hcount : ct.length ≤ 256 := length_le_of_codeTableWf h
  have hsum : (ct.map fun e => e.2.length).sum ≤ (ct.map fun e => e.2.length).length • 255 :=
    List.sum_le_card_nsmul _ _ fun n hn => by
      obtain ⟨e, he, rfl⟩ := List.mem_map.1 hn
      exact (hlen e he).2
  rw [List.length_map, smul_eq_mul] at hsum
  rw [length_flatMap_entryBytes]
  omega

/-! ### The entry loop over a section (R94) -/

/-- One round of the loop reads one entry of a new byte. -/
theorem parseEntries_entryBytes_append {b : Byte} {c : Bits} {acc : CodeTable} (hpos : 1 ≤ c.length)
    (hle : c.length ≤ 255) (hnew : b ∉ acc.map Prod.fst) (fuel : Nat) (rest : Bytes) :
    parseEntries (fuel + 1) (entryBytes (b, c) ++ rest) acc = parseEntries fuel rest (acc ++ [(b, c)]) := by
  have hn : (BitVec.ofNat 8 c.length).toNat = c.length := by
    rw [BitVec.toNat_ofNat, Nat.mod_eq_of_lt (by omega)]
  have hnonzero : BitVec.ofNat 8 c.length ≠ 0 := fun h0 => by
    have hzero : c.length = 0 := hn.symm.trans (congrArg BitVec.toNat h0)
    omega
  have htake : (c.map chr ++ rest).take c.length = c.map chr := List.take_left' (List.length_map _)
  have hdrop : (c.map chr ++ rest).drop c.length = rest := List.drop_left' (List.length_map _)
  have hbits : (c.map chr).map bitOfChr = c := by simp [Function.comp_def]
  have hchars : (c.map chr).all isCodeChar = true := by simp
  rw [entryBytes, List.cons_append, List.cons_append, parseEntries, if_neg hnonzero, hn, if_neg (by simp), htake,
    hchars, (lookup_eq_none_iff acc b).2 hnew, hdrop, hbits]
  rfl

/-- The loop reads a section back behind the entries it has, when all of them have different bytes. -/
theorem parseEntries_flatMap_entryBytes {ct acc : CodeTable} {fuel : Nat} (h : codeTableWf (acc ++ ct) = true)
    (hfuel : ct.length ≤ fuel) : parseEntries fuel (ct.flatMap entryBytes) acc = .ok (acc ++ ct) := by
  induction ct generalizing acc fuel with
  | nil => cases fuel <;> simp [parseEntries]
  | cons e ct ih =>
    obtain _ | fuel := fuel
    · cases hfuel
    · obtain ⟨hnodup, hlen⟩ := (codeTableWf_iff _).1 h
      obtain ⟨hpos, hle⟩ := hlen e (by simp)
      have hnew : e.1 ∉ acc.map Prod.fst := fun hmem => by
        rw [List.map_append] at hnodup
        exact List.disjoint_of_nodup_append hnodup hmem (by simp)
      rw [List.append_cons] at h ⊢
      rw [List.flatMap_cons, parseEntries_entryBytes_append hpos hle hnew, ih h (Nat.le_of_succ_le_succ hfuel)]

/-! ### The round trip (R95) -/

/-- A blob that begins with the length of a legal table's section gives the table, whatever follows the section. -/
theorem deserialize_section_append {ct : CodeTable} (h : codeTableWf ct = true) {b3 b2 b1 b0 : Byte}
    (hvalue : be32Value b3 b2 b1 b0 = (ct.flatMap entryBytes).length) (t : Bytes) :
    deserialize (b3 :: b2 :: b1 :: b0 :: (ct.flatMap entryBytes ++ t)) =
      .ok (ct, 4 + (ct.flatMap entryBytes).length) := by
  rw [deserialize_cons4_ok_iff, hvalue, List.take_left' rfl, List.length_append]
  refine ⟨Nat.le_add_right .., rfl, parseEntries_flatMap_entryBytes h ?_⟩
  rw [length_flatMap_entryBytes]
  omega

/-- Settles O43: the entry loop reads the serializer's section back, entry by entry. -/
theorem tableRoundTripKeepsEveryEntry : Obligations.TableRoundTripKeepsEveryEntry := by
  intro ct h
  obtain ⟨-, hlen⟩ := (codeTableWf_iff ct).1 h
  obtain ⟨b3, b2, b1, b0, hbe, hvalue⟩ := exists_be32_eq (length_flatMap_entryBytes_lt h)
  have hblob : serialize ct = .ok (b3 :: b2 :: b1 :: b0 :: ct.flatMap entryBytes) := by
    rw [serialize, entriesSection_eq fun e he => (hlen e he).2]
    simp only [hbe, List.cons_append, List.nil_append]
  have hlength : (b3 :: b2 :: b1 :: b0 :: ct.flatMap entryBytes).length = 4 + (ct.flatMap entryBytes).length :=
    Nat.add_comm _ 4
  refine ⟨_, hblob, ?_, ⟨b3, b2, b1, b0, _, rfl, hvalue⟩, fun t => ?_⟩
  · rw [hlength, length_flatMap_entryBytes, Nat.add_assoc]
  · rw [hlength]
    exact deserialize_section_append h hvalue t

/-! ### DESERIALIZE (R97) -/

/-- Over usable ranges an error of the body is the command's failure (R69, R115). -/
theorem exec_of_bodyOf_error {i : Instr} {s : State} {k : ErrKind} (hs : readsSource i = true → sourceReady s)
    (hd : writesDest i = true → destReady s) (ht : i = .genCodes → treeWf s.tree = true)
    (hbody : bodyOf i s (sourceBytes i s) = .error k) : exec i s = .next (failCommand i.opcode k s) := by
  rw [exec_eq_complete i s ht, completeCommand_error (badRange_of_ready hs hd) (usesDevice_of_ready hs hd) hbody]

/-- Settles O30: CORRUPT_TABLE is the deserializer's only error. -/
theorem deserializeReplacesTheCodeTable : Obligations.DeserializeReplacesTheCodeTable := by
  intro s hs
  have hbody := bodyOf_deserialize s (sourceOf s)
  refine ⟨fun ct off h => ?_, fun k h => ?_⟩
  · rw [h] at hbody
    exact exec_table_command (i := .deserialize) rfl (fun _ => hs) nofun hbody
  · obtain rfl := deserialize_error h
    rw [h] at hbody
    exact exec_of_bodyOf_error (i := .deserialize) (fun _ => hs) nofun nofun hbody

end Sys2Proof.Machine
end

section
/-! PROOFS. The decoding trie (43_bitstream.md R100): the node at the end of a bit path, what inserting a code changes at every
path, and the tables whose codes can all be inserted. -/

namespace Sys2Proof.Machine

/-! ### Paths in a trie -/

/-- The node a bit path leads to, or no node (R101). -/
def Trie.follow (t : Trie) (p : Bits) : Trie := p.foldl Trie.child t

@[simp] theorem Trie.follow_nil (t : Trie) : t.follow [] = t := rfl

@[simp] theorem Trie.follow_cons (t : Trie) (bit : Bool) (p : Bits) :
    t.follow (bit :: p) = (t.child bit).follow p := rfl

@[simp] theorem Trie.follow_append (t : Trie) (p q : Bits) : t.follow (p ++ q) = (t.follow p).follow q :=
  List.foldl_append

@[simp] theorem Trie.mark_absent : Trie.absent.mark = none := rfl

@[simp] theorem Trie.child_absent (bit : Bool) : Trie.absent.child bit = .absent := rfl

@[simp] theorem Trie.child_childless (m : Option Byte) (bit : Bool) :
    (Trie.node m .absent .absent).child bit = .absent := by
  cases bit <;> rfl

@[simp] theorem Trie.follow_absent (p : Bits) : Trie.absent.follow p = .absent := by
  induction p with
  | nil => rfl
  | cons bit p ih => rw [follow_cons, child_absent, ih]

/-- A node with one child replaced, or made for that child. -/
def Trie.setChild (t : Trie) : Bool → Trie → Trie
  | false, u => .node t.mark u (t.child true)
  | true, u => .node t.mark (t.child false) u

@[simp] theorem Trie.mark_setChild (t : Trie) (bit : Bool) (u : Trie) : (t.setChild bit u).mark = t.mark := by
  cases bit <;> rfl

theorem Trie.child_setChild (t : Trie) (bit bit' : Bool) (u : Trie) :
    (t.setChild bit u).child bit' = if bit' = bit then u else t.child bit' := by
  cases bit <;> cases bit' <;> rfl

/-! ### Inserting a code -/

/-- A code may end at a node without a mark and without children. -/
theorem Trie.insert_nil_ok_iff {t u : Trie} {b : Byte} :
    t.insert [] b = .ok u ↔
      (t.mark = none ∧ ∀ bit, t.child bit = .absent) ∧ u = .node (some b) .absent .absent := by
  cases t with
  | absent => simp [insert, eq_comm]
  | node m z o =>
    simp only [insert, mark, Bool.forall_bool, child]
    split
    · next hfree => simp [hfree, eq_comm]
    · next hfree => simp [hfree]

/-- A code may go on below a node without a mark. -/
theorem Trie.insert_cons_ok_iff {t u : Trie} {bit : Bool} {c : Bits} {b : Byte} :
    t.insert (bit :: c) b = .ok u ↔
      t.mark = none ∧ ∃ v, (t.child bit).insert c b = .ok v ∧ u = t.setChild bit v := by
  have heq : t.insert (bit :: c) b =
      if t.mark = none then ((t.child bit).insert c b).map (t.setChild bit) else .error .corruptTable := by
    cases t with
    | absent => cases bit <;> simp only [insert, child, mark] <;> cases insert .absent c b <;> rfl
    | node m z o =>
      cases m with
      | none =>
        cases bit with
        | false => simp only [insert, child, mark]; cases insert z c b <;> rfl
        | true => simp only [insert, child, mark]; cases insert o c b <;> rfl
      | some _ => cases bit <;> rfl
  rw [heq]
  by_cases hm : t.mark = none
  · cases hv : (t.child bit).insert c b <;> simp [hm, Except.map, eq_comm]
  · simp [hm]

/-- A code can be inserted where no code before it lies on its path and none continues it (D20). -/
theorem Trie.exists_insert_iff (t : Trie) (c : Bits) (b : Byte) :
    (∃ u, t.insert c b = .ok u) ↔
      (∀ p, p <+: c → (t.follow p).mark = none) ∧ ∀ bit, (t.follow c).child bit = .absent := by
  induction c generalizing t with
  | nil => simp [insert_nil_ok_iff]
  | cons bit c ih =>
    have hstep : (∃ u, t.insert (bit :: c) b = .ok u) ↔ t.mark = none ∧ ∃ v, (t.child bit).insert c b = .ok v := by
      constructor
      · rintro ⟨u, hu⟩
        obtain ⟨hm, v, hv, -⟩ := insert_cons_ok_iff.1 hu
        exact ⟨hm, v, hv⟩
      · rintro ⟨hm, v, hv⟩
        exact ⟨_, insert_cons_ok_iff.2 ⟨hm, v, hv, rfl⟩⟩
    rw [hstep, ih, follow_cons, ← and_assoc]
    refine and_congr_left' ⟨fun ⟨hm, h⟩ p hp => ?_, fun h => ⟨h [] List.nil_prefix, fun p hp => ?_⟩⟩
    · obtain rfl | ⟨q, rfl, hq⟩ := List.prefix_cons_iff.1 hp
      · exact hm
      · exact h q hq
    · exact h (bit :: p) (List.cons_prefix_cons.2 ⟨rfl, hp⟩)

/-- Inserting a code adds the mark at its end and no other. -/
theorem Trie.mark_follow_insert {t u : Trie} {c : Bits} {b : Byte} (h : t.insert c b = .ok u) (p : Bits) :
    (u.follow p).mark = if p = c then some b else (t.follow p).mark := by
  induction c generalizing t u p with
  | nil =>
    obtain ⟨⟨-, hchild⟩, rfl⟩ := insert_nil_ok_iff.1 h
    cases p with
    | nil => rfl
    | cons bit p => simp [hchild]
  | cons bit c ih =>
    obtain ⟨-, v, hv, rfl⟩ := insert_cons_ok_iff.1 h
    cases p with
    | nil => simp
    | cons bit' p =>
      rw [follow_cons, child_setChild]
      by_cases hbit : bit' = bit
      · simp [hbit, ih hv]
      · simp [hbit]

/-- Inserting a code makes nodes on its path only. -/
theorem Trie.follow_insert_ne_absent {t u : Trie} {c : Bits} {b : Byte} (h : t.insert c b = .ok u) {p : Bits}
    (hp : u.follow p ≠ .absent) : p <+: c ∨ t.follow p ≠ .absent := by
  induction c generalizing t u p with
  | nil =>
    obtain ⟨-, rfl⟩ := insert_nil_ok_iff.1 h
    cases p with
    | nil => exact .inl List.nil_prefix
    | cons bit p => simp at hp
  | cons bit c ih =>
    obtain ⟨-, v, hv, rfl⟩ := insert_cons_ok_iff.1 h
    cases p with
    | nil => exact .inl List.nil_prefix
    | cons bit' p =>
      rw [follow_cons, child_setChild] at hp
      split at hp
      · next hbit =>
        rw [hbit, List.cons_prefix_cons, eq_self, true_and]
        exact ih hv hp
      · exact .inr hp

/-! ### The trie of a table -/

/-- A trie holds a table: the marks stand at the ends of the table's codes, and every node but the root on the path of
one (R100). -/
structure Trie.Holds (t : Trie) (ct : CodeTable) : Prop where
  mark_iff : ∀ p b, (t.follow p).mark = some b ↔ (b, p) ∈ ct
  on_path  : ∀ p, p ≠ [] → t.follow p ≠ .absent → ∃ e ∈ ct, p <+: e.2

theorem Trie.fresh_holds : Trie.fresh.Holds [] where
  mark_iff p b := by
    cases p with
    | nil => simp [fresh, mark]
    | cons bit p => simp [fresh]
  on_path p hp h := by
    cases p with
    | nil => exact absurd rfl hp
    | cons bit p => simp [fresh] at h

section
variable {t : Trie} {ct : CodeTable} (h : t.Holds ct)
include h

theorem Trie.Holds.mark_eq_none_iff {p : Bits} : (t.follow p).mark = none ↔ ∀ e ∈ ct, e.2 ≠ p := by
  constructor
  · rintro hnone e he rfl
    rw [(h.mark_iff e.2 e.1).2 he] at hnone
    cases hnone
  · exact fun hall => Option.eq_none_iff_forall_ne_some.2 fun b hb => hall (b, p) ((h.mark_iff p b).1 hb) rfl

/-- After a table whose codes are no prefixes of each other, a code can be inserted exactly if that stays so (D20). -/
theorem Trie.Holds.exists_insert_iff (hct : prefixFree ct) (b : Byte) (c : Bits) :
    (∃ u, t.insert c b = .ok u) ↔ prefixFree (ct ++ [(b, c)]) := by
  have happend : prefixFree (ct ++ [(b, c)]) ↔ ∀ e ∈ ct, ¬ e.2 <+: c ∧ ¬ c <+: e.2 := by
    simp [prefixFree, List.pairwise_append, show ct.Pairwise _ from hct]
  rw [happend, Trie.exists_insert_iff]
  constructor
  · rintro ⟨hmark, hchild⟩ e he
    have hnot : ¬ e.2 <+: c := fun hpre => h.mark_eq_none_iff.1 (hmark _ hpre) e he rfl
    refine ⟨hnot, ?_⟩
    rintro ⟨q, hq⟩
    cases q with
    | nil => exact hnot (by simp [← hq])
    | cons bit q =>
      have hmark := (h.mark_iff e.2 e.1).2 he
      rw [← hq, follow_append, follow_cons, hchild, follow_absent] at hmark
      cases hmark
  · refine fun hct => ⟨fun p hp => h.mark_eq_none_iff.2 fun e he hep => (hct e he).1 (hep ▸ hp), fun bit => ?_⟩
    by_contra hne
    obtain ⟨e, he, hpre⟩ := h.on_path (c ++ [bit]) (by simp) (by simpa using hne)
    exact (hct e he).2 ((List.prefix_append c [bit]).trans hpre)

theorem Trie.Holds.insert {u : Trie} {b : Byte} {c : Bits} (hu : t.insert c b = .ok u) : u.Holds (ct ++ [(b, c)]) where
  mark_iff p b' := by
    have hc := h.mark_eq_none_iff.1 (((t.exists_insert_iff c b).1 ⟨u, hu⟩).1 c List.prefix_rfl)
    rw [mark_follow_insert hu]
    split
    · next hp =>
      have hb' : (b', c) ∉ ct := fun hmem => hc _ hmem rfl
      simp [hp, hb', eq_comm]
    · next hp => simp [h.mark_iff, hp]
  on_path p hp hne := by
    obtain hpre | hne := follow_insert_ne_absent hu hne
    · exact ⟨(b, c), by simp, hpre⟩
    · obtain ⟨e, he, hpre⟩ := h.on_path p hp hne
      exact ⟨e, List.mem_append_left _ he, hpre⟩

end

theorem insertAll_cons_ok_iff {t u : Trie} {b : Byte} {c : Bits} {ct : CodeTable} :
    insertAll t ((b, c) :: ct) = .ok u ↔ c ≠ [] ∧ ∃ v, t.insert c b = .ok v ∧ insertAll v ct = .ok u := by
  by_cases hc : c = []
  · simp [insertAll, hc]
  · cases hv : t.insert c b <;> simp [insertAll, hc, hv]

/-- After the entries of `done`, the entries of `ct` can be inserted exactly if `prefixFree` holds of the whole. -/
theorem Trie.Holds.exists_insertAll_iff {t : Trie} {done : CodeTable} (h : t.Holds done) (hdone : prefixFree done)
    (ct : CodeTable) :
    (∃ u, insertAll t ct = .ok u) ↔ prefixFree (done ++ ct) ∧ ∀ e ∈ ct, e.2 ≠ [] := by
  induction ct generalizing t done with
  | nil => simp [insertAll, hdone]
  | cons e ct ih =>
    obtain ⟨b, c⟩ := e
    rw [List.forall_mem_cons, List.append_cons]
    constructor
    · rintro ⟨u, hu⟩
      obtain ⟨hc, v, hv, hu⟩ := insertAll_cons_ok_iff.1 hu
      obtain ⟨hfree, hne⟩ := (ih (h.insert hv) ((h.exists_insert_iff hdone b c).1 ⟨v, hv⟩)).1 ⟨u, hu⟩
      exact ⟨hfree, hc, hne⟩
    · rintro ⟨hfree, hc, hne⟩
      have hentry : prefixFree (done ++ [(b, c)]) := List.Pairwise.sublist (List.sublist_append_left _ ct) hfree
      obtain ⟨v, hv⟩ := (h.exists_insert_iff hdone b c).2 hentry
      obtain ⟨u, hu⟩ := (ih (h.insert hv) hentry).2 ⟨hfree, hne⟩
      exact ⟨u, insertAll_cons_ok_iff.2 ⟨hc, v, hv, hu⟩⟩

theorem Trie.Holds.insertAll {t u : Trie} {done ct : CodeTable} (h : t.Holds done) (hu : insertAll t ct = .ok u) :
    u.Holds (done ++ ct) := by
  induction ct generalizing t done with
  | nil =>
    cases hu
    rwa [List.append_nil]
  | cons e ct ih =>
    obtain ⟨-, v, hv, hu⟩ := insertAll_cons_ok_iff.1 hu
    rw [List.append_cons]
    exact ih (h.insert hv) hu

theorem exists_buildTrie_iff (ct : CodeTable) :
    (∃ t, buildTrie ct = .ok t) ↔ prefixFree ct ∧ ∀ e ∈ ct, e.2 ≠ [] :=
  Trie.fresh_holds.exists_insertAll_iff .nil ct

theorem buildTrie_holds {ct : CodeTable} {t : Trie} (h : buildTrie ct = .ok t) : t.Holds ct :=
  Trie.fresh_holds.insertAll h

/-- Where no code is the start of another, the code on another's path is that entry itself. -/
theorem eq_of_prefixFree {ct : CodeTable} (h : prefixFree ct) {e f : Byte × Bits} (he : e ∈ ct) (hf : f ∈ ct)
    (hpre : e.2 <+: f.2) : e = f := by
  have : Std.Symm fun e f : Byte × Bits => ¬ e.2 <+: f.2 ∧ ¬ f.2 <+: e.2 := ⟨fun _ _ => And.symm⟩
  by_contra hne
  exact (List.Pairwise.forall h he hf hne).1 hpre

end Sys2Proof.Machine
end

section
/-! PROOFS. The shape of the decoding trie (43_bitstream.md R100) of a generated table: that of the Huffman tree; and BUILD_TRIE
(R103), which reports its node count. -/

namespace Sys2Proof.Machine

/-! ### The trie mirrors the tree -/

/-- A trie under which the marks stand at the leaves the paths of a store's node lead to, and every node on the way to one,
has the shape of the subtree under that node. -/
theorem mirrors_of_follow {nodes : List TreeNode} (hfit : nodesFit nodes) {i : Nat} (hi : i < nodes.length) {t : Trie}
    (hmark : ∀ p b, (t.follow p).mark = some b ↔ ∃ fr, followPath nodes i p = some (.leaf b fr))
    (hpath : ∀ p, p ≠ [] → t.follow p ≠ .absent → ∃ q b fr, followPath nodes i (p ++ q) = some (.leaf b fr)) :
    t.mirrors nodes i := by
  induction i, hi using node_induction hfit generalizing t with
  | leaf i hi b f hn =>
    have hb : t.mark = some b := (hmark [] b).2 ⟨f, hn⟩
    have hchild : ∀ bit, t.child bit = .absent := fun bit => by
      by_contra hne
      obtain ⟨q, c, fr, hq⟩ := hpath [bit] (by simp) hne
      rw [List.singleton_append, followPath_leaf_cons hn] at hq
      cases hq
    cases t with
    | absent => cases hb
    | node m z o =>
      rw [Trie.mirrors, hn]
      exact ⟨hb, hchild false, hchild true⟩
  | internal i hi l r f hl hr hn ihl ihr =>
    have hnone : t.mark = none := Option.eq_none_iff_forall_ne_some.2 fun b hb => by
      obtain ⟨fr, hleaf⟩ := (hmark [] b).1 hb
      rw [followPath_nil, hn] at hleaf
      cases hleaf
    have hchildMark : ∀ bit p b, ((t.child bit).follow p).mark = some b ↔
        ∃ fr, followPath nodes (if bit then r else l) p = some (.leaf b fr) := fun bit p b => by
      rw [← followPath_internal_cons hn]
      exact hmark (bit :: p) b
    have hchildPath : ∀ bit p, p ≠ [] → (t.child bit).follow p ≠ .absent →
        ∃ q b fr, followPath nodes (if bit then r else l) (p ++ q) = some (.leaf b fr) := fun bit p _ hne => by
      simp only [← followPath_internal_cons hn]
      exact hpath (bit :: p) (by simp) hne
    have hzero := ihl (hchildMark false) (hchildPath false)
    have hone := ihr (hchildMark true) (hchildPath true)
    cases t with
    | absent => exact hzero.elim
    | node m z o =>
      rw [Trie.mirrors, hn]
      exact ⟨hnone, hzero, hone⟩

/-! ### The node counts -/

/-- A strict tree over `n` leaves has `2 * n - 1` nodes: the trie, one leaf for each code. -/
theorem size_of_mirrors {nodes : List TreeNode} (hfit : nodesFit nodes) {i : Nat} (hi : i < nodes.length) {t : Trie}
    (h : t.mirrors nodes i) (p : Bits) : t.size + 1 = 2 * (walkFrom nodes i p).length := by
  induction i, hi using node_induction hfit generalizing t p with
  | leaf i hi b f hn =>
    cases t with
    | absent => exact h.elim
    | node m z o =>
      rw [Trie.mirrors, hn] at h
      obtain ⟨-, rfl, rfl⟩ := h
      simp [walkFrom_leaf hn, Trie.size]
  | internal i hi l r f hl hr hn ihl ihr =>
    cases t with
    | absent => exact h.elim
    | node m z o =>
      rw [Trie.mirrors, hn] at h
      obtain ⟨-, hzero, hone⟩ := h
      have hz := ihl hzero (p ++ [false])
      have ho := ihr hone (p ++ [true])
      rw [walkFrom_internal hfit hn, List.length_append, Trie.size]
      omega

theorem leafBytes_childrenOf_length (nodes : List TreeNode) :
    2 * (leafBytes nodes).length + (childrenOf nodes).length = 2 * nodes.length := by
  induction nodes with
  | nil => rfl
  | cons n nodes ih => cases n <;> simp <;> omega

/-- A strict tree over `n` leaves has `2 * n - 1` nodes: the store, one leaf for each byte. -/
theorem length_of_treeWf {nodes : List TreeNode} (h : treeWf nodes = true) (hne : nodes ≠ []) :
    nodes.length + 1 = 2 * (leafBytes nodes).length := by
  obtain ⟨-, hfit, hnodup, hcover, -⟩ := (treeWf_iff nodes).1 h
  have hchildren : (childrenOf nodes).Perm (List.range (nodes.length - 1)) :=
    (List.perm_ext_iff_of_nodup hnodup List.nodup_range).2 fun j =>
      ⟨fun hj => List.mem_range.2 (childrenOf_lt hfit hj), fun hj => hcover j (List.mem_range.1 hj)⟩
  have hcount := hchildren.length_eq
  have htotal := leafBytes_childrenOf_length nodes
  have hpos := List.length_pos_iff.2 hne
  rw [List.length_range] at hcount
  omega

/-- A store of three or more nodes has an internal root. -/
theorem exists_internal_root {nodes : List TreeNode} (h : treeWf nodes = true) (hlen : 3 ≤ nodes.length) :
    ∃ l r f, nodes.getLast? = some (.internal l r f) := by
  cases hroot : nodes.getLast? with
  | none => simp [List.getLast?_eq_none_iff.1 hroot] at hlen
  | some n =>
    cases n with
    | leaf b f => simp [eq_singleton_of_root_leaf h hroot] at hlen
    | internal l r f => exact ⟨l, r, f, rfl⟩

/-- R100: the trie of a generated table of two or more codes has the shape of the Huffman tree, and as many nodes. -/
theorem buildTrie_mirrors {nodes : List TreeNode} {ct : CodeTable} {t : Trie} (h : treeWf nodes = true)
    (hlen : 3 ≤ nodes.length) (hct : genCodes nodes = .ok ct) (ht : buildTrie ct = .ok t) :
    t.mirrors nodes (nodes.length - 1) ∧ t.size = nodes.length := by
  obtain ⟨l, r, f, hroot⟩ := exists_internal_root h hlen
  obtain ⟨hcodes, -⟩ := codesAreTheTreePathsLeftToRight nodes ct l r f h hroot hct
  obtain ⟨-, -, hbytes⟩ := walkFrom_root h hroot
  obtain ⟨-, hfit, -⟩ := (treeWf_iff nodes).1 h
  have hlast : nodes.length - 1 < nodes.length := by omega
  have hholds := buildTrie_holds ht
  have hmirrors : t.mirrors nodes (nodes.length - 1) := by
    refine mirrors_of_follow hfit hlast (fun p b => (hholds.mark_iff p b).trans (hcodes b p)) fun p hp hne => ?_
    obtain ⟨⟨b, c⟩, he, q, rfl⟩ := hholds.on_path p hp hne
    exact ⟨q, b, (hcodes b _).1 he⟩
  refine ⟨hmirrors, ?_⟩
  have hsize := size_of_mirrors hfit hlast hmirrors []
  have hnodes := length_of_treeWf h (by rintro rfl; cases hroot)
  rw [← hbytes.length_eq, List.length_map] at hnodes
  omega

/-- Settles O47: the insertions succeed as long as `prefixFree` holds, and the marks of the trie stand where the
tree's paths end. -/
theorem trieExistsExactlyForPrefixFreeTables : Obligations.TrieExistsExactlyForPrefixFreeTables := by
  refine ⟨fun ct => ⟨exists_buildTrie_iff ct, fun _ => buildTrie_error⟩, fun _ _ _ => buildTrie_mirrors,
    fun b f ct hct => ?_, rfl⟩
  cases hct
  rfl

/-! ### BUILD_TRIE (R103) -/

/-- Settles O32: the command has no range to check, and CORRUPT_TABLE is its body's only error. -/
theorem buildTrieReportsTheNodeCount : Obligations.BuildTrieReportsTheNodeCount := by
  intro s
  have hbody := bodyOf_buildTrie s []
  refine ⟨fun t ht => ?_, fun k hk => ?_⟩
  · rw [ht] at hbody
    exact exec_table_command (i := .buildTrie) rfl nofun nofun hbody
  · obtain rfl := buildTrie_error hk
    rw [hk] at hbody
    exact exec_of_bodyOf_error (i := .buildTrie) nofun nofun nofun hbody

end Sys2Proof.Machine
end

section
/-! PROOFS. The packer (43_bitstream.md R98, R99): the codes a buffer is packed as, and the payload around them. -/

namespace Sys2Proof.Machine

/-! ### The codes of a buffer (R99) -/

theorem codeBits_cons_ok_iff {ct : CodeTable} {b : Byte} {d : Bytes} {bits : Bits} :
    codeBits ct (b :: d) = .ok bits ↔
      ∃ c rest, lookup ct b = some c ∧ codeBits ct d = .ok rest ∧ bits = c ++ rest := by
  rw [codeBits_cons]
  cases hb : lookup ct b with
  | none => simp
  | some c => cases hd : codeBits ct d <;> simp [eq_comm]

/-- A packed buffer has the code of each byte, in order. -/
theorem exists_codes {ct : CodeTable} {d : Bytes} {bits : Bits} (h : codeBits ct d = .ok bits) :
    ∃ codes : List Bits, codes.map some = d.map (lookup ct) ∧ bits = codes.flatten := by
  induction d generalizing bits with
  | nil =>
    cases h
    exact ⟨[], rfl, rfl⟩
  | cons b d ih =>
    obtain ⟨c, rest, hb, hd, rfl⟩ := codeBits_cons_ok_iff.1 h
    obtain ⟨codes, hcodes, rfl⟩ := ih hd
    exact ⟨c :: codes, by simp [hb, hcodes], rfl⟩

/-- Packing fails exactly on a byte without a code (D23). -/
theorem codeBits_error_iff {ct : CodeTable} {d : Bytes} {k : ErrKind} :
    codeBits ct d = .error k ↔ k = .symbolNotInTable ∧ ∃ b ∈ d, b ∉ ct.map Prod.fst := by
  constructor
  · refine fun h => ⟨codeBits_error h, ?_⟩
    by_contra hall
    push Not at hall
    obtain ⟨bits, hbits⟩ := exists_codeBits hall
    rw [hbits] at h
    cases h
  · rintro ⟨rfl, b, hb, hnot⟩
    cases hd : codeBits ct d with
    | error k => rw [codeBits_error hd]
    | ok bits =>
      obtain ⟨codes, hcodes, -⟩ := exists_codes hd
      have hmem : lookup ct b ∈ codes.map some := hcodes ▸ List.mem_map_of_mem hb
      simp [(lookup_eq_none_iff ct b).2 hnot] at hmem

/-! ### The payload (R98) -/

theorem pack_ok_iff {d p : Bytes} {ct : CodeTable} {nb : Nat} :
    pack d ct = .ok (p, nb) ↔ ∃ bits, codeBits ct d = .ok bits ∧ p = payloadOf bits ∧ nb = bits.length := by
  cases hd : codeBits ct d <;> simp [pack, hd, eq_comm]

theorem pack_error_iff {d : Bytes} {ct : CodeTable} {k : ErrKind} :
    pack d ct = .error k ↔ codeBits ct d = .error k := by
  cases hd : codeBits ct d <;> simp [pack, hd]

/-- The bits and their padding are whole bytes, so the packed bytes hold just them. -/
theorem bytesToBits_payload (bits : Bits) :
    bytesToBits (bitsToBytes (bits ++ List.replicate (padCount bits.length) false)) =
      bits ++ List.replicate (padCount bits.length) false := by
  apply bytesToBits_bitsToBytes
  rw [List.length_append, List.length_replicate]
  exact padCount_mod _

theorem payloadOf_length (bits : Bits) : (payloadOf bits).length = 1 + (bits.length + 7) / 8 := by
  have hlen := congrArg List.length (bytesToBits_payload bits)
  rw [bytesToBits_length, List.length_append, List.length_replicate] at hlen
  have hpad := padCount_le bits.length
  rw [payloadOf, List.length_cons]
  omega

/-- Settles O46: the payload's bytes after the first unpack to the bits packed. -/
theorem payloadIsPadCountAndPackedCodes : Obligations.PayloadIsPadCountAndPackedCodes := by
  refine ⟨fun d ct p nb h => ?_, fun d ct k => pack_error_iff.trans codeBits_error_iff⟩
  obtain ⟨bits, hbits, rfl, rfl⟩ := pack_ok_iff.1 h
  obtain ⟨codes, hcodes, rfl⟩ := exists_codes hbits
  have hlen : codes.length = d.length := by simpa using congrArg List.length hcodes
  refine ⟨codes, padCount codes.flatten.length, hlen, fun k hk => ?_, padCount_le _, padCount_mod _, rfl, rfl,
    payloadOf_length _, bytesToBits_payload _⟩
  have hget := congrArg (·[k]?) hcodes
  simpa [hk, hlen] using hget

end Sys2Proof.Machine
end

section
/-! PROOFS. The unpacker (43_bitstream.md R101): its checks in order, and the walk, which takes a sequence of whole codes and
nothing else. -/

namespace Sys2Proof.Machine

/-! ### The checks (R101, D22) -/

theorem unpack_nil_table (p : Bytes) : unpack p [] = .ok ([], 0) := by
  cases p <;> simp [unpack]

theorem unpack_cons {ct : CodeTable} (hct : ct ≠ []) (padByte : Byte) (packed : Bytes) :
    unpack (padByte :: packed) ct = (buildTrie ct).bind fun t => unpackBits t padByte (bytesToBits packed) := by
  rw [unpack, if_neg hct]
  cases buildTrie ct <;> rfl

theorem unpackBits_of_pad_bad {t : Trie} {padByte : Byte} {bits : Bits}
    (h : 7 < padByte.toNat ∨ bits.length < padByte.toNat) : unpackBits t padByte bits = .error .corruptPayload := by
  unfold unpackBits
  split
  · rfl
  · next hle => rw [if_pos (h.resolve_left hle)]

theorem unpackBits_ok_iff {t : Trie} {padByte : Byte} {bits : Bits} {out : Bytes} {n : Nat} :
    unpackBits t padByte bits = .ok (out, n) ↔
      padByte.toNat ≤ 7 ∧ n + padByte.toNat = bits.length ∧ walkBits t t false (bits.take n) = .ok out := by
  by_cases hbad : 7 < padByte.toNat ∨ bits.length < padByte.toNat
  · rw [unpackBits_of_pad_bad hbad]
    refine iff_of_false nofun ?_
    rintro ⟨hseven, hlen, -⟩
    omega
  · obtain ⟨hseven, hlen⟩ := not_or.1 hbad
    have hn : n + padByte.toNat = bits.length ↔ bits.length - padByte.toNat = n := by omega
    rw [unpackBits, if_neg hseven, if_neg hlen, hn]
    simp only [not_lt.1 hseven, true_and]
    constructor
    · intro h
      split at h
      · cases h
      · next hwalk =>
        cases h
        exact ⟨rfl, hwalk⟩
    · rintro ⟨rfl, hwalk⟩
      rw [hwalk]

theorem unpack_cons_ok_iff {ct : CodeTable} (hct : ct ≠ []) {padByte : Byte} {packed out : Bytes} {n : Nat} :
    unpack (padByte :: packed) ct = .ok (out, n) ↔
      ∃ t, buildTrie ct = .ok t ∧ unpackBits t padByte (bytesToBits packed) = .ok (out, n) := by
  rw [unpack_cons hct]
  cases buildTrie ct <;> simp [Except.bind]

/-- Settles O50: the checks as `unpack` makes them. -/
theorem unpackChecksInOrder : Obligations.UnpackChecksInOrder := by
  refine ⟨fun _ => rfl, unpack_nil_table, fun padByte packed ct hct hnot => ?_,
    fun padByte packed ct hct hfree hne hpad => ?_⟩
  · cases ht : buildTrie ct with
    | error k =>
      obtain rfl := buildTrie_error ht
      rw [unpack_cons hct, ht]
      rfl
    | ok t => exact absurd ((exists_buildTrie_iff ct).1 ⟨t, ht⟩).1 hnot
  · obtain ⟨t, ht⟩ := (exists_buildTrie_iff ct).2 ⟨hfree, hne⟩
    rw [unpack_cons hct, ht]
    exact unpackBits_of_pad_bad (by rwa [bytesToBits_length])

/-! ### The walk (R101) -/

section
variable (root : Trie) {t : Trie} (away : Bool) {bit : Bool} (bits : Bits)

theorem walkBits_cons_absent (h : t.child bit = .absent) :
    walkBits root t away (bit :: bits) = .error .corruptPayload := by
  rw [walkBits, h]

theorem walkBits_cons_unmarked (h : t.child bit ≠ .absent) (hm : (t.child bit).mark = none) :
    walkBits root t away (bit :: bits) = walkBits root (t.child bit) true bits := by
  rw [walkBits]
  split
  · next hc => exact absurd hc h
  · next hc => rw [hc]
  · next hc =>
    rw [hc] at hm
    cases hm

theorem walkBits_cons_marked {b : Byte} (hm : (t.child bit).mark = some b) :
    walkBits root t away (bit :: bits) = (walkBits root root false bits).map (b :: ·) := by
  rw [walkBits]
  split
  · next hc => simp [hc] at hm
  · next hc =>
    rw [hc] at hm
    cases hm
  · next hc =>
    rw [hc] at hm
    cases hm
    cases walkBits root root false bits <;> rfl

end

/-- Along a path whose only mark is at its end, the walk comes out at the root with the mark emitted. -/
theorem walkBits_append_of_mark {root t : Trie} {c : Bits} {b : Byte} (away : Bool) (bits : Bits)
    (hend : (t.follow c).mark = some b) (hway : ∀ p, p <+: c → p ≠ c → (t.follow p).mark = none) (hc : c ≠ []) :
    walkBits root t away (c ++ bits) = (walkBits root root false bits).map (b :: ·) := by
  induction c generalizing t away with
  | nil => exact absurd rfl hc
  | cons bit c ih =>
    rw [Trie.follow_cons] at hend
    by_cases hlast : c = []
    · rw [hlast] at hend ⊢
      exact walkBits_cons_marked root away bits hend
    · have hway' : ∀ p, p <+: c → p ≠ c → ((t.child bit).follow p).mark = none := fun p hp hne =>
        hway (bit :: p) (List.cons_prefix_cons.2 ⟨rfl, hp⟩) (by simpa using hne)
      have hnode : t.child bit ≠ .absent := fun h => by simp [h] at hend
      rw [List.cons_append, walkBits_cons_unmarked root away _ hnode (hway' [] List.nil_prefix (Ne.symm hlast))]
      exact ih true hend hway' hlast

/-- The walk undoes the concatenation of codes, under every table that is `prefixFree`. -/
theorem walkBits_codeBits {ct : CodeTable} {t : Trie} (ht : t.Holds ct) (hfree : prefixFree ct)
    (hne : ∀ e ∈ ct, e.2 ≠ []) {d : Bytes} {bits : Bits} (h : codeBits ct d = .ok bits) :
    walkBits t t false bits = .ok d := by
  induction d generalizing bits with
  | nil =>
    cases h
    rfl
  | cons b d ih =>
    obtain ⟨c, rest, hb, hd, rfl⟩ := codeBits_cons_ok_iff.1 h
    have hmem := mem_of_lookup hb
    have hway : ∀ p, p <+: c → p ≠ c → (t.follow p).mark = none := fun p hp hpc =>
      ht.mark_eq_none_iff.2 fun e he hep => hpc <| by
        rw [← hep, eq_of_prefixFree hfree he hmem (hep ▸ hp)]
    rw [walkBits_append_of_mark false rest ((ht.mark_iff c b).2 hmem) hway (hne _ hmem), ih hd]
    rfl

/-- Settles O48: the walk over the data bits gives the buffer whose codes they are. -/
theorem unpackUndoesPack : Obligations.UnpackUndoesPack := by
  intro d ct p nb hct hfree hne hpack
  obtain ⟨bits, hbits, rfl, rfl⟩ := pack_ok_iff.1 hpack
  obtain ⟨t, ht⟩ := (exists_buildTrie_iff ct).2 ⟨hfree, hne⟩
  have hpad : (BitVec.ofNat 8 (padCount bits.length)).toNat = padCount bits.length :=
    Nat.mod_eq_of_lt (Nat.lt_of_le_of_lt (padCount_le _) (by decide))
  refine (unpack_cons_ok_iff hct).2 ⟨t, ht, unpackBits_ok_iff.2 ?_⟩
  rw [hpad, bytesToBits_payload, List.take_left, List.length_append, List.length_replicate]
  exact ⟨padCount_le _, rfl, walkBits_codeBits (buildTrie_holds ht) hfree hne hbits⟩

/-! ### What unpacks (R101, C1) -/

theorem lookup_of_mem {ct : CodeTable} (h : (ct.map Prod.fst).Nodup) {b : Byte} {c : Bits} (hmem : (b, c) ∈ ct) :
    lookup ct b = some c := by
  cases hb : lookup ct b with
  | none => exact absurd (List.mem_map_of_mem hmem) ((lookup_eq_none_iff ct b).1 hb)
  | some c' =>
    obtain ⟨-, rfl⟩ := Prod.mk.inj (List.inj_on_of_nodup_map h (mem_of_lookup hb) hmem rfl)
    rfl

/-- A walk that ends without error has gone through the codes of its output, after the path `p` it started at. -/
theorem codeBits_of_walkBits {ct : CodeTable} {root : Trie} (hroot : root.Holds ct) (hnodup : (ct.map Prod.fst).Nodup)
    {p bits : Bits} {away : Bool} {out : Bytes} (haway : away = false → p = [])
    (h : walkBits root (root.follow p) away bits = .ok out) : codeBits ct out = .ok (p ++ bits) := by
  induction bits generalizing p away out with
  | nil =>
    cases away with
    | true => cases h
    | false =>
      cases h
      rw [haway rfl]
      rfl
  | cons bit bits ih =>
    have hchild : (root.follow p).child bit = root.follow (p ++ [bit]) := by simp
    by_cases hc : (root.follow p).child bit = .absent
    · rw [walkBits_cons_absent root away bits hc] at h
      cases h
    · cases hm : ((root.follow p).child bit).mark with
      | none =>
        rw [walkBits_cons_unmarked root away bits hc hm, hchild] at h
        rw [List.append_cons]
        exact ih (fun hf => by cases hf) h
      | some b =>
        rw [walkBits_cons_marked root away bits hm] at h
        rw [hchild] at hm
        have hlookup := lookup_of_mem hnodup ((hroot.mark_iff _ _).1 hm)
        cases hrest : walkBits root root false bits with
        | error k =>
          rw [hrest] at h
          cases h
        | ok rest =>
          rw [hrest] at h
          cases h
          exact codeBits_cons_ok_iff.2 ⟨_, bits, hlookup, ih (p := []) (fun _ => rfl) hrest, List.append_cons ..⟩

/-- Two bit sequences of one length that agree but for the padding unpack alike (D21). -/
theorem unpackBits_congr (t : Trie) (padByte : Byte) {bits bits' : Bits} (hlen : bits.length = bits'.length)
    (h : bits.take (bits.length - padByte.toNat) = bits'.take (bits'.length - padByte.toNat)) :
    unpackBits t padByte bits = unpackBits t padByte bits' := by
  rw [unpackBits, unpackBits, h, hlen]

/-- Settles O49: the walk goes through the data bits code by code, and looks at no other bit. -/
theorem unpackedBytesAccountForEveryDataBit : Obligations.UnpackedBytesAccountForEveryDataBit := by
  constructor
  · intro padByte packed out ct n hct hwf h
    obtain ⟨t, ht, h⟩ := (unpack_cons_ok_iff hct).1 h
    obtain ⟨hpad, hn, hwalk⟩ := unpackBits_ok_iff.1 h
    obtain ⟨hnodup, -⟩ := (codeTableWf_iff ct).1 hwf
    rw [bytesToBits_length] at hn
    exact ⟨hpad, hn, codeBits_of_walkBits (p := []) (buildTrie_holds ht) hnodup (fun _ => rfl) hwalk⟩
  · intro padByte p q ct hlen hbits
    by_cases hct : ct = []
    · rw [hct, unpack_nil_table, unpack_nil_table]
    · have hcongr : ∀ t, unpackBits t padByte (bytesToBits p) = unpackBits t padByte (bytesToBits q) := fun t =>
        unpackBits_congr t padByte (by simp [hlen]) (by simpa using hbits)
      simp only [unpack_cons hct, hcongr]

end Sys2Proof.Machine
end

section
/-! PROOFS. The round trip of the codec (44_pipeline.md R105 to R108): what the decoder's two Huffman stages make of a blob, and
its RLE stage after them. -/

namespace Sys2Proof.Machine

/-! ### The stages (R106, R107) -/

/-- R106: a blob comes from one code table, packed with and serialized. -/
theorem huffmanBlob_ok {p tb payload : Bytes} (h : huffmanBlob p = .ok (tb, payload)) :
    ∃ ct nb, genCodes (buildTree (analyze p)) = .ok ct ∧ pack p ct = .ok (payload, nb) ∧ serialize ct = .ok tb := by
  unfold huffmanBlob at h
  split at h
  · cases h
  · next ct hct =>
    split at h
    · cases h
    · next payload' nb hpack =>
      split at h
      · cases h
      · next hser => cases h; exact ⟨ct, nb, hct, hpack, hser⟩

/-- R106: a buffer that is not empty goes through the RLE stage and the Huffman half. -/
theorem encodeFn_ok {d : Bytes} {e : EncodeResult} (hd : d ≠ []) (h : encodeFn d = .ok e) :
    ∃ tb payload, huffmanBlob (rleEncode d).out = .ok (tb, payload) ∧
      e = ⟨tb ++ payload, (rleEncode d).used, tb.length⟩ := by
  rw [encodeFn, if_neg hd] at h
  split at h
  · cases h
  · next tb payload hblob => cases h; exact ⟨tb, payload, hblob, rfl⟩

/-- R107: once the Huffman stages give `mid`, the flag decides whether the RLE stage still decodes it. -/
theorem decodeFn_of_stages {src mid out : Bytes} {ct : CodeTable} {off n : Nat} {r : Bool}
    (hct : deserialize src = .ok (ct, off)) (hmid : unpack (src.drop off) ct = .ok (mid, n))
    (hused : r = true → rleDecode mid = .ok out) (hplain : r = false → mid = out) :
    decodeFn src r = .ok (out, mid.length) := by
  cases r with
  | false => simp [decodeFn, hct, hmid, hplain rfl]
  | true => simp [decodeFn, hct, hmid, hused rfl]

/-! ### The round trip (R108) -/

/-- An empty table packs the empty buffer only. -/
theorem ne_nil_of_pack_ok {p payload : Bytes} {ct : CodeTable} {nb : Nat} (hp : p ≠ [])
    (h : pack p ct = .ok (payload, nb)) : ct ≠ [] := by
  rintro rfl
  cases p with
  | nil => exact hp rfl
  | cons b p => cases h

/-- The decoder finds the code table at the front of a blob, and the packed buffer behind it. -/
theorem huffmanBlob_roundTrip {p tb payload : Bytes} (hp : p ≠ []) (h : huffmanBlob p = .ok (tb, payload)) :
    ∃ ct nb, deserialize (tb ++ payload) = .ok (ct, tb.length) ∧ unpack payload ct = .ok (p, nb) := by
  obtain ⟨ct, nb, hct, hpack, hser⟩ := huffmanBlob_ok h
  obtain ⟨ct', hct', hfree, hwf, -, -, -⟩ := generatedTableIsPrefixFree _ (buildTree_treeWf (analyze p))
  obtain rfl : ct = ct' := Except.ok.inj (hct.symm.trans hct')
  obtain ⟨tb', hser', -, -, htable⟩ := tableRoundTripKeepsEveryEntry ct hwf
  obtain rfl : tb = tb' := Except.ok.inj (hser.symm.trans hser')
  obtain ⟨-, hlen⟩ := (codeTableWf_iff ct).1 hwf
  have hcodes : ∀ e ∈ ct, e.2 ≠ [] := fun e he => List.length_pos_iff.1 (hlen e he).1
  exact ⟨ct, nb, htable payload, unpackUndoesPack p ct payload nb (ne_nil_of_pack_ok hp hpack) hfree hcodes hpack⟩

/-- The RLE stage leaves bytes for the Huffman stages, or the decoder could not give the buffer back. -/
theorem rleEncode_out_ne_nil {d : Bytes} (hd : d ≠ []) : (rleEncode d).out ≠ [] := by
  cases hu : (rleEncode d).used with
  | false => rwa [rleEncode_out_of_not_used hu]
  | true =>
    intro hnil
    have hdec := rleDecode_rleEncode hu
    rw [hnil] at hdec
    exact hd (Except.ok.inj hdec).symm

/-- R108, for every buffer the encoder accepts. -/
theorem decodeFn_encodeFn {d : Bytes} {e : EncodeResult} (h : encodeFn d = .ok e) :
    ∃ m, decodeFn e.blob e.used = .ok (d, m) := by
  by_cases hd : d = []
  · subst hd
    cases h
    exact ⟨0, rfl⟩
  · obtain ⟨tb, payload, hblob, rfl⟩ := encodeFn_ok hd h
    obtain ⟨ct, nb, hct, hmid⟩ := huffmanBlob_roundTrip (rleEncode_out_ne_nil hd) hblob
    rw [← List.drop_left (l₁ := tb) (l₂ := payload)] at hmid
    exact ⟨_, decodeFn_of_stages hct hmid rleDecode_rleEncode rleEncode_out_of_not_used⟩

/-- Settles O51: the encoder answers, and the decoder undoes its stages one by one. -/
theorem decodeUndoesEncode : Obligations.DecodeUndoesEncode := by
  intro d hlen
  obtain ⟨e, he⟩ := exists_encodeFn hlen
  obtain ⟨m, hm⟩ := decodeFn_encodeFn he
  exact ⟨e, m, he, hm⟩

end Sys2Proof.Machine
end

section
/-! PROOFS. ENCODE and DECODE as commands (44_pipeline.md R108 to R111): the round trip through the data memory, with the flag
the host keeps (70_reset_and_hazards.md R134), and the unit tables, which neither command uses. -/

namespace Sys2Proof.Machine

/-! ### The round trip through the memory (R108, R110, R111) -/

/-- Memory without devices meets none. -/
theorem meetsDevice_of_no_devices {p : Params} (h : p.devices = []) (a n : Nat) : meetsDevice p a n = false := by
  simp [meetsDevice, h]

/-- An ENCODE without an error committed the encoder's blob, which fits its destination. -/
theorem exec_encode_success {s t : State} (h : exec .encode s = .next t) (herr : t.errBit = false) :
    ∃ e, encodeFn (sourceOf s) = .ok e ∧ badRange .encode s = false ∧ e.blob.length ≤ s.dstCap.toNat ∧
      t = commitCommand Instr.encode.opcode (resultOf s e.blob e.tlen e.used) s := by
  obtain ⟨k, rfl⟩ | ⟨r, hr, hb, hc, rfl⟩ := exec_next h
  · rw [failCommand_errBit] at herr
    cases herr
  · rw [sourceBytes_of_reads s rfl, bodyOf_encode] at hr
    cases he : encodeFn (sourceOf s) with
    | error k => rw [he] at hr; cases hr
    | ok e => rw [he] at hr; cases hr; exact ⟨e, rfl, hb, hc rfl, rfl⟩

/-- A DECODE over usable ranges whose output fits reports its length, and the output reads back from the destination. -/
theorem exec_decode_success {s : State} {r : Bool} {out : Bytes} {m : Nat} (hs : sourceReady s) (hd : destReady s)
    (hwf : s.mem.wf = true) (h : decodeFn (sourceOf s) r = .ok (out, m)) (hfit : out.length ≤ s.dstCap.toNat) :
    ∃ u, exec (.decode r) s = .next u ∧ u.errBit = false ∧ u.outLen = BitVec.ofNat 32 out.length ∧
      u.mem.readBytes s.dstAddr.toNat out.length = out := by
  obtain ⟨hrun, -, -⟩ := decodeWritesTheDecodedBytes s r hs hd
  exact ⟨_, hrun out m h hfit, statusDone_errBit 0x02 false, rfl, Memory.readBytes_writeBytes hwf _ out⟩

/-- The state after the host has written the four operand registers (R33). -/
def withOperands (src len dst cap : Word) (s : State) : State :=
  { s with srcAddr := src, srcLen := len, dstAddr := dst, dstCap := cap }

/-- The blob a commit has written is the source of a command that gets its destination and OUT_LEN as operands. -/
theorem sourceOf_withOperands_commitCommand {op : Byte} {r : Result} {s : State} (dst cap : Word) (hwf : s.mem.wf = true)
    (hlen : r.out.length ≤ s.dstCap.toNat) :
    sourceOf (withOperands s.dstAddr (commitCommand op r s).outLen dst cap (commitCommand op r s)) = r.out := by
  have hread := Memory.readBytes_writeBytes hwf s.dstAddr.toNat r.out
  rwa [← commitCommand_outLen_toNat (op := op) hlen] at hread

/-- Over ordinary memory a committed output is a usable source: R70 has checked the destination it lies in. -/
theorem sourceReady_withOperands_commitCommand {i : Instr} {r : Result} {s : State} (dst cap : Word)
    (hdev : s.params.devices = []) (hw : writesDest i = true) (hb : badRange i s = false)
    (hlen : r.out.length ≤ s.dstCap.toNat) :
    sourceReady (withOperands s.dstAddr (commitCommand i.opcode r s).outLen dst cap (commitCommand i.opcode r s)) := by
  have hout := commitCommand_outLen_toNat (op := i.opcode) hlen
  have hmax := (lengths_le_of_not_badRange hb).2 hw
  have hmem := dest_le_memSize_of_not_badRange hb hw
  refine ⟨?_, ?_, meetsDevice_of_no_devices hdev ..⟩
  · exact (hout.trans_le hlen).trans hmax
  · exact (Nat.add_le_add_left (hout.trans_le hlen) _).trans hmem

/-- Settles O52: DECODE's source is ENCODE's output, still in memory, and R108 says what it decodes to. -/
theorem encodeThenDecodeRestoresTheBuffer : Obligations.EncodeThenDecodeRestoresTheBuffer := by
  intro s t dst cap hdev hwf h herr hcap hdst hfit
  obtain ⟨e, he, hb, hlen, rfl⟩ := exec_encode_success h herr
  obtain ⟨m, hm⟩ := decodeFn_encodeFn he
  have hsrc := sourceReady_withOperands_commitCommand (r := resultOf s e.blob e.tlen e.used) dst cap hdev rfl hb hlen
  have hblob := sourceOf_withOperands_commitCommand (op := Instr.encode.opcode)
    (r := resultOf s e.blob e.tlen e.used) dst cap hwf hlen
  rw [resultOf_out] at hblob
  rw [← hblob] at hm
  obtain ⟨u, hu, huerr, hout, hread⟩ := exec_decode_success hsrc ⟨hcap, hdst, meetsDevice_of_no_devices hdev ..⟩
    (Memory.writeBytes_wf _ _ hwf) hm ((sourceOf_length s).trans_le hfit)
  rw [sourceOf_length] at hout hread
  refine ⟨u, ?_, huerr, by simpa using hout, hread⟩
  rw [commitCommand_rleUsed]
  exact hu

/-! ### The unit tables (R109) -/

/-- A state with other unit tables. -/
def withTables (f : Vector Word 256) (tr : List TreeNode) (ct : CodeTable) (s : State) : State :=
  { s with freq := f, tree := tr, codeTable := ct }

/-- A result that carries other unit tables. -/
def Result.withTables (f : Vector Word 256) (tr : List TreeNode) (ct : CodeTable) (r : Result) : Result :=
  { r with freq := f, tree := tr, codeTable := ct }

section
variable (f : Vector Word 256) (tr : List TreeNode) (ct : CodeTable)

/-- The framework itself does not look at the tables: over a body that only passes them on, so does the command. -/
theorem completeCommand_withTables {i : Instr} {body body' : Bytes → Except ErrKind Result} (s : State)
    (h : ∀ src, body' src = (body src).map (Result.withTables f tr ct)) :
    completeCommand i body' (withTables f tr ct s) = mapNext (withTables f tr ct) (completeCommand i body s) := by
  have hb : badRange i (withTables f tr ct s) = badRange i s := rfl
  have hd : usesDevice i (withTables f tr ct s) = usesDevice i s := rfl
  have hsrc : sourceBytes i (withTables f tr ct s) = sourceBytes i s := rfl
  unfold completeCommand
  rw [hb, hd, hsrc, h]
  split
  · rfl
  · split
    · rfl
    · cases body (sourceBytes i s) with
      | error k => rfl
      | ok r =>
        dsimp only
        rw [apply_ite (mapNext (withTables f tr ct))]
        rfl

/-- ENCODE and DECODE only pass the tables on. -/
theorem bodyOf_withTables {i : Instr} (hi : i = .encode ∨ ∃ r, i = .decode r) (s : State) (src : Bytes) :
    bodyOf i (withTables f tr ct s) src = (bodyOf i s src).map (Result.withTables f tr ct) := by
  obtain rfl | ⟨r, rfl⟩ := hi
  · rw [bodyOf_encode, bodyOf_encode]
    cases encodeFn src <;> rfl
  · rw [bodyOf_decode, bodyOf_decode]
    cases decodeFn src r <;> rfl

end

/-- Settles O22: neither command is a table's writer, and the bodies of both only pass the tables on. -/
theorem encodeAndDecodeDoNotUseTheUnitTables : Obligations.EncodeAndDecodeDoNotUseTheUnitTables := by
  intro i s f tr ct hi
  refine ⟨fun t h => ?_, ?_⟩
  · obtain ⟨-, -, -, -, -, -, -, -, -, hfreq, htree, hcodes⟩ := commandsChangeOnlyTheirTablesAndReport i s t h
    obtain rfl | ⟨r, rfl⟩ := hi <;> exact ⟨hfreq nofun, htree nofun, hcodes nofun nofun⟩
  · have hguard (u : State) : i = .genCodes → treeWf u.tree = true := by
      obtain rfl | ⟨r, rfl⟩ := hi <;> nofun
    rw [exec_eq_complete i s (hguard s), exec_eq_complete i _ (hguard _)]
    exact completeCommand_withTables f tr ct s (bodyOf_withTables f tr ct hi s)

end Sys2Proof.Machine
end

section
/-! PROOFS. The failing completion (60_exceptions.md R115, R116): it is the Fail branch with CMD's low byte in LAST_OP, and no
completion reads the report that the next acceptance clears. -/

namespace Sys2Proof.Machine

/-! ### What a failure writes (R115) -/

/-- A completion that sets ERR took the Fail branch, with the word's low byte in LAST_OP, whether the word is legal or not. -/
theorem engineTurn_next_failed {s t : State} {w : Word} (hp : s.phase = .busy w) (h : engineTurn s = .next t)
    (herr : t.errBit = true) : ∃ k, t = failCommand (lastOpOf w) k s := by
  rw [engineTurn_busy hp] at h
  cases hd : decode w with
  | error e =>
    rw [completeWord_illegal hd] at h
    cases h
    exact ⟨.illegalCommand, rfl⟩
  | ok i =>
    rw [completeWord_legal hd] at h
    obtain ⟨hop, -, -⟩ := decode_ok hd
    obtain ⟨k, rfl, -⟩ := exec_next_failed h herr
    exact ⟨k, by rw [hop]⟩

/-- Settles O14: the failing completion is the Fail branch, which writes only these fields, and puts the kind's number of R112
in ERR_CODE. -/
theorem failureChangesOnlyTheReport : Obligations.FailureChangesOnlyTheReport :=
  ⟨fun _ _ _ hp h herr => engineTurn_next_failed hp h herr, fun _ _ => by simp [ErrKind.code]⟩

/-! ### Issuing a failed command again (R116) -/

/-- A state with another report and phase: the fields that every completion overwrites. -/
def withReport (p : Phase) (status outLen aux : Word) (s : State) : State :=
  { s with phase := p, status := status, outLen := outLen, aux := aux }

/-- A failed command accepted again is the state it failed in, with the report cleared. -/
theorem acceptCommand_failCommand {op : Byte} {k : ErrKind} {w : Word} {s : State} (hc : s.cmd = w) :
    acceptCommand w (failCommand op k s) = withReport (.busy w) (statusBusy (lastOpOf w)) 0 0 s := by
  subst hc
  rfl

section
variable (p : Phase) (status outLen aux : Word)

/-- No body reads the report. -/
theorem bodyOf_withReport (i : Instr) (s : State) : bodyOf i (withReport p status outLen aux s) = bodyOf i s := by
  cases i <;> rfl

/-- The framework reads the operands, the instance and the memory, and each of its branches overwrites the report. -/
theorem completeCommand_withReport (i : Instr) (body : Bytes → Except ErrKind Result) (s : State) :
    completeCommand i body (withReport p status outLen aux s) = completeCommand i body s := rfl

/-- A command's outcome does not depend on the report before it. -/
theorem exec_withReport (i : Instr) (s : State) : exec i (withReport p status outLen aux s) = exec i s := by
  have htree : (withReport p status outLen aux s).tree = s.tree := rfl
  by_cases hg : i = .genCodes → treeWf s.tree = true
  · rw [exec_eq_complete i s hg, exec_eq_complete i _ (htree ▸ hg), bodyOf_withReport, completeCommand_withReport]
  · push Not at hg
    obtain ⟨rfl, hw⟩ := hg
    have hw : treeWf s.tree = false := by simpa using hw
    rw [exec_genCodes_malformed s hw, exec_genCodes_malformed _ (htree ▸ hw)]

theorem completeWord_withReport (w : Word) (s : State) :
    completeWord w (withReport p status outLen aux s) = completeWord w s := by
  cases hd : decode w with
  | error e =>
    rw [completeWord_illegal hd, completeWord_illegal hd]
    rfl
  | ok i => rw [completeWord_legal hd, completeWord_legal hd, exec_withReport]

end

/-- Settles O19: the Fail branch leaves IDLE and all that the completion reads, so the second completion is the first. -/
theorem reissuedCommandReportsTheSameError : Obligations.ReissuedCommandReportsTheSameError := by
  intro s t w hp hc h herr
  obtain ⟨k, rfl⟩ := engineTurn_next_failed hp h herr
  refine ⟨engineTurn_idle (failCommand_phase ..), ?_⟩
  rw [engineTurn_busy (acceptCommand_phase ..), acceptCommand_failCommand hc, completeWord_withReport,
    ← engineTurn_busy hp, h]

end Sys2Proof.Machine
end

section
/-! PROOFS. Reset (70_reset_and_hazards.md R128, R129) and the host's accesses to the data memory while a command is in flight
(R133): both ask which addresses the command in flight holds. -/

namespace Sys2Proof.Machine

/-! ### The command in flight -/

theorem decode?_of_ok {w : Word} {i : Instr} (h : decode w = .ok i) : decode? w = some i := by
  rw [decode?, h]
  rfl

theorem decode?_of_illegal {w : Word} (h : ∀ i, decode w ≠ .ok i) : decode? w = none := by
  cases hd : decode w with
  | error e => rw [decode?, hd]; rfl
  | ok i => exact absurd hd (h i)

/-- R47, R133: a range holds the addresses from its base up to its end. -/
theorem inRange_iff (base len : Word) (a : Nat) :
    inRange base len a = true ↔ base.toNat ≤ a ∧ a < base.toNat + len.toNat := by
  simp [inRange]

section
variable {s : State} {w : Word} (hp : s.phase = .busy w)
include hp

theorem holdsAsSource_iff {i : Instr} (hdec : decode w = .ok i) (a : Nat) :
    holdsAsSource s a = true ↔ readsSource i = true ∧ s.srcAddr.toNat ≤ a ∧ a < s.srcAddr.toNat + s.srcLen.toNat := by
  simp [holdsAsSource, hp, decode?_of_ok hdec, inRange_iff]

theorem holdsAsDest_iff {i : Instr} (hdec : decode w = .ok i) (a : Nat) :
    holdsAsDest s a = true ↔ writesDest i = true ∧ s.dstAddr.toNat ≤ a ∧ a < s.dstAddr.toNat + s.dstCap.toNat := by
  simp [holdsAsDest, hp, decode?_of_ok hdec, inRange_iff]

/-- An illegal word in flight holds no address (assumption log 15). -/
theorem holds_nothing_of_illegal (hill : ∀ i, decode w ≠ .ok i) (a : Nat) :
    holdsAsSource s a = false ∧ holdsAsDest s a = false := by
  simp [holdsAsSource, holdsAsDest, hp, decode?_of_illegal hill]

end

/-! ### Host accesses to an existing ordinary address (R43, R133) -/

section
variable {s : State} {a : Nat} {rest : List BusEvent} (ha : a < s.params.memSize) (hd : meetsDevice s.params a 1 = false)
include ha hd

/-- A host write asks about the source range first. -/
theorem step_memWrite_ordinary {b : Byte} (hi : s.inbox = .memWrite a b :: rest) :
    step s =
      if holdsAsSource s a = true then .fault .hostWroteSourceWhileBusy
      else if holdsAsDest s a = true then .fault .hostTouchedDestinationWhileBusy
      else .next { s with inbox := rest, mem := s.mem.write a b } := by
  rw [step_of_cons hi, takeEvent, hostMemWrite, if_neg (Nat.not_le.2 ha), if_neg (Bool.eq_false_iff.1 hd)]
  rfl

/-- A host read asks about the destination range only. -/
theorem step_memRead_ordinary (hi : s.inbox = .memRead a :: rest) :
    step s =
      if holdsAsDest s a = true then .fault .hostTouchedDestinationWhileBusy
      else .next { s with inbox := rest, readData := (s.mem.read a).setWidth 32 } := by
  rw [step_of_cons hi, takeEvent, hostMemRead, if_neg (Nat.not_le.2 ha), if_neg (Bool.eq_false_iff.1 hd)]
  rfl

end

/-- Settles O53: a host access is answered by the ranges that hold its address, a legal word's or, for an illegal one, none. -/
theorem busyRangesAreOffLimitsToTheHost : Obligations.BusyRangesAreOffLimitsToTheHost := by
  intro s w a b rest hp ha hd
  refine ⟨fun i hdec => ⟨fun hi => ?_, fun hi => ?_⟩, fun hill => ?_⟩
  · rw [step_memWrite_ordinary ha hd hi, ← holdsAsSource_iff hp hdec, ← holdsAsDest_iff hp hdec]
    exact ⟨fun hs => if_pos hs, fun hs hdst => (if_neg hs).trans (if_pos hdst),
      fun hs hdst => (if_neg hs).trans (if_neg hdst)⟩
  · rw [step_memRead_ordinary ha hd hi, ← holdsAsDest_iff hp hdec]
    exact ⟨fun hdst => if_pos hdst, fun hdst => if_neg hdst⟩
  · obtain ⟨hsrc, hdst⟩ := holds_nothing_of_illegal hp hill a
    refine ⟨fun hi => ?_, fun hi => ?_⟩
    · simp [step_memWrite_ordinary ha hd hi, hsrc, hdst]
    · simp [step_memRead_ordinary ha hd hi, hdst]

/-! ### Reset (R128, R129) -/

/-- A reset of a command that does not use a device restores the engine. -/
theorem step_reset {s : State} {rest : List BusEvent} (hi : s.inbox = .reset :: rest) (hd : inFlightUsesDevice s = false) :
    step s = .next (resetEngine { s with inbox := rest }) := by
  have hd' : inFlightUsesDevice { s with inbox := rest } = false := hd
  rw [step_of_cons hi, takeEvent, assertReset, hd']
  rfl

theorem abandonedLength_idle {s : State} (hp : s.phase = .idle) : abandonedLength s = 0 := by
  simp [abandonedLength, hp]

/-- R129: only a legal command with a destination abandons bytes, and they are those of its destination that exist. -/
theorem abandonedLength_cases (s : State) :
    abandonedLength s = 0 ∨
    ∃ w i, s.phase = .busy w ∧ decode w = .ok i ∧ writesDest i = true ∧
      abandonedLength s = min s.dstCap.toNat (s.params.memSize - s.dstAddr.toNat) := by
  cases hp : s.phase with
  | idle => exact .inl (abandonedLength_idle hp)
  | busy w =>
    cases hdec : decode w with
    | error e => exact .inl (by simp [abandonedLength, hp, decode?_of_illegal (w := w) (by simp [hdec])])
    | ok i =>
      cases hw : writesDest i with
      | false => exact .inl (by simp [abandonedLength, hp, decode?_of_ok hdec, hw])
      | true => exact .inr ⟨w, i, rfl, hdec, hw, by simp [abandonedLength, hp, decode?_of_ok hdec, hw]⟩

/-- A reset in IDLE leaves the memory. -/
theorem resetEngine_mem_of_idle {s : State} (hp : s.phase = .idle) : (resetEngine s).mem = s.mem := by
  have hnil : abandonedBytes s = [] := by rw [← List.length_eq_zero_iff, abandonedBytes_length, abandonedLength_idle hp]
  rw [resetEngine_mem, hnil, Memory.writeBytes_nil]

/-- A reset leaves every byte outside the abandoned destination range. -/
theorem resetEngine_mem_read_outside {s : State} {a : Nat} (hwf : s.mem.wf = true)
    (ha : ∀ w i, s.phase = .busy w → decode w = .ok i → writesDest i = true →
      ¬ (s.dstAddr.toNat ≤ a ∧ a < s.dstAddr.toNat + min s.dstCap.toNat (s.params.memSize - s.dstAddr.toNat))) :
    (resetEngine s).mem.read a = s.mem.read a := by
  rw [resetEngine_mem]
  refine Memory.read_writeBytes_outside hwf _ ?_
  rw [abandonedBytes_length]
  obtain h | ⟨w, i, hp, hdec, hw, h⟩ := abandonedLength_cases s
  · omega
  · have := ha w i hp hdec hw
    omega

/-- Settles O13: the step is `resetEngine`, whose fields are the reset values and whose memory differs in the abandoned bytes. -/
theorem resetRestoresEverythingButTheAbandonedBytes : Obligations.ResetRestoresEverythingButTheAbandonedBytes :=
  fun _ _ hi hd => ⟨_, step_reset hi hd, rfl, rfl, rfl, rfl, rfl, rfl, rfl, rfl, rfl, countOf_replicate_zero, rfl, rfl,
    rfl, rfl, rfl, resetEngine_mem_of_idle, fun hwf _ => resetEngine_mem_read_outside hwf⟩

end Sys2Proof.Machine
end

section
/-! PROOFS. The host's polling (70_reset_and_hazards.md R131, R137): no command looks at the coming events or at what the host
has read. -/

namespace Sys2Proof.Machine

section
variable (l : List BusEvent) (v : Word)

/-- No body looks at the host's side. -/
theorem bodyOf_withHostSide (i : Instr) (s : State) : bodyOf i (withHostSide l v s) = bodyOf i s := by
  cases i <;> rfl

/-- The framework does not look at the host's side, and each of its branches passes it on. -/
theorem completeCommand_withHostSide (i : Instr) (body : Bytes → Except ErrKind Result) (s : State) :
    completeCommand i body (withHostSide l v s) = mapNext (withHostSide l v) (completeCommand i body s) := by
  have hb : badRange i (withHostSide l v s) = badRange i s := rfl
  have hd : usesDevice i (withHostSide l v s) = usesDevice i s := rfl
  have hsrc : sourceBytes i (withHostSide l v s) = sourceBytes i s := rfl
  unfold completeCommand
  rw [hb, hd, hsrc, withHostSide_dstCap]
  split
  · rfl
  · split
    · rfl
    · cases body (sourceBytes i s) with
      | error k => rfl
      | ok r =>
        dsimp only
        rw [apply_ite (mapNext (withHostSide l v))]
        rfl

end

/-- Settles O6: by the framework, or by GEN_CODES' guard, which looks at the node store only. -/
theorem commandIgnoresTheHostsPolling : Obligations.CommandIgnoresTheHostsPolling := by
  intro s i l v
  by_cases hg : i = .genCodes → treeWf s.tree = true
  · rw [exec_eq_complete i s hg, exec_eq_complete i (withHostSide l v s) hg, bodyOf_withHostSide,
      completeCommand_withHostSide]
  · push Not at hg
    obtain ⟨rfl, hw⟩ := hg
    have hw : treeWf s.tree = false := by simpa using hw
    rw [exec_genCodes_malformed s hw, exec_genCodes_malformed (withHostSide l v s) hw]
    rfl

end Sys2Proof.Machine
end
